-- ==== Sys2Proof/Word.lean ====
section
/-! DEFINITION. The word types of the block and their plainest operations: bytes, command words,
handles and context tags (R12, R100; D11). -/

namespace Sys2Proof

/-- A byte, bits 7 to 0 (R12). -/
abbrev Byte := BitVec 8

/-- A 64-bit command word (R100). -/
abbrev CommandWord := BitVec 64

/-- A buffer handle, `HANDLE_W` = 16 bits (D11). -/
abbrev Handle := BitVec 16

/-- A channel's opaque context tag, `CTX_W` = 24 bits (D11). -/
abbrev Ctx := BitVec 24

/-- The byte that stands for a natural number modulo 256. -/
abbrev byteOf (n : Nat) : Byte := BitVec.ofNat 8 n

end Sys2Proof
end

