-- ==== Sys2Proof/Syntax.lean ====
section
/-! DEFINITION. The operations of the block, one constructor for each row of spec/opcode_table.json:
the 20 command words of R110 and the 6 wire-frame patterns of R90 to R93. Operands carry the width
of their field; a data operand is its list of bytes, whose length is field `A` (R101). -/

namespace Sys2Proof

/-- The operations, in the table's order. -/
inductive Instr where
  /-- `INIT` (R250). -/
  | init (g : Byte)
  /-- `FREEPOOL` (R145). -/
  | freepool
  /-- `CSCALC` (R131). -/
  | cscalc (data : List Byte)
  /-- `CSCHECK` (R132). -/
  | cscheck (expected : Byte) (data : List Byte)
  /-- `ALLOC` (R142). -/
  | alloc
  /-- `REFINC` (R143). -/
  | refinc (h : Handle)
  /-- `RELEASE` (R144). -/
  | release (h : Handle)
  /-- `BUFWR` (R146). -/
  | bufwr (off val : Byte) (h : Handle)
  /-- `BUFRD` (R147). -/
  | bufrd (off : Byte) (h : Handle)
  /-- `SETLEN` (R148). -/
  | setlen (len : Byte) (h : Handle)
  /-- `BUFINFO` (R149). -/
  | bufinfo (h : Handle)
  /-- `RXPUSH` (R171). -/
  | rxpush (data : List Byte)
  /-- `RXSCAN` (R175). -/
  | rxscan
  /-- `RXBYTES` (R186). -/
  | rxbytes (data : List Byte)
  /-- `ASSEMBLE` (R200). -/
  | assemble (channel priority : Byte) (h : Handle)
  /-- `DRAIN` (R205). -/
  | drain
  /-- `TRANSMIT` (R235). -/
  | transmit (channel : Byte) (h : Handle)
  /-- `CONFIG` (R220). -/
  | config (channel : Byte) (priority : BitVec 3) (kind : BitVec 2) (ctx : Ctx)
  /-- `SETPRIO` (R221). -/
  | setprio (channel value : Byte)
  /-- `GETPRIO` (R222). -/
  | getprio (channel : Byte)
  /-- `FRAME.HEADER`: bytes 0 to 2 of a frame, fields as the table names them (R90). -/
  | frameHeader (x : BitVec 1) (service : BitVec 5) (seq : BitVec 2) (channel : BitVec 5) (priority : BitVec 3)
  /-- `FRAME.SOF`: byte 0 (R90). -/
  | frameSof
  /-- `FRAME.LENSEQ`: byte 1 (R92). -/
  | frameLenSeq (x : BitVec 1) (service : BitVec 5) (seq : BitVec 2)
  /-- `FRAME.CHANPRIO`: byte 2 (R92). -/
  | frameChanPrio (channel : BitVec 5) (priority : BitVec 3)
  /-- `FRAME.PAYLOAD`: a byte of offsets 3 to `frame_length - 2` (R93). -/
  | framePayload (d : Byte)
  /-- `FRAME.CHECKSUM`: byte `frame_length - 1` (R90). -/
  | frameChecksum (k : Byte)
deriving DecidableEq, Repr

/-- The pseudo-operation `FILL h [p0 … p(L-1)]` (R114): a payload filled from offset 3. Above 253 bytes an offset
`3 + i` does not fit field `A`, and the spec gives no expansion: the model has none, DESIGN CHOICE,
notes/assumptions/29.md. -/
def pseudoFill (h : Handle) (payload : List Byte) : Option (List Instr) :=
  if payload.length ≤ 253 then
    some ((List.range payload.length).map (fun i => Instr.bufwr (byteOf (3 + i)) (payload.getD i 0) h) ++
      [.setlen (byteOf payload.length) h])
  else none

/-- The pseudo-operation `SEND ch [payload]` (R114), `h` being the handle its `ALLOC` returns; no expansion where
its `FILL` has none (DESIGN CHOICE, notes/assumptions/29.md). -/
def pseudoSend (ch : Byte) (h : Handle) (payload : List Byte) : Option (List Instr) :=
  (pseudoFill h payload).map (fun fill => .alloc :: fill ++ [.transmit ch h, .release h])

end Sys2Proof
end

