-- ==== Sys2Proof/WellFormed.lean ====
section
/-! DEFINITION. Which terms of `Instr` have an encoding. Every operand carries the width of its field,
so the one check left is that a data operand's length fits field `A` (R101): 0 to 255 bytes. -/

namespace Sys2Proof

/-- A data operand has at most 255 bytes (R101; D43). -/
def dataFits (data : List Byte) : Bool := data.length ≤ 255

/-- The operation can be written as a request: its data operand, if it takes one, fits (R101). -/
def Instr.wellFormed : Instr → Bool
  | .init _ => true
  | .freepool => true
  | .cscalc data => dataFits data
  | .cscheck _ data => dataFits data
  | .alloc => true
  | .refinc _ => true
  | .release _ => true
  | .bufwr _ _ _ => true
  | .bufrd _ _ => true
  | .setlen _ _ => true
  | .bufinfo _ => true
  | .rxpush data => dataFits data
  | .rxscan => true
  | .rxbytes data => dataFits data
  | .assemble _ _ _ => true
  | .drain => true
  | .transmit _ _ => true
  | .config _ _ _ _ => true
  | .setprio _ _ => true
  | .getprio _ => true
  | .frameHeader _ _ _ _ _ => true
  | .frameSof => true
  | .frameLenSeq _ _ _ => true
  | .frameChanPrio _ _ => true
  | .framePayload _ => true
  | .frameChecksum _ => true

end Sys2Proof
end

