-- ==== Sys2Proof/Decode.lean ====
section
/-! DEFINITION. The two encodings of 30_encoding.md. A request is what the environment hands to the
block: a command word with its data operand (R100, R101), or bytes of a frame arriving on the wire
(R90). `decode` is total on requests and refuses by name; `encode` writes an operation's request
from the same tables. `decodeTableWord` reads a word numbered as spec/opcode_table.json numbers it. -/

namespace Sys2Proof

/-- Which part of a frame the arriving byte or bytes are. On the wire the place in the frame says so
(R90); as single bytes the patterns overlap. DESIGN CHOICE, notes/assumptions/17.md. -/
inductive FramePart where
  | header
  | sof
  | lenSeq
  | chanPrio
  | payload
  | checksum
deriving DecidableEq, Repr

/-- What is issued to the block: a command word and its data operand (R100, R101), or a part of a
frame at the inbound boundary. -/
inductive Request where
  | command (word : CommandWord) (data : List Byte)
  | wire (part : FramePart) (bytes : List Byte)
deriving DecidableEq, Repr

/-- Why a request is no operation of the table. -/
inductive Reject where
  /-- `OP` is none of the table's (R111). -/
  | reservedOp
  /-- A field the operation does not use is not zero (R100, R112). -/
  | unusedField
  /-- The data operand's length is not the one the word gives (R101). DESIGN CHOICE, notes/assumptions/15.md. -/
  | dataLength
  /-- The bytes do not have the pattern of the frame part they are handed over as (R90). -/
  | notThisPart
deriving DecidableEq, Repr

/-! ## The fields of a command word (R100) -/

/-- The five fields of a command word (R100). -/
structure Fields where
  op : Byte
  a : Byte
  b : Byte
  h : Handle
  x : Ctx
deriving DecidableEq, Repr

/-- Cuts a command word into its fields: `OP` 7:0, `A` 15:8, `B` 23:16, `H` 39:24, `X` 63:40 (R100). -/
def fieldsOf (w : CommandWord) : Fields where
  op := w.extractLsb' 0 8
  a := w.extractLsb' 8 8
  b := w.extractLsb' 16 8
  h := w.extractLsb' 24 16
  x := w.extractLsb' 40 24

/-- Puts a command word together from its fields (R100). -/
def wordOf (f : Fields) : CommandWord := f.x ++ f.h ++ f.b ++ f.a ++ f.op

/-! ## Decoding a command (R110 to R112) -/

/-- The second and third steps of decoding: the fields the row leaves empty are zero (R112), and the
data operand has the length the word gives (R101). -/
def accept (unusedZero : Bool) (dataLen : Nat) (data : List Byte) (i : Instr) : Except Reject Instr :=
  if !unusedZero then .error .unusedField
  else if data.length ≠ dataLen then .error .dataLength
  else .ok i

/-- The operation a command word and its data operand name, by the table of R110. -/
def decodeCommand (w : CommandWord) (data : List Byte) : Except Reject Instr :=
  let f := fieldsOf w
  match f.op.toNat with
  | 0x01 => accept (f.b == 0 && f.h == 0 && f.x == 0) 0 data (.init f.a)
  | 0x02 => accept (f.a == 0 && f.b == 0 && f.h == 0 && f.x == 0) 0 data .freepool
  | 0x10 => accept (f.b == 0 && f.h == 0 && f.x == 0) f.a.toNat data (.cscalc data)
  | 0x11 => accept (f.h == 0 && f.x == 0) f.a.toNat data (.cscheck f.b data)
  | 0x20 => accept (f.a == 0 && f.b == 0 && f.h == 0 && f.x == 0) 0 data .alloc
  | 0x21 => accept (f.a == 0 && f.b == 0 && f.x == 0) 0 data (.refinc f.h)
  | 0x22 => accept (f.a == 0 && f.b == 0 && f.x == 0) 0 data (.release f.h)
  | 0x23 => accept (f.x == 0) 0 data (.bufwr f.a f.b f.h)
  | 0x24 => accept (f.b == 0 && f.x == 0) 0 data (.bufrd f.a f.h)
  | 0x25 => accept (f.b == 0 && f.x == 0) 0 data (.setlen f.a f.h)
  | 0x26 => accept (f.a == 0 && f.b == 0 && f.x == 0) 0 data (.bufinfo f.h)
  | 0x30 => accept (f.b == 0 && f.h == 0 && f.x == 0) f.a.toNat data (.rxpush data)
  | 0x31 => accept (f.a == 0 && f.b == 0 && f.h == 0 && f.x == 0) 0 data .rxscan
  | 0x32 => accept (f.b == 0 && f.h == 0 && f.x == 0) f.a.toNat data (.rxbytes data)
  | 0x40 => accept (f.x == 0) 0 data (.assemble f.a f.b f.h)
  | 0x41 => accept (f.a == 0 && f.b == 0 && f.h == 0 && f.x == 0) 0 data .drain
  | 0x42 => accept (f.b == 0 && f.x == 0) 0 data (.transmit f.a f.h)
  | 0x50 =>
    accept (f.b.extractLsb' 3 1 == 0 && f.b.extractLsb' 6 2 == 0 && f.h == 0) 0 data
      (.config f.a (f.b.extractLsb' 0 3) (f.b.extractLsb' 4 2) f.x)
  | 0x51 => accept (f.h == 0 && f.x == 0) 0 data (.setprio f.a f.b)
  | 0x52 => accept (f.b == 0 && f.h == 0 && f.x == 0) 0 data (.getprio f.a)
  | _ => .error .reservedOp

/-! ## Decoding a part of a frame (R90, R92) -/

/-- `S`, bits 6:2 of frame byte 1 (R92). -/
def serviceLenOf (b1 : Byte) : BitVec 5 := b1.extractLsb' 2 5
/-- `seq`, bits 1:0 of frame byte 1 (R92). -/
def seqOf (b1 : Byte) : BitVec 2 := b1.extractLsb' 0 2
/-- Bit 7 of frame byte 1, which the source assigns to nothing (R91). -/
def spareBitOf (b1 : Byte) : BitVec 1 := b1.extractLsb' 7 1
/-- `channel`, bits 7:3 of frame byte 2 (R92). -/
def channelOf (b2 : Byte) : BitVec 5 := b2.extractLsb' 3 5
/-- `priority`, bits 2:0 of frame byte 2 (R92). -/
def priorityOf (b2 : Byte) : BitVec 3 := b2.extractLsb' 0 3

/-- Frame byte 1 from its fields (R90, R92). -/
def lenSeqByte (x : BitVec 1) (service : BitVec 5) (seq : BitVec 2) : Byte := x ++ service ++ seq
/-- Frame byte 2 from its fields (R92). -/
def chanPrioByte (channel : BitVec 5) (priority : BitVec 3) : Byte := channel ++ priority

/-- The wire pattern of the table that the bytes are, handed over as `part`. -/
def decodeWire (part : FramePart) (bytes : List Byte) : Except Reject Instr :=
  match part, bytes with
  | .header, [b0, b1, b2] =>
    if b0 = 0x05 then
      .ok (.frameHeader (spareBitOf b1) (serviceLenOf b1) (seqOf b1) (channelOf b2) (priorityOf b2))
    else .error .notThisPart
  | .sof, [b0] => if b0 = 0x05 then .ok .frameSof else .error .notThisPart
  | .lenSeq, [b] => .ok (.frameLenSeq (spareBitOf b) (serviceLenOf b) (seqOf b))
  | .chanPrio, [b] => .ok (.frameChanPrio (channelOf b) (priorityOf b))
  | .payload, [b] => .ok (.framePayload b)
  | .checksum, [b] => .ok (.frameChecksum b)
  | _, _ => .error .notThisPart

/-- The operation a request names, or why it names none. -/
def decode : Request → Except Reject Instr
  | .command w data => decodeCommand w data
  | .wire part bytes => decodeWire part bytes

/-! ## Encoding -/

/-- A command word from its fields, least significant first. -/
def commandWord (op a b : Byte) (h : Handle) (x : Ctx) : CommandWord := wordOf ⟨op, a, b, h, x⟩

/-- Field `B` of `CONFIG`: `priority` in bits 2:0, `kind` in bits 5:4, the others zero (R110, R112). -/
def configByte (priority : BitVec 3) (kind : BitVec 2) : Byte :=
  (0 : BitVec 2) ++ kind ++ (0 : BitVec 1) ++ priority

/-- The bytes of a part of a frame, from its fields (R90, R92). -/
def headerBytes (x : BitVec 1) (service : BitVec 5) (seq : BitVec 2) (channel : BitVec 5) (priority : BitVec 3) :
    List Byte :=
  [0x05, lenSeqByte x service seq, chanPrioByte channel priority]

/-- The request that issues an operation (R100, R101, R110; for the wire patterns R90). -/
def encode : Instr → Request
  | .init g => .command (commandWord 0x01 g 0 0 0) []
  | .freepool => .command (commandWord 0x02 0 0 0 0) []
  | .cscalc data => .command (commandWord 0x10 (byteOf data.length) 0 0 0) data
  | .cscheck expected data => .command (commandWord 0x11 (byteOf data.length) expected 0 0) data
  | .alloc => .command (commandWord 0x20 0 0 0 0) []
  | .refinc h => .command (commandWord 0x21 0 0 h 0) []
  | .release h => .command (commandWord 0x22 0 0 h 0) []
  | .bufwr off val h => .command (commandWord 0x23 off val h 0) []
  | .bufrd off h => .command (commandWord 0x24 off 0 h 0) []
  | .setlen len h => .command (commandWord 0x25 len 0 h 0) []
  | .bufinfo h => .command (commandWord 0x26 0 0 h 0) []
  | .rxpush data => .command (commandWord 0x30 (byteOf data.length) 0 0 0) data
  | .rxscan => .command (commandWord 0x31 0 0 0 0) []
  | .rxbytes data => .command (commandWord 0x32 (byteOf data.length) 0 0 0) data
  | .assemble channel priority h => .command (commandWord 0x40 channel priority h 0) []
  | .drain => .command (commandWord 0x41 0 0 0 0) []
  | .transmit channel h => .command (commandWord 0x42 channel 0 h 0) []
  | .config channel priority kind ctx => .command (commandWord 0x50 channel (configByte priority kind) 0 ctx) []
  | .setprio channel value => .command (commandWord 0x51 channel value 0 0) []
  | .getprio channel => .command (commandWord 0x52 channel 0 0 0) []
  | .frameHeader x service seq channel priority => .wire .header (headerBytes x service seq channel priority)
  | .frameSof => .wire .sof [0x05]
  | .frameLenSeq x service seq => .wire .lenSeq [lenSeqByte x service seq]
  | .frameChanPrio channel priority => .wire .chanPrio [chanPrioByte channel priority]
  | .framePayload d => .wire .payload [d]
  | .frameChecksum k => .wire .checksum [k]

/-! ## Words numbered as spec/opcode_table.json numbers them -/

/-- The operation codes of R110. -/
def opCodes : List Nat :=
  [0x01, 0x02, 0x10, 0x11, 0x20, 0x21, 0x22, 0x23, 0x24, 0x25, 0x26, 0x30, 0x31, 0x32, 0x40, 0x41, 0x42,
    0x50, 0x51, 0x52]

/-- The operation codes whose data operand has field `A` bytes (R101). -/
def dataOpCodes : List Nat := [0x10, 0x11, 0x30, 0x32]

/-- The request that a table word stands for. A word of the 24 bits of `FRAME.HEADER` whose top byte
is `SOF` is a header; a lone byte that is no `OP` is a byte on the wire, `SOF` or a payload byte;
every other word is a command, with a data operand of zeros. DESIGN CHOICE, notes/assumptions/17.md
and 18.md. -/
def tableRequest (nbits w : Nat) : Request :=
  if nbits = 24 ∧ w / 65536 % 256 = 0x05 then
    .wire .header [byteOf (w / 65536), byteOf (w / 256), byteOf w]
  else if nbits = 8 ∧ ¬ opCodes.contains (w % 256) then
    if w % 256 = 0x05 then .wire .sof [byteOf w] else .wire .payload [byteOf w]
  else
    .command (BitVec.ofNat 64 w)
      (if dataOpCodes.contains (w % 256) then List.replicate (w / 256 % 256) 0 else [])

/-- The operation the decoder reads from a table word, none where it refuses. -/
def decodeTableWord (nbits w : Nat) : Option Instr :=
  match decode (tableRequest nbits w) with
  | .ok i => some i
  | .error _ => none

end Sys2Proof
end

