-- ==== Sys2Proof/Config.lean ====
section
/-! DEFINITION. The fixed constants of R7, the parameters of R9 as one record, the reference build
that `State.reset` uses, and the free values: constants without a body, of which nothing can be
proved, for what the spec leaves open run by run. -/

namespace Sys2Proof

/-! ## Fixed constants (R7) -/

/-- `SOF`, the start-of-frame marker. -/
abbrev sofByte : Byte := 0x05
/-- `FILL`, the idle byte and the padding byte. -/
abbrev fillByte : Byte := 0xFF
/-- `MAX_FRAME`, the capacity of a buffer and the largest frame length. -/
abbrev maxFrame : Nat := 96
/-- `HEADER_LEN`. -/
abbrev headerLen : Nat := 3
/-- `CHECKSUM_LEN`. -/
abbrev checksumLen : Nat := 1
/-- `RING_SIZE`. -/
abbrev ringSize : Nat := 256
/-- `MIN_SCAN`, the least number of unread bytes the scan looks at. -/
abbrev minScan : Nat := 8
/-- `MAX_TX_PER_DRAIN`. -/
abbrev maxTxPerDrain : Nat := 50
/-- `MAX_CHANNELS` (D3). -/
abbrev maxChannels : Nat := 21
/-- The largest payload, `MAX_FRAME - HEADER_LEN - CHECKSUM_LEN` (R95, R148; C1). -/
abbrev maxPayload : Nat := 92

/-! ## Parameters (R9) -/

/-- The parameters an implementation fixes when it is built (R9, R252). They stand in the state, no
operation writes them, and a statement about every state is a statement about every build.
DESIGN CHOICE, notes/assumptions/1.md. -/
structure Params where
  /-- `QUEUE_DEPTH`, and `TXQ_CAP`, which equals it (D4). -/
  queueDepth : Nat
  /-- `POOL_BLOCKS`, written `N` (D5). -/
  poolBlocks : Nat
  /-- `IDX_W`, the width of the queue indices (D6). -/
  idxW : Nat
  /-- `REF_MAX` (D7). -/
  refMax : Nat
  /-- `DEBUG_IN_CH` (D8). -/
  debugIn : Nat
  /-- `DEBUG_OUT_CH` (D8). -/
  debugOut : Nat
  /-- `SCRUB_BYTE` (D9). -/
  scrubByte : Byte
  /-- `PRIO_RESET[c]` for `c` = 0 to 20 (D10). -/
  prioReset : List (BitVec 3)
  /-- `EXPECTED_CLEAR_ON_RESYNC` (D12). -/
  clearExpectedOnResync : Bool
deriving DecidableEq, Repr

/-- What R9 and D3 to D10 demand of the parameters. The bound on `POOL_BLOCKS` is the handle's width
(D11; notes/assumptions/26.md). -/
abbrev Params.wf (p : Params) : Prop :=
  p.queueDepth = 2 ^ Nat.log2 p.queueDepth ∧
  2 * p.queueDepth ≤ 2 ^ p.idxW ∧
  1 ≤ p.poolBlocks ∧ p.poolBlocks ≤ 65536 ∧
  4 ≤ p.refMax ∧
  p.debugIn < maxChannels ∧ p.debugOut < maxChannels ∧ p.debugIn ≠ p.debugOut ∧
  p.prioReset.length = maxChannels

/-- The build that `State.reset` stands for: the parameters of the spec's own test vectors
(95_test_vectors.md), `IDX_W` of R165 and the suggested `REF_MAX`.
DESIGN CHOICE, notes/assumptions/2.md to 5.md. -/
def Params.reference : Params where
  queueDepth := 4
  poolBlocks := 4
  idxW := 8
  refMax := 255
  debugIn := 20
  debugOut := 19
  scrubByte := 0
  prioReset := List.replicate 21 0
  clearExpectedOnResync := false

/-! ## Free values -/

/-- The environment's answer to a draw (R263). -/
inductive Answer where
  | ok
  | fail
deriving DecidableEq, Repr, Inhabited

/-- FREE VALUE: the answer to the `k`-th draw for which the state lists none (U21).
notes/assumptions/10.md. -/
opaque Config.answer (k : Nat) : Answer

/-- FREE VALUE: what offset `off` of buffer `h` reads as in session `n` until it is written (U1, R25).
notes/assumptions/7.md. -/
opaque Config.bufferByte (n h off : Nat) : Byte

/-- FREE VALUE: what ring index `i` reads as in session `n` until it is written (U1, R31).
notes/assumptions/8.md. -/
opaque Config.ringByte (n i : Nat) : Byte

/-- FREE VALUE: the handle in queue slot `i` in session `n` until it is written (U1, R28).
notes/assumptions/8.md. -/
opaque Config.slotHandle (n i : Nat) : Handle

end Sys2Proof
end

