-- ==== Sys2Proof/Machine/Memory.lean ====
section
/-! DEFINITION. The block's storage as plain data: a list of (address, content) cells with strictly
rising addresses. An unlisted address has not been written since the session began; it holds no
value of its own, so no entry can equal what an unlisted address reads as, and the operations that
read storage give a free value there (R25, R28, R31; U1; notes/assumptions/7.md and 8.md). -/

namespace Sys2Proof.Machine

/-- Storage of contents `α` by address. -/
abbrev Store (α : Type) := List (Nat × α)

/-- Byte storage: a list of the host's cells. -/
abbrev Memory := List Host.Cell

/-- The canonical form: addresses strictly rising. -/
abbrev Store.wf {α : Type} (m : Store α) : Prop := m.Pairwise (fun p q => p.1 < q.1)

/-- The canonical form, of byte storage. -/
abbrev Memory.wf (m : Memory) : Prop := Store.wf m

/-- Every address listed is below `n`. -/
abbrev Store.below {α : Type} (n : Nat) (m : Store α) : Prop := ∀ p ∈ m, p.1 < n

/-- What stands at an address, if it was written. -/
def Store.read? {α : Type} : Store α → Nat → Option α
  | [], _ => none
  | (k, v) :: m, a => if k = a then some v else Store.read? m a

/-- Writes one cell, keeping the addresses rising. -/
def Store.write {α : Type} : Store α → Nat → α → Store α
  | [], a, v => [(a, v)]
  | (k, w) :: m, a, v =>
    if a < k then (a, v) :: (k, w) :: m
    else if a = k then (a, v) :: m
    else (k, w) :: Store.write m a v

/-- Writes a list of contents to the addresses `a`, `a + 1`, … in ascending order (R69). -/
def Store.writeList {α : Type} : Store α → Nat → List α → Store α
  | m, _, [] => m
  | m, a, v :: vs => Store.writeList (Store.write m a v) (a + 1) vs

end Sys2Proof.Machine
end

