-- ==== Sys2Proof/Machine/State.lean ====
section
/-! DEFINITION. The state of the block (10_state.md), the response and the events an operation
produces (R102, R103, R262), the reasons a run can stop (R272), and the state after hardware reset
(R44, R300). All of it is plain data. -/

namespace Sys2Proof.Machine

/-! ## Lifecycle, configuration, channel table -/

/-- `life` (R23). -/
inductive Life where
  | uninit
  | active
  | closed
deriving DecidableEq, Repr

/-- The four legal granularities (R8, R23). -/
inductive Gran where
  | g4
  | g8
  | g16
  | g32
deriving DecidableEq, Repr

/-- `chan[c].kind` (R40): no receiver, whole-buffer receiver, copied-bytes receiver. -/
inductive Kind where
  | none
  | buffer
  | bytes
deriving DecidableEq, Repr

/-- One entry of the channel table (R40). -/
structure Chan where
  prio : BitVec 3
  kind : Kind
  ctx : Ctx
deriving DecidableEq, Repr

/-! ## Pool, queue, ring -/

/-- One buffer of the pool (R24). An unlisted offset of `data` has not been written since `INIT`. -/
structure Buf where
  data : Memory
  frameLength : BitVec 8
  payloadLength : BitVec 8
  refcount : Nat
deriving DecidableEq, Repr

/-- A buffer as `INIT` leaves it (R25, R250). -/
def Buf.fresh : Buf := { data := [], frameLength := 0, payloadLength := 0, refcount := 0 }

/-- The transmit queue: slots and free-running indices (R28, R29). -/
structure TxQueue where
  slot : Store Handle
  rd : Nat
  wr : Nat
deriving DecidableEq, Repr

/-- The receive ring (R31, R32). -/
structure Ring where
  buf : Memory
  current : BitVec 8
  next : BitVec 8
deriving DecidableEq, Repr

/-! ## Responses and events -/

/-- The status codes (R103). -/
inductive Status where
  | ok
  | resourceExhausted
  | checksumMismatch
  | sequenceMismatch
  | frameTooLong
  | invalidParameter
  | transmitFailed
  | lockNotAcquired
deriving DecidableEq, Repr

/-- The result values an operation returns besides the status (R102, R110). -/
inductive Result where
  | none
  | freed (freed : Bool)
  | checksum (checksum : Byte)
  | computed (computed : Byte)
  | handle (h : Handle)
  | value (val : Byte)
  | info (frameLength payloadLength : BitVec 8) (refcount : Nat)
  | accepted (accepted : Nat)
  | sent (sent : Nat)
  | priority (priority : BitVec 3)
deriving DecidableEq, Repr

/-- A response (R102). -/
structure Response where
  status : Status
  result : Result
deriving DecidableEq, Repr

/-- The events (R262). -/
inductive Event where
  | txBytes (len : Nat) (bytes : List Byte) (result : Answer)
  | deliverBuffer (channel : Nat) (ctx : Ctx) (handle : Handle)
  | deliverBytes (channel : Nat) (ctx : Ctx) (bytes : List Byte)
  | skippedBytes (n : Nat)
  | frameTooLong (fl : Nat)
  | checksumMismatch (found computed : Byte)
  | sequenceMismatch (counter received : BitVec 2)
  | rxNoBuffer
  | rxNoReceiver (ch : BitVec 5)
  | queueFull
  | queueEmpty
  | lockFailed
  | transmitFailed
  | poolOutstanding (handles : List Handle)
deriving DecidableEq, Repr

/-! ## The state -/

/-- Everything the spec gives the block (R42 and R20 to R41), the parameters of its build (R9), its
boundary (R102, R262, R263), and the model's own counters. -/
structure State where
  /-- The build's parameters (R9), written by no operation; notes/assumptions/1.md. -/
  params : Params
  /-- `life` (R23). -/
  life : Life
  /-- `G` (R23). -/
  gran : Gran
  /-- `pool[0..N-1]` (R24). -/
  pool : List Buf
  /-- `txq` (R28, R29). -/
  txq : TxQueue
  /-- `ring` (R31, R32). -/
  ring : Ring
  /-- `expected` (R34). -/
  expected : BitVec 8
  /-- `rx_seq` (R35). -/
  rxSeq : BitVec 2
  /-- `tx_seq` (R35). -/
  txSeq : BitVec 2
  /-- `last_valid` (R36). -/
  lastValid : Bool
  /-- `skipped` (R37). -/
  skipped : Nat
  /-- `ignore_skipped` (R38). -/
  ignoreSkipped : Bool
  /-- `chan[0..20]` (R40). -/
  chan : List Chan
  /-- The response of the last operation (R102); notes/assumptions/19.md. -/
  resp : Option Response
  /-- The event list of the last operation (R262); notes/assumptions/19.md. -/
  events : List Event
  /-- The model's: operations issued and not yet run, oldest first; notes/assumptions/12.md. -/
  pending : List Request
  /-- The model's: the environment's answers to the next draws (R263); notes/assumptions/10.md. -/
  draws : List Answer
  /-- The model's: draws answered by the free value so far; notes/assumptions/11.md. -/
  freeDraws : Nat
  /-- The model's: successful `INIT`s so far, which picks the free contents; notes/assumptions/9.md. -/
  session : Nat
deriving DecidableEq, Repr

/-- The reasons a run stops (R272). The spec gives none of them a behaviour; each is safe: the model
stops where the hardware would go on in a way the spec does not describe. notes/assumptions/23.md. -/
inductive Fault where
  /-- Raised by `RefInc` at `REF_MAX` (U3, R150). Safe. -/
  | refIncAtMax
  /-- Raised by `RefDec` at 0 (U4, R151). Safe. -/
  | refDecAtZero
  /-- Raised by `DrainBody` on a buffer whose `frame_length` is below 8 (U5), or above 96, which only
  states that no run reaches hold (R24, R65; notes/assumptions/22.md). Safe. -/
  | drainFrameLength
deriving DecidableEq, Repr

/-- The reasons an operation has no meaning in the model. -/
inductive Refusal where
  /-- Raised by `exec` for an operation that has no meaning yet; no arm does. Safe. -/
  | notModelled (mnemonic : String)
deriving DecidableEq, Repr

/-! ## Hardware reset -/

/-- The channel table after hardware reset: `NONE`, context 0, `PRIO_RESET[c]` (R41). -/
def resetChannels (p : Params) : List Chan :=
  p.prioReset.map (fun q => { prio := q, kind := .none, ctx := 0 })

/-- The block of build `p` after hardware reset (R44, R300). `life` and the channel table are the
spec's; every other register is unspecified there and gets the value `INIT` gives it
(DESIGN CHOICE, notes/assumptions/6.md); the pool is absent. -/
def State.resetWith (p : Params) : State where
  params := p
  life := .uninit
  gran := .g4
  pool := []
  txq := { slot := [], rd := 0, wr := 0 }
  ring := { buf := [], current := 0, next := 0 }
  expected := 0
  rxSeq := 0
  txSeq := 0
  lastValid := false
  skipped := 0
  ignoreSkipped := true
  chan := resetChannels p
  resp := .none
  events := []
  pending := []
  draws := []
  freeDraws := 0
  session := 0

/-- The machine right after reset, for the reference build (notes/assumptions/2.md). -/
def State.reset : State := State.resetWith Params.reference

/-- A reset input, if an implementation has one (R300): nothing of the block's state survives (R61, R301) but
the build. The model's own fields are not the block's and go on: the requests and answers that are the
environment's, and the two counters that pick free values, so that a session after the reset, its unwritten
storage (U1) and its free draws (U21), has unknown values of its own and repeats none of an earlier one.
DESIGN CHOICE, notes/assumptions/28.md (with 9.md and 11.md). -/
def State.hardwareReset (s : State) : State :=
  { State.resetWith s.params with
    pending := s.pending
    draws := s.draws
    freeDraws := s.freeDraws
    session := s.session }

end Sys2Proof.Machine
end

