-- ==== Sys2Proof/Machine/Ops.lean ====
section
/-! DEFINITION. The named operations over the state: responses and events, draws, the pool with its
reference counts, the channel table, the receive ring, the transmit queue, and the fetch of the next
issued request. Meanings are written over these and touch no field otherwise. -/

namespace Sys2Proof.Machine

/-! ## Responses, events, the one way to refuse -/

/-- Begins an operation: its event list is empty and its response not yet given. -/
def State.startOp (s : State) : State := { s with events := [], resp := .none }

/-- Gives the response (R102). -/
def State.reply (s : State) (status : Status) (result : Result) : State :=
  { s with resp := .some { status := status, result := result } }

/-- Appends an event (R14, R75). -/
def State.emit (s : State) (e : Event) : State := { s with events := s.events ++ [e] }

/-- The state after a refused operation: `InvalidParameter`, no event, nothing changed (R264, R270). -/
def State.refused (s : State) : State := s.startOp.reply .invalidParameter .none

/-- The one answer to a failing check, shared by every operation (R264, R285). This stands where an
instruction set would take an exception: the block has none (R270). -/
def refuse (s : State) : Host.Outcome State Fault Refusal := .next s.refused

/-- An operation that may meet a fault of the run (R272) ends in it, or in the next state. -/
def complete (r : Except Fault State) : Host.Outcome State Fault Refusal :=
  match r with
  | .ok t => .next t
  | .error f => .fault f

/-! ## Draws -/

/-- The answer the next draw gets: the environment's, or the free value (R263). -/
def State.nextAnswer (s : State) : Answer :=
  match s.draws with
  | a :: _ => a
  | [] => Config.answer s.freeDraws

/-- Takes the next answer away (R263). -/
def State.afterDraw (s : State) : State :=
  match s.draws with
  | _ :: rest => { s with draws := rest }
  | [] => { s with freeDraws := s.freeDraws + 1 }

/-! ## Buffer pool -/

/-- What a handle that names no buffer reads as: nothing is ever read there, since every check
demands `refcount >= 1` (R141). -/
def Buf.absent : Buf := { data := [], frameLength := 0, payloadLength := 0, refcount := 0 }

/-- `pool[h]` (R24). -/
def State.buf (s : State) (h : Handle) : Buf := s.pool.getD h.toNat Buf.absent

/-- Changes `pool[h]` (R24). -/
def State.modifyBuf (s : State) (h : Handle) (f : Buf → Buf) : State :=
  { s with pool := s.pool.modify h.toNat f }

/-- Reads `pool[h].data[off]` (R69); an offset not written since `INIT` holds a free value (U1). -/
def State.readData (s : State) (h : Handle) (off : Nat) : Byte :=
  (Store.read? (s.buf h).data off).getD (Config.bufferByte s.session h.toNat off)

/-- Reads `pool[h].data[off .. off + n - 1]` (R14, R69). -/
def State.readRange (s : State) (h : Handle) (off n : Nat) : List Byte :=
  (List.range n).map (fun i => s.readData h (off + i))

/-- Writes `pool[h].data[off]` (R69). -/
def State.writeData (s : State) (h : Handle) (off : Nat) (v : Byte) : State :=
  s.modifyBuf h (fun b => { b with data := Store.write b.data off v })

/-- Writes `pool[h].data[off]`, `pool[h].data[off + 1]`, … in ascending order (R69). -/
def State.writeRange (s : State) (h : Handle) (off : Nat) (vs : List Byte) : State :=
  s.modifyBuf h (fun b => { b with data := Store.writeList b.data off vs })

/-- Sets `pool[h].frame_length`. -/
def State.setFrameLength (s : State) (h : Handle) (n : BitVec 8) : State :=
  s.modifyBuf h (fun b => { b with frameLength := n })

/-- Sets `pool[h].payload_length`. -/
def State.setPayloadLength (s : State) (h : Handle) (n : BitVec 8) : State :=
  s.modifyBuf h (fun b => { b with payloadLength := n })

/-- Sets `pool[h].refcount`. -/
def State.setRefcount (s : State) (h : Handle) (n : Nat) : State :=
  s.modifyBuf h (fun b => { b with refcount := n })

/-- What the scrub leaves: all 96 data bytes equal to `SCRUB_BYTE` (R151). -/
def scrubbed (v : Byte) : Memory := (List.range maxFrame).map (fun i => (i, v))

/-- The scrub (R151): data only, the lengths keep their values (D36). -/
def State.scrub (s : State) (h : Handle) : State :=
  s.modifyBuf h (fun b => { b with data := scrubbed s.params.scrubByte })

/-- `RefInc(h)` (R150). At `REF_MAX` the run faults (U3). -/
def refInc (h : Handle) (s : State) : Except Fault State :=
  if s.params.refMax ≤ (s.buf h).refcount then .error .refIncAtMax
  else .ok (s.setRefcount h ((s.buf h).refcount + 1))

/-- `RefDec(h)` (R151). At 0 the run faults (U4). -/
def refDec (h : Handle) (s : State) : Except Fault State :=
  if (s.buf h).refcount = 0 then .error .refDecAtZero
  else if (s.buf h).refcount = 1 then .ok ((s.setRefcount h 0).scrub h)
  else .ok (s.setRefcount h ((s.buf h).refcount - 1))

/-- The lowest-numbered free buffer (R142). -/
def State.firstFree (s : State) : Option Handle :=
  (s.pool.findIdx? (fun b => b.refcount == 0)).map (BitVec.ofNat 16)

/-- Takes a free buffer: one reference, both lengths 0, the data as they are (R142). -/
def State.takeBuf (s : State) (h : Handle) : State :=
  s.modifyBuf h (fun b => { b with refcount := 1, frameLength := 0, payloadLength := 0 })

/-- The handles of the live buffers, ascending (R145). -/
def State.outstanding (s : State) : List Handle :=
  ((List.range s.pool.length).map (BitVec.ofNat 16)).filter (fun h => (s.buf h).refcount != 0)

/-! ## Channel table -/

/-- What a channel number beyond the table reads as; every check refuses those numbers first. -/
def Chan.absent : Chan := { prio := 0, kind := .none, ctx := 0 }

/-- `chan[c]` (R40). -/
def State.chanAt (s : State) (c : Nat) : Chan := s.chan.getD c Chan.absent

/-- Changes `chan[c]` (R40). -/
def State.modifyChan (s : State) (c : Nat) (f : Chan → Chan) : State :=
  { s with chan := s.chan.modify c f }

/-! ## Receive ring -/

/-- `avail`, the number of unread bytes (R32). -/
def State.avail (s : State) : Nat := (s.ring.next - s.ring.current).toNat

/-- `RingRead(i)` (R66); an index not written since `INIT` holds a free value (U1). -/
def State.ringRead (s : State) (i : Nat) : Byte :=
  let k := (s.ring.current + BitVec.ofNat 8 i).toNat
  (Store.read? s.ring.buf k).getD (Config.ringByte s.session k)

/-- `RingRead(a)`, …, `RingRead(a + n - 1)`. -/
def State.ringRange (s : State) (a n : Nat) : List Byte :=
  (List.range n).map (fun i => s.ringRead (a + i))

/-- `RingRelease(n)` (R67). -/
def State.ringRelease (s : State) (n : Nat) : State :=
  { s with ring := { s.ring with current := s.ring.current + BitVec.ofNat 8 n } }

/-- `RingAppend(b)` (R68): none where the ring is full. -/
def State.ringAppend? (s : State) (b : Byte) : Option State :=
  if s.ring.next + 1 = s.ring.current then .none
  else .some { s with
    ring := { s.ring with buf := Store.write s.ring.buf s.ring.next.toNat b, next := s.ring.next + 1 } }

/-- Appends bytes until one does not fit; answers how many were accepted (R171). -/
def State.ringPush (s : State) : List Byte → Nat × State
  | [] => (0, s)
  | b :: bs =>
    match s.ringAppend? b with
    | .none => (0, s)
    | .some t =>
      let r := t.ringPush bs
      (r.1 + 1, r.2)

/-! ## Transmit queue -/

/-- An index plus 1, modulo `2^IDX_W` (R29). -/
def State.idxNext (s : State) (i : Nat) : Nat := (i + 1) % 2 ^ s.params.idxW

/-- `count`, the number of queued handles: `wr - rd` modulo `2^IDX_W` (R29). -/
def State.queueCount (s : State) : Nat :=
  (s.txq.wr + 2 ^ s.params.idxW - s.txq.rd) % 2 ^ s.params.idxW

/-- The handle in a slot (R28); a slot not written since `INIT` holds a free value (U1). -/
def State.slotAt (s : State) (i : Nat) : Handle :=
  (Store.read? s.txq.slot i).getD (Config.slotHandle s.session i)

/-- The queued handles, oldest first (R30). -/
def State.queued (s : State) : List Handle :=
  (List.range s.queueCount).map (fun i => s.slotAt ((s.txq.rd + i) % s.params.queueDepth))

/-- `Q.ENQ(h)` (R161). -/
def qEnq (h : Handle) (s : State) : Bool × State :=
  if s.queueCount = s.params.queueDepth then (false, s.emit .queueFull)
  else
    (true, { s with
      txq := { s.txq with
        slot := Store.write s.txq.slot (s.txq.wr % s.params.queueDepth) h
        wr := s.idxNext s.txq.wr } })

/-- `Q.DEQ()` (R162). The slot keeps its content (D40). -/
def qDeq (s : State) : Option Handle × State :=
  if s.txq.rd = s.txq.wr then (.none, s.emit .queueEmpty)
  else
    (.some (s.slotAt (s.txq.rd % s.params.queueDepth)),
      { s with txq := { s.txq with rd := s.idxNext s.txq.rd } })

/-! ## Fetch -/

/-- The next issued request and the state without it (R10, R74); none where nothing is issued.
DESIGN CHOICE, notes/assumptions/12.md. -/
def State.fetch (s : State) : Option (Request × State) :=
  match s.pending with
  | [] => .none
  | r :: rest => .some (r, { s with pending := rest })

/-- Issues a request ahead of every other one. -/
def State.issueFirst (s : State) (r : Request) : State := { s with pending := r :: s.pending }

/-- Issues a request after every other one. -/
def State.issue (s : State) (r : Request) : State := { s with pending := s.pending ++ [r] }

end Sys2Proof.Machine
end

