-- ==== Sys2Proof/Machine/Operands.lean ====
section
/-! DEFINITION. Operands and their checks, each once: the lifecycle check, the handle check, channel,
priority, offset and length ranges, and the operands that name a granularity or a receiver kind. The
checks of an operation are joined in the order its rule gives (R264); which of several failing ones
"wins" cannot be observed. -/

namespace Sys2Proof.Machine

/-- The lifecycle check (R140, R170, R285). -/
abbrev State.isActive (s : State) : Prop := s.life = .active

/-- The handle check (R141): in range, and live. -/
abbrev State.handleLive (s : State) (h : Handle) : Prop :=
  h.toNat < s.params.poolBlocks ∧ (s.buf h).refcount ≠ 0

/-- `channel < MAX_CHANNELS` (R200, R220, R221, R222, R235). -/
abbrev channelOk (c : Byte) : Prop := c.toNat < maxChannels

/-- `priority <= 7` (R200, R221). -/
abbrev priorityOk (p : Byte) : Prop := p.toNat ≤ 7

/-- `off <= 95` (R146, R147). -/
abbrev offsetOk (off : Byte) : Prop := off.toNat < maxFrame

/-- `len <= 92` (R148). -/
abbrev lengthOk (len : Byte) : Prop := len.toNat ≤ maxPayload

/-- A payload length that can be assembled: 1 to 92 (R200, R235; C1, C3). -/
abbrev payloadOk (l : BitVec 8) : Prop := 1 ≤ l.toNat ∧ l.toNat ≤ maxPayload

/-- The granularity an operand names (R250). -/
def Gran.ofByte? (g : Byte) : Option Gran :=
  if g = 4 then .some .g4
  else if g = 8 then .some .g8
  else if g = 16 then .some .g16
  else if g = 32 then .some .g32
  else .none

/-- The granularity in bytes (R8). -/
def Gran.bytes : Gran → Nat
  | .g4 => 4
  | .g8 => 8
  | .g16 => 16
  | .g32 => 32

/-- The receiver kind that `CONFIG` may name: 1 or 2 (R112, R220; D39). -/
def Kind.ofCode? (k : BitVec 2) : Option Kind :=
  if k = 1 then .some .buffer
  else if k = 2 then .some .bytes
  else .none

/-- The code of a receiver kind (R40). -/
def Kind.code : Kind → BitVec 2
  | .none => 0
  | .buffer => 1
  | .bytes => 2

/-- The number of a status (R103). -/
def Status.code : Status → Byte
  | .ok => 0x00
  | .resourceExhausted => 0x01
  | .checksumMismatch => 0x02
  | .sequenceMismatch => 0x03
  | .frameTooLong => 0x04
  | .invalidParameter => 0x05
  | .transmitFailed => 0x06
  | .lockNotAcquired => 0x07

/-- The number of an event (R262). -/
def Event.id : Event → Byte
  | .txBytes _ _ _ => 0x80
  | .deliverBuffer _ _ _ => 0x81
  | .deliverBytes _ _ _ => 0x82
  | .skippedBytes _ => 0x90
  | .frameTooLong _ => 0x91
  | .checksumMismatch _ _ => 0x92
  | .sequenceMismatch _ _ => 0x93
  | .rxNoBuffer => 0x94
  | .rxNoReceiver _ => 0x95
  | .queueFull => 0x96
  | .queueEmpty => 0x97
  | .lockFailed => 0x98
  | .transmitFailed => 0x99
  | .poolOutstanding _ => 0x9A

/-- Boundary events are the block's functional outputs; the others are log events (R262). -/
def Event.isBoundary : Event → Bool
  | .txBytes _ _ _ => true
  | .deliverBuffer _ _ _ => true
  | .deliverBytes _ _ _ => true
  | .skippedBytes _ => false
  | .frameTooLong _ => false
  | .checksumMismatch _ _ => false
  | .sequenceMismatch _ _ => false
  | .rxNoBuffer => false
  | .rxNoReceiver _ => false
  | .queueFull => false
  | .queueEmpty => false
  | .lockFailed => false
  | .transmitFailed => false
  | .poolOutstanding _ => false

end Sys2Proof.Machine
end

