-- ==== Sys2Proof/Machine/Frame.lean ====
section
/-! DEFINITION. The arithmetic of the wire frame: the checksum (R130), the two length computations
(R94, R95, R201) and the header bytes as the transmitter writes them (R92, R202). -/

namespace Sys2Proof.Machine

/-- `Checksum(p)`: the sum of the bytes' complements to `0x100`, modulo 256 (R130). -/
def checksum (p : List Byte) : Byte := byteOf ((p.map (fun b => (0x100 - b.toNat) % 256)).sum % 256)

/-- The frame length a received byte 1 gives: `(S + 2) * 4` (R94). -/
def rxFrameLen (b1 : Byte) : Nat := ((serviceLenOf b1).toNat + 2) * 4

/-- `FrameLen(L)`: `L + 4` rounded up to a multiple of the granularity (R95, R201). -/
def frameLen (g : Gran) (l : Nat) : Nat := (l + 4 + g.bytes - 1) / g.bytes * g.bytes

/-- Frame byte 1 as assembly writes it: `S` in bits 6:2, the rest 0 (R202). -/
def assembledByte1 (fl : Nat) : Byte := byteOf ((fl / 4 - 2) * 4)

/-- Frame byte 2: `channel * 8 + priority` (R92, R202). -/
def assembledByte2 (channel : Byte) (priority : Byte) : Byte := channel * 8 + priority

/-- Frame byte 1 with the sequence bits replaced and the others kept (R206). -/
def stampSeq (b1 : Byte) (seq : BitVec 2) : Byte := (b1 &&& 0xFC) + seq.setWidth 8

end Sys2Proof.Machine
end

