-- ==== Sys2Proof/Machine/Checksum.lean ====
section
/-! DEFINITION. The checksum operations (R131, R132): legal in every lifecycle state, they change no
state. -/

namespace Sys2Proof.Machine

/-- `CSCALC` (R131). -/
def execCscalc (data : List Byte) (s : State) : Host.Outcome State Fault Refusal :=
  if data = [] then refuse s
  else .next (s.startOp.reply .ok (.checksum (checksum data)))

/-- `CSCHECK` (R132): the computed value is returned on success and on failure. -/
def execCscheck (expected : Byte) (data : List Byte) (s : State) : Host.Outcome State Fault Refusal :=
  if data = [] then refuse s
  else
    .next (s.startOp.reply (if checksum data = expected then .ok else .checksumMismatch)
      (.computed (checksum data)))

end Sys2Proof.Machine
end

