-- ==== Sys2Proof/Machine/Flags.lean ====
section
/-! DEFINITION. The flags and counters of the receive scan, each computation once: `last_valid`,
`skipped`, `ignore_skipped` (R36 to R38), `expected` (R34) and `rx_seq` (R35). No other flag exists
(R39). -/

namespace Sys2Proof.Machine

/-- A byte was dropped by case SKIP: it is counted, and unless it is quiet idle fill the run will be
reported (R177). -/
def State.countSkipped (s : State) (b0 : Byte) : State :=
  { s with
    skipped := s.skipped + 1
    ignoreSkipped := if s.lastValid ∧ b0 = fillByte then s.ignoreSkipped else false }

/-- `SofFound()` (R178): reports the run of dropped bytes unless it was quiet, and re-arms. -/
def State.sofFound (s : State) : State :=
  if s.skipped > 0 then
    let t := if s.ignoreSkipped then s else s.emit (.skippedBytes s.skipped)
    { t with skipped := 0, ignoreSkipped := true }
  else s

/-- The candidate was rejected or accepted (R36). -/
def State.setLastValid (s : State) (v : Bool) : State := { s with lastValid := v }

/-- Records how many bytes the scan waits for; 0 clears it (R34). -/
def State.setExpected (s : State) (n : BitVec 8) : State := { s with expected := n }

/-- What a one-byte drop does to `expected` (R177, R179, R181; D12). -/
def State.clearExpectedOnDrop (s : State) : State :=
  if s.params.clearExpectedOnResync then s.setExpected 0 else s

/-- `SequenceCheck(seq)` (R182): a mismatch is logged, the counter follows the frame. -/
def State.sequenceCheck (s : State) (seq : BitVec 2) : State :=
  let t := if seq ≠ s.rxSeq then s.emit (.sequenceMismatch s.rxSeq seq) else s
  { t with rxSeq := seq + 1 }

end Sys2Proof.Machine
end

