-- ==== Sys2Proof/Machine/Mux.lean ====
section
/-! DEFINITION. The multiplexer: the channel table operations (R220 to R222) and the primitives of
the dispatch (R230 to R232). -/

namespace Sys2Proof.Machine

/-- `CONFIG` (R220). Bits 3, 6 and 7 of `B` are zero, or the word would not have decoded (R112). -/
def execConfig (channel : Byte) (priority : BitVec 3) (kind : BitVec 2) (ctx : Ctx) (s : State) :
    Host.Outcome State Fault Refusal :=
  if channelOk channel then
    match Kind.ofCode? kind with
    | .none => refuse s
    | .some k =>
      .next ((s.startOp.modifyChan channel.toNat
        (fun _ => { prio := priority, kind := k, ctx := ctx })).reply .ok .none)
  else refuse s

/-- `SETPRIO` (R221). -/
def execSetprio (channel value : Byte) (s : State) : Host.Outcome State Fault Refusal :=
  if channelOk channel ∧ priorityOk value then
    .next ((s.startOp.modifyChan channel.toNat
      (fun c => { c with prio := value.setWidth 3 })).reply .ok .none)
  else refuse s

/-- `GETPRIO` (R222). -/
def execGetprio (channel : Byte) (s : State) : Host.Outcome State Fault Refusal :=
  if channelOk channel then
    .next (s.startOp.reply .ok (.priority (s.chanAt channel.toNat).prio))
  else refuse s

/-- `Deliver(c, h)` (R231). -/
def deliver (c : Nat) (h : Handle) (s : State) : Except Fault State :=
  match (s.chanAt c).kind with
  | .none => .ok s
  | .buffer => do
    let t ← refInc h s
    pure (t.emit (.deliverBuffer c (s.chanAt c).ctx h))
  | .bytes =>
    .ok (s.emit (.deliverBytes c (s.chanAt c).ctx
      (s.readRange h headerLen (s.buf h).payloadLength.toNat)))

/-- `Mirror(d, h)` (R232), for a debug channel `d`. -/
def mirror (d : Nat) (h : Handle) (s : State) : Except Fault State := deliver d h s

/-- `MuxProcessRx(h)` (R230). -/
def muxProcessRx (h : Handle) (s : State) : Except Fault State :=
  let ch := channelOf (s.readData h 2)
  if ch.toNat ≥ maxChannels then refDec h (s.emit (.rxNoReceiver ch))
  else
    match (s.chanAt ch.toNat).kind with
    | .none => refDec h (s.emit (.rxNoReceiver ch))
    | .buffer => do
      let t ← deliver ch.toNat h s
      let u ← mirror s.params.debugIn h t
      refDec h u
    | .bytes => do
      let t ← deliver ch.toNat h s
      refDec h t

end Sys2Proof.Machine
end

