-- ==== Sys2Proof/Machine/LinkRx.lean ====
section
/-! DEFINITION. The receive half of the link layer: `RXPUSH` (R171), the scan with its seven cases
(R175 to R183), `RXBYTES` (R186), and the receive state as a view of the state (R43, R187). -/

namespace Sys2Proof.Machine

/-- What one scan step answers (R176). -/
inductive ScanResult where
  | stop
  | again
deriving DecidableEq, Repr

/-- Case SKIP (R177). -/
def caseSkip (b0 : Byte) (s : State) : State :=
  ((s.ringRelease 1).countSkipped b0).clearExpectedOnDrop

/-- Case TOO-LONG (R179). -/
def caseTooLong (fl : Nat) (s : State) : State :=
  (((s.emit (.frameTooLong fl)).ringRelease 1).setLastValid false).clearExpectedOnDrop

/-- Case NEED-MORE (R180). -/
def caseNeedMore (fl : Nat) (s : State) : State := s.setExpected (byteOf fl)

/-- Case BAD-CHECKSUM (R181). -/
def caseBadChecksum (found computed : Byte) (s : State) : State :=
  (((s.emit (.checksumMismatch found computed)).ringRelease 1).setLastValid false).clearExpectedOnDrop

/-- The frame's bytes go from the ring into a buffer just taken (R183). -/
def State.fillFromRing (s : State) (h : Handle) (fl : Nat) : State :=
  ((s.writeRange h 0 (s.ringRange 0 fl)).setFrameLength h (byteOf fl)).setPayloadLength h (byteOf (fl - 4))

/-- The buffer part of `DeliverFrame(fl)` (R183): allocation, copy and dispatch, or `RxNoBuffer`. -/
def deliverIntoPool (fl : Nat) (s : State) : Except Fault State :=
  match s.firstFree with
  | .none => .ok (s.emit .rxNoBuffer)
  | .some h => muxProcessRx h ((s.takeBuf h).fillFromRing h fl)

/-- `DeliverFrame(fl)`, case DELIVER (R183). -/
def deliverFrame (fl : Nat) (s : State) : Except Fault State := do
  let t ← deliverIntoPool fl (s.setLastValid true)
  pure ((t.ringRelease fl).setExpected 0)

/-- `ScanStep()` (R176): the tests in the order of the source's steps. -/
def scanStep (s : State) : Except Fault (ScanResult × State) :=
  if s.avail < minScan ∨ s.avail < s.expected.toNat then .ok (.stop, s)
  else if s.ringRead 0 ≠ sofByte then .ok (.again, caseSkip (s.ringRead 0) s)
  else
    let t := s.sofFound
    let b1 := t.ringRead 1
    let fl := rxFrameLen b1
    if fl > maxFrame then .ok (.again, caseTooLong fl t)
    else if t.avail < fl then .ok (.stop, caseNeedMore fl t)
    else
      let c := checksum (t.ringRange 0 (fl - 1))
      let found := t.ringRead (fl - 1)
      if c ≠ found then .ok (.again, caseBadChecksum found c t)
      else do
        let u ← deliverFrame fl (t.sequenceCheck (seqOf b1))
        pure (.again, u)

/-- Scan steps until one answers STOP, at most `n` of them (R175). -/
def scanLoop : Nat → State → Except Fault State
  | 0, s => .ok s
  | n + 1, s =>
    match scanStep s with
    | .error f => .error f
    | .ok (.stop, t) => .ok t
    | .ok (.again, t) => scanLoop n t

/-- One invocation of the receive state machine: 256 steps are always enough (R185). -/
def scan (s : State) : Except Fault State := scanLoop 256 s

/-- `RXPUSH` (R171). -/
def execRxpush (data : List Byte) (s : State) : Host.Outcome State Fault Refusal :=
  if s.isActive then
    let r := s.startOp.ringPush data
    .next (r.2.reply .ok (.accepted r.1))
  else refuse s

/-- `RXSCAN` (R175). -/
def execRxscan (s : State) : Host.Outcome State Fault Refusal :=
  if s.isActive then
    complete (do
      let t ← scan s.startOp
      pure (t.reply .ok .none))
  else refuse s

/-- Bytes arrive at the inbound boundary (R186): the append, then one scan, as one operation. -/
def rxArrive (data : List Byte) (s : State) : Host.Outcome State Fault Refusal :=
  if s.isActive then
    let r := s.startOp.ringPush data
    complete (do
      let t ← scan r.2
      pure (t.reply .ok (.accepted r.1)))
  else refuse s

/-- `RXBYTES` (R186). -/
def execRxbytes (data : List Byte) (s : State) : Host.Outcome State Fault Refusal := rxArrive data s

/-- The receive states that exist between operations (R43, R187). -/
inductive RxPhase where
  | seekSof
  | haveSofNeedMoreBytes
deriving DecidableEq, Repr

/-- The receive state, a function of the stored state (R43). -/
def State.rxPhase (s : State) : RxPhase :=
  if s.expected ≠ 0 ∧ minScan ≤ s.avail ∧ s.ringRead 0 = sofByte ∧ s.avail < s.expected.toNat then
    .haveSofNeedMoreBytes
  else .seekSof

end Sys2Proof.Machine
end

