-- ==== Sys2Proof/Machine/LinkTx.lean ====
section
/-! DEFINITION. The transmit half of the link layer: `ASSEMBLE` (R200 to R204), `DRAIN` (R205 to
R210), and the multiplexer's `TRANSMIT` (R235), which runs an assembly and a mirror. -/

namespace Sys2Proof.Machine

/-! ## Drain -/

/-- Stamps the sequence bits and the checksum of a frame of `fl` bytes (R206). -/
def State.stampFrame (s : State) (h : Handle) (fl : Nat) : State :=
  let t := s.writeData h 1 (stampSeq (s.readData h 1) s.txSeq)
  t.writeData h (fl - 1) (checksum (t.readRange h 0 (fl - 1)))

/-- Hands the frame to the transport: the draw `SEND`, the `TxBytes` event and, on success, the next
sequence number (R206, R207). -/
def State.sendFrame (s : State) (h : Handle) (fl : Nat) : State :=
  let a := s.nextAnswer
  let t := s.afterDraw.emit (.txBytes fl (s.readRange h 0 fl) a)
  match a with
  | .ok => { t with txSeq := t.txSeq + 1 }
  | .fail => t.emit .transmitFailed

/-- One turn of the drain for a dequeued handle (R206). A frame length outside 8 to 96 is a fault of
the run (U5; notes/assumptions/22.md). -/
def drainOne (h : Handle) (s : State) : Except Fault State :=
  let fl := (s.buf h).frameLength.toNat
  if fl < minScan ∨ fl > maxFrame then .error .drainFrameLength
  else refDec h ((s.stampFrame h fl).sendFrame h fl)

/-- At most `fuel` turns, counted on from `n` (R206). -/
def drainLoop : Nat → Nat → State → Except Fault (Nat × State)
  | 0, n, s => .ok (n, s)
  | fuel + 1, n, s =>
    if s.txq.rd = s.txq.wr then .ok (n, s)
    else
      match qDeq s with
      | (.none, t) => .ok (n, t)
      | (.some h, t) =>
        match drainOne h t with
        | .error f => .error f
        | .ok u => drainLoop fuel (n + 1) u

/-- What `DrainBody` returns: whether the mutex was acquired, and how many buffers were dequeued. -/
structure DrainResult where
  locked : Bool
  count : Nat
deriving DecidableEq, Repr

/-- `DrainBody()` (R206). -/
def drainBody (s : State) : Except Fault (DrainResult × State) :=
  match s.nextAnswer with
  | .fail => .ok ({ locked := false, count := 0 }, s.afterDraw.emit .lockFailed)
  | .ok =>
    match drainLoop maxTxPerDrain 0 s.afterDraw with
    | .error f => .error f
    | .ok (n, t) => .ok ({ locked := true, count := n }, t)

/-- `DRAIN` (R205). -/
def execDrain (s : State) : Host.Outcome State Fault Refusal :=
  if s.isActive then
    complete (do
      let r ← drainBody s.startOp
      pure (r.2.reply (if r.1.locked then .ok else .lockNotAcquired) (.sent r.1.count)))
  else refuse s

/-! ## Assembly -/

/-- `WriteFrameHead(h, channel, priority, L, fl)` (R202): the header, the padding, the length. The
payload, the checksum byte and the bytes from `fl` on are left as they are. -/
def State.writeFrameHead (s : State) (h : Handle) (channel priority : Byte) (l fl : Nat) : State :=
  let t := s.writeRange h 0 [sofByte, assembledByte1 fl, assembledByte2 channel priority]
  (t.writeRange h (headerLen + l) (List.replicate (fl - 1 - (headerLen + l)) fillByte)).setFrameLength h (byteOf fl)

/-- `EnqueueRef(h)` (R203). -/
def enqueueRef (h : Handle) (s : State) : Except Fault (Status × State) := do
  let t ← refInc h s
  match qEnq h t with
  | (true, u) => pure (.ok, u)
  | (false, u) => do
    let v ← refDec h u
    pure (.resourceExhausted, v)

/-- The part of `ASSEMBLE` after its checks (R200): head, enqueue, and the triggered drain, which runs
whether or not the enqueue succeeded (R204). -/
def assembleBody (channel priority : Byte) (h : Handle) (s : State) : Except Fault (Status × State) := do
  let l := (s.buf h).payloadLength.toNat
  let t := s.writeFrameHead h channel priority l (frameLen s.gran l)
  let r ← enqueueRef h t
  let d ← drainBody r.2
  pure (r.1, d.2)

/-- `ASSEMBLE` (R200). -/
def execAssemble (channel priority : Byte) (h : Handle) (s : State) : Host.Outcome State Fault Refusal :=
  if s.isActive ∧ s.handleLive h ∧ (s.buf h).refcount < s.params.refMax ∧ channelOk channel ∧
      priorityOk priority ∧ payloadOk (s.buf h).payloadLength then
    complete (do
      let r ← assembleBody channel priority h s.startOp
      pure (r.2.reply r.1 .none))
  else refuse s

/-! ## Transmit -/

/-- `TRANSMIT` (R235). Its checks are those under which the inner `ASSEMBLE` refuses nothing, so the
inner one is its body. -/
def execTransmit (channel : Byte) (h : Handle) (s : State) : Host.Outcome State Fault Refusal :=
  if s.isActive ∧ s.handleLive h ∧ (s.buf h).refcount + 3 ≤ s.params.refMax ∧ channelOk channel ∧
      payloadOk (s.buf h).payloadLength then
    complete (do
      let t ← refInc h s.startOp
      let r ← assembleBody channel ((t.chanAt channel.toNat).prio.setWidth 8) h t
      let u ← mirror s.params.debugOut h r.2
      let v ← refDec h u
      pure (v.reply r.1 .none))
  else refuse s

end Sys2Proof.Machine
end

