-- ==== Sys2Proof/Machine/Pool.lean ====
section
/-! DEFINITION. The pool operations (R142 to R149). -/

namespace Sys2Proof.Machine

/-- `ALLOC` (R142). -/
def execAlloc (s : State) : Host.Outcome State Fault Refusal :=
  if s.isActive then
    match s.firstFree with
    | .some h => .next ((s.startOp.takeBuf h).reply .ok (.handle h))
    | .none => .next (s.startOp.reply .resourceExhausted .none)
  else refuse s

/-- `REFINC` (R143). -/
def execRefinc (h : Handle) (s : State) : Host.Outcome State Fault Refusal :=
  if s.isActive ∧ s.handleLive h ∧ (s.buf h).refcount < s.params.refMax then
    complete (do
      let t ← refInc h s.startOp
      pure (t.reply .ok .none))
  else refuse s

/-- `RELEASE` (R144). -/
def execRelease (h : Handle) (s : State) : Host.Outcome State Fault Refusal :=
  if s.isActive ∧ s.handleLive h then
    complete (do
      let t ← refDec h s.startOp
      pure (t.reply .ok .none))
  else refuse s

/-- `BUFWR` (R146). -/
def execBufwr (off val : Byte) (h : Handle) (s : State) : Host.Outcome State Fault Refusal :=
  if s.isActive ∧ s.handleLive h ∧ offsetOk off then
    .next ((s.startOp.writeData h off.toNat val).reply .ok .none)
  else refuse s

/-- `BUFRD` (R147). -/
def execBufrd (off : Byte) (h : Handle) (s : State) : Host.Outcome State Fault Refusal :=
  if s.isActive ∧ s.handleLive h ∧ offsetOk off then
    .next (s.startOp.reply .ok (.value (s.readData h off.toNat)))
  else refuse s

/-- `SETLEN` (R148). -/
def execSetlen (len : Byte) (h : Handle) (s : State) : Host.Outcome State Fault Refusal :=
  if s.isActive ∧ s.handleLive h ∧ lengthOk len then
    .next ((s.startOp.setPayloadLength h len).reply .ok .none)
  else refuse s

/-- `BUFINFO` (R149). -/
def execBufinfo (h : Handle) (s : State) : Host.Outcome State Fault Refusal :=
  if s.isActive ∧ s.handleLive h then
    .next (s.startOp.reply .ok
      (.info (s.buf h).frameLength (s.buf h).payloadLength (s.buf h).refcount))
  else refuse s

end Sys2Proof.Machine
end

