-- ==== Sys2Proof/Machine/Session.lean ====
section
/-! DEFINITION. The session operations: `INIT` (R250) and `FREEPOOL` (R145). -/

namespace Sys2Proof.Machine

/-- What a successful `INIT` writes (R250). Buffer data, ring bytes and slots become unspecified:
nothing is listed, and the new session number picks the free values. -/
def State.initSession (s : State) (g : Gran) : State :=
  { s with
    gran := g
    pool := List.replicate s.params.poolBlocks Buf.fresh
    txq := { slot := [], rd := 0, wr := 0 }
    ring := { buf := [], current := 0, next := 0 }
    expected := 0
    rxSeq := 0
    txSeq := 0
    lastValid := false
    skipped := 0
    ignoreSkipped := true
    life := .active
    session := s.session + 1 }

/-- `INIT` (R250). -/
def execInit (g : Byte) (s : State) : Host.Outcome State Fault Refusal :=
  if s.isActive then refuse s
  else
    match Gran.ofByte? g with
    | .none => refuse s
    | .some gr => .next ((s.startOp.initSession gr).reply .ok .none)

/-- `FREEPOOL` (R145). On success only `life` changes; what the session left is unobservable
(U10; notes/assumptions/20.md). -/
def execFreepool (s : State) : Host.Outcome State Fault Refusal :=
  if s.isActive then
    if s.outstanding = [] then .next ({ s.startOp with life := .closed }.reply .ok (.freed true))
    else .next ((s.startOp.emit (.poolOutstanding s.outstanding)).reply .ok (.freed false))
  else refuse s

end Sys2Proof.Machine
end

