-- ==== Sys2Proof/Machine/Wire.lean ====
section
/-! DEFINITION. The wire-frame patterns of the table (R90 to R93). They are no commands (R112): the
block meets them as bytes arriving at its inbound boundary, so each has the effect of `RXBYTES` with
those bytes (R186, R287). DESIGN CHOICE, notes/assumptions/16.md. -/

namespace Sys2Proof.Machine

/-- `FRAME.HEADER` (R90): bytes 0 to 2 arrive, byte 0 first (R62). -/
def execFrameHeader (x : BitVec 1) (service : BitVec 5) (seq : BitVec 2) (channel : BitVec 5)
    (priority : BitVec 3) (s : State) : Host.Outcome State Fault Refusal :=
  rxArrive (headerBytes x service seq channel priority) s

/-- `FRAME.SOF` (R90): the start-of-frame byte arrives. -/
def execFrameSof (s : State) : Host.Outcome State Fault Refusal := rxArrive [sofByte] s

/-- `FRAME.LENSEQ` (R92): frame byte 1 arrives. -/
def execFrameLenSeq (x : BitVec 1) (service : BitVec 5) (seq : BitVec 2) (s : State) :
    Host.Outcome State Fault Refusal :=
  rxArrive [lenSeqByte x service seq] s

/-- `FRAME.CHANPRIO` (R92): frame byte 2 arrives. -/
def execFrameChanPrio (channel : BitVec 5) (priority : BitVec 3) (s : State) :
    Host.Outcome State Fault Refusal :=
  rxArrive [chanPrioByte channel priority] s

/-- `FRAME.PAYLOAD` (R93): a payload or padding byte arrives. -/
def execFramePayload (d : Byte) (s : State) : Host.Outcome State Fault Refusal := rxArrive [d] s

/-- `FRAME.CHECKSUM` (R90): the last byte of a frame arrives. -/
def execFrameChecksum (k : Byte) (s : State) : Host.Outcome State Fault Refusal := rxArrive [k] s

end Sys2Proof.Machine
end

