-- ==== Sys2Proof/Machine/Dispatch.lean ====
section
/-! DEFINITION. One arm for each operation of the table (R110, R90). -/

namespace Sys2Proof.Machine

def exec (i : Instr) (s : State) : Host.Outcome State Fault Refusal :=
  match i with
  -- session
  | .init g => Sys2Proof.Machine.execInit g s
  | .freepool => Sys2Proof.Machine.execFreepool s
  -- checksum
  | .cscalc data => Sys2Proof.Machine.execCscalc data s
  | .cscheck expected data => Sys2Proof.Machine.execCscheck expected data s
  -- pool
  | .alloc => Sys2Proof.Machine.execAlloc s
  | .refinc h => Sys2Proof.Machine.execRefinc h s
  | .release h => Sys2Proof.Machine.execRelease h s
  | .bufwr off val h => Sys2Proof.Machine.execBufwr off val h s
  | .bufrd off h => Sys2Proof.Machine.execBufrd off h s
  | .setlen len h => Sys2Proof.Machine.execSetlen len h s
  | .bufinfo h => Sys2Proof.Machine.execBufinfo h s
  -- receive
  | .rxpush data => Sys2Proof.Machine.execRxpush data s
  | .rxscan => Sys2Proof.Machine.execRxscan s
  | .rxbytes data => Sys2Proof.Machine.execRxbytes data s
  -- transmit
  | .assemble channel priority h => Sys2Proof.Machine.execAssemble channel priority h s
  | .drain => Sys2Proof.Machine.execDrain s
  | .transmit channel h => Sys2Proof.Machine.execTransmit channel h s
  -- channel table
  | .config channel priority kind ctx => Sys2Proof.Machine.execConfig channel priority kind ctx s
  | .setprio channel value => Sys2Proof.Machine.execSetprio channel value s
  | .getprio channel => Sys2Proof.Machine.execGetprio channel s
  -- wire-frame patterns
  | .frameHeader x service seq channel priority => Sys2Proof.Machine.execFrameHeader x service seq channel priority s
  | .frameSof => Sys2Proof.Machine.execFrameSof s
  | .frameLenSeq x service seq => Sys2Proof.Machine.execFrameLenSeq x service seq s
  | .frameChanPrio channel priority => Sys2Proof.Machine.execFrameChanPrio channel priority s
  | .framePayload d => Sys2Proof.Machine.execFramePayload d s
  | .frameChecksum k => Sys2Proof.Machine.execFrameChecksum k s

end Sys2Proof.Machine
end

