-- ==== Sys2Proof/Machine/Step.lean ====
section
/-! DEFINITION. One step: the next issued request is taken, decoded and run to completion (R3, R10,
R74). A request that names no operation is answered `InvalidParameter` and changes nothing (R100,
R111). Where nothing is issued the block holds its state (R289). -/

namespace Sys2Proof.Machine

/-- One step of the block. -/
def step (s : State) : Host.Outcome State Fault Refusal :=
  match s.fetch with
  | .none => .next s
  | .some (r, t) =>
    match decode r with
    | .ok i => exec i t
    | .error _ => refuse t

/-- Places a table word where the next step fetches it (notes/assumptions/12.md). -/
def State.withFetchWord (s : State) (nbits w : Nat) : State := s.issueFirst (tableRequest nbits w)

end Sys2Proof.Machine
end

