-- ==== Sys2Proof/Safety.lean ====
section
/-! DEFINITION. The terms claims use: the invariants of a run, what two states share, what an operation
may answer, and when the environment keeps its obligation on references (R311). No meaning uses any
of these. -/

namespace Sys2Proof.Machine

/-! ## What two states share -/

/-- Buffer `h` reads in `t` as in `s`, in all four parts. -/
def SameBuffer (s t : State) (h : Handle) : Prop :=
  (t.buf h).refcount = (s.buf h).refcount ∧
  (t.buf h).frameLength = (s.buf h).frameLength ∧
  (t.buf h).payloadLength = (s.buf h).payloadLength ∧
  ∀ off, t.readData h off = s.readData h off

/-- Every buffer but `h` reads in `t` as in `s`. -/
def OtherBuffersSame (s t : State) (h : Handle) : Prop := ∀ k, k ≠ h → SameBuffer s t k

/-- `t` is `s` but for the buffers of the pool, the response and the events. -/
def OnlyPoolChanged (s t : State) : Prop :=
  t = { s with pool := t.pool, resp := t.resp, events := t.events } ∧ t.pool.length = s.pool.length

/-- The response of an operation. -/
def Responds (t : State) (status : Status) (result : Result) : Prop :=
  t.resp = some { status := status, result := result }

/-- The operation is refused: `InvalidParameter`, no event, nothing else changed (R264, R285). -/
def Refuses (i : Instr) (s : State) : Prop :=
  exec i s = .next { s with
    events := [], resp := some { status := .invalidParameter, result := .none } }

/-- What the transmit operations never touch: the receive side (R290). -/
def SameReceiveSide (s t : State) : Prop :=
  t.ring = s.ring ∧ t.expected = s.expected ∧ t.rxSeq = s.rxSeq ∧ t.lastValid = s.lastValid ∧
  t.skipped = s.skipped ∧ t.ignoreSkipped = s.ignoreSkipped

/-- What the receive operations never touch: the transmit side and its draws (R290). -/
def SameTransmitSide (s t : State) : Prop :=
  t.txq = s.txq ∧ t.txSeq = s.txSeq ∧ t.draws = s.draws ∧ t.freeDraws = s.freeDraws

/-- What only `INIT`, `FREEPOOL`, `CONFIG` and `SETPRIO` touch, and what no operation touches. -/
def SameConfiguration (s t : State) : Prop :=
  t.params = s.params ∧ t.life = s.life ∧ t.gran = s.gran ∧ t.chan = s.chan ∧
  t.pending = s.pending ∧ t.session = s.session

/-! ## Views -/

/-- The unread bytes of the ring, oldest first (R32, R66). -/
def State.unread (s : State) : List Byte := s.ringRange 0 s.avail

/-- The scan has nothing left to do: its next step stops and changes nothing (R175, R176). -/
def Suspended (s : State) : Prop := scanStep s = .ok (.stop, s)

/-- `ScanStep` repeated until it answers STOP (R175): the first state leads to the second. -/
inductive ScanRuns : State → State → Prop where
  /-- The step stops. -/
  | stop {s t : State} : scanStep s = .ok (.stop, t) → ScanRuns s t
  /-- The step asks for another one. -/
  | again {s t u : State} : scanStep s = .ok (.again, t) → ScanRuns t u → ScanRuns s u

/-- The events that a found `SOF` reports about the bytes dropped before it (R178). -/
def skippedReport (s : State) : List Event :=
  if s.skipped > 0 ∧ s.ignoreSkipped = false then [.skippedBytes s.skipped] else []

/-- The event of a sequence mismatch (R182). -/
def sequenceReport (s : State) (seq : BitVec 2) : List Event :=
  if seq ≠ s.rxSeq then [.sequenceMismatch s.rxSeq seq] else []

/-- The bytes at the scan position are a frame: `SOF`, a legal length, all of it present, and the
checksum right (R96); and the scan is not waiting for more (R176). -/
def FrameAtHead (s : State) (fl : Nat) : Prop :=
  minScan ≤ s.avail ∧ s.expected.toNat ≤ s.avail ∧ s.ringRead 0 = sofByte ∧
  fl = ((serviceLenOf (s.ringRead 1)).toNat + 2) * 4 ∧ fl ≤ maxFrame ∧ fl ≤ s.avail ∧
  checksum (s.ringRange 0 (fl - 1)) = s.ringRead (fl - 1)

/-- The bytes an operation brings to the inbound boundary before it scans: those of `RXBYTES`, none for
`RXSCAN`, and those of a wire pattern (notes/assumptions/16.md). -/
def arrivingBytes : Instr → Option (List Byte)
  | .rxscan => some []
  | .rxbytes data => some data
  | .frameHeader x service seq channel priority => some (headerBytes x service seq channel priority)
  | .frameSof => some [sofByte]
  | .frameLenSeq x service seq => some [lenSeqByte x service seq]
  | .frameChanPrio channel priority => some [chanPrioByte channel priority]
  | .framePayload d => some [d]
  | .frameChecksum k => some [k]
  | .init _ => none
  | .freepool => none
  | .cscalc _ => none
  | .cscheck _ _ => none
  | .alloc => none
  | .refinc _ => none
  | .release _ => none
  | .bufwr _ _ _ => none
  | .bufrd _ _ => none
  | .setlen _ _ => none
  | .bufinfo _ => none
  | .rxpush _ => none
  | .assemble _ _ _ => none
  | .drain => none
  | .transmit _ _ => none
  | .config _ _ _ _ => none
  | .setprio _ _ => none
  | .getprio _ => none

/-- The response of an operation that scans: `RXSCAN` returns no value, the others `accepted`. -/
def arrivalResult (i : Instr) (n : Nat) : Result :=
  match i with
  | .rxscan => .none
  | _ => .accepted n

/-- The operations that are legal only while a session exists (R285). `INIT` is the one that is legal only
while none does; the wire patterns stand in no row of R285 and behave as `RXBYTES`. -/
def needsSession : Instr → Bool
  | .freepool => true
  | .alloc => true
  | .refinc _ => true
  | .release _ => true
  | .bufwr _ _ _ => true
  | .bufrd _ _ => true
  | .setlen _ _ => true
  | .bufinfo _ => true
  | .rxpush _ => true
  | .rxscan => true
  | .rxbytes _ => true
  | .assemble _ _ _ => true
  | .drain => true
  | .transmit _ _ => true
  | _ => false

/-- The buffer an operation names (R141). -/
def namedHandle : Instr → Option Handle
  | .refinc h => some h
  | .release h => some h
  | .bufwr _ _ h => some h
  | .bufrd _ h => some h
  | .setlen _ h => some h
  | .bufinfo h => some h
  | .assemble _ _ h => some h
  | .transmit _ h => some h
  | _ => none

/-- The transmit operations, the only ones that draw (R263). -/
def isTransmit : Instr → Bool
  | .assemble _ _ _ => true
  | .drain => true
  | .transmit _ _ => true
  | _ => false

/-- The operations that write the channel table (R40, R42). -/
def writesChannels : Instr → Bool
  | .config _ _ _ _ => true
  | .setprio _ _ => true
  | _ => false

/-- The statuses an operation can return (R261). -/
def allowedStatuses : Instr → List Status
  | .init _ => [.ok, .invalidParameter]
  | .freepool => [.ok, .invalidParameter]
  | .cscalc _ => [.ok, .invalidParameter]
  | .cscheck _ _ => [.ok, .checksumMismatch, .invalidParameter]
  | .alloc => [.ok, .resourceExhausted, .invalidParameter]
  | .refinc _ => [.ok, .invalidParameter]
  | .release _ => [.ok, .invalidParameter]
  | .bufwr _ _ _ => [.ok, .invalidParameter]
  | .bufrd _ _ => [.ok, .invalidParameter]
  | .setlen _ _ => [.ok, .invalidParameter]
  | .bufinfo _ => [.ok, .invalidParameter]
  | .rxpush _ => [.ok, .invalidParameter]
  | .rxscan => [.ok, .invalidParameter]
  | .rxbytes _ => [.ok, .invalidParameter]
  | .assemble _ _ _ => [.ok, .resourceExhausted, .invalidParameter]
  | .drain => [.ok, .lockNotAcquired, .invalidParameter]
  | .transmit _ _ => [.ok, .resourceExhausted, .invalidParameter]
  | .config _ _ _ _ => [.ok, .invalidParameter]
  | .setprio _ _ => [.ok, .invalidParameter]
  | .getprio _ => [.ok, .invalidParameter]
  | .frameHeader _ _ _ _ _ => [.ok, .invalidParameter]
  | .frameSof => [.ok, .invalidParameter]
  | .frameLenSeq _ _ _ => [.ok, .invalidParameter]
  | .frameChanPrio _ _ => [.ok, .invalidParameter]
  | .framePayload _ => [.ok, .invalidParameter]
  | .frameChecksum _ => [.ok, .invalidParameter]

/-- The state after a found `SOF` (R178): the run of dropped bytes is reported unless it was quiet, and the
counter and the flag are re-armed. -/
def afterSof (s : State) : State :=
  { s with
    skipped := 0
    ignoreSkipped := if s.skipped > 0 then true else s.ignoreSkipped
    events := s.events ++ skippedReport s }

/-- What a one-byte drop leaves in `expected` (R177; D12). -/
def expectedAfterDrop (s : State) : BitVec 8 :=
  if s.params.clearExpectedOnResync = true then 0 else s.expected

/-- The bytes are one frame as R96 accepts it: `SOF`, a length of 8 to 96 that byte 1 gives, and the
checksum of all bytes but the last in the last. -/
def ValidFrame (f : List Byte) : Prop :=
  ∃ b1 rest k, f = sofByte :: b1 :: rest ++ [k] ∧
    f.length = ((serviceLenOf b1).toNat + 2) * 4 ∧ f.length ≤ maxFrame ∧
    checksum (sofByte :: b1 :: rest) = k

/-- The frame that carries a payload: header, payload, `0xFF` padding, and a last byte that brings the sum
of all bytes to 0 modulo 256 (R90, R92, R93, R130). -/
def CarriesPayload (f : List Byte) (channel priority : Nat) (seq : BitVec 2) (payload : List Byte) : Prop :=
  ∃ k, f = [0x05, byteOf ((f.length / 4 - 2) * 4 + seq.toNat), byteOf (channel * 8 + priority)] ++ payload ++
      List.replicate (f.length - 4 - payload.length) 0xFF ++ [k] ∧
    (f.map BitVec.toNat).sum % 256 = 0

/-- `n` is the least multiple of the granularity that holds header, payload and checksum (R93, R95). -/
def LeastFrameLength (n g payloadLength : Nat) : Prop :=
  n % g = 0 ∧ payloadLength + 4 ≤ n ∧ n < payloadLength + 4 + g

/-- The block is idle on the receive side: nothing unread, nothing awaited, nothing skipped. -/
def ReceiveIdle (s : State) : Prop := s.avail = 0 ∧ s.expected = 0 ∧ s.skipped = 0

/-- `h` is the lowest-numbered free buffer, the one that R142 takes. -/
def LowestFree (s : State) (h : Handle) : Prop :=
  h.toNat < s.params.poolBlocks ∧ (s.buf h).refcount = 0 ∧
  ∀ k : Handle, k.toNat < h.toNat → (s.buf k).refcount ≠ 0

/-- The buffer holds a received frame of `fl` bytes, or did before the scrub: both lengths (R183; D36). -/
def ReceivedLengths (t : State) (h : Handle) (fl : Nat) : Prop :=
  (t.buf h).frameLength.toNat = fl ∧ (t.buf h).payloadLength.toNat = fl - 4

/-- The buffer is free again and scrubbed (R151, R270). -/
def FreeAndScrubbed (t : State) (h : Handle) : Prop :=
  (t.buf h).refcount = 0 ∧ ∀ off, off < 96 → t.readData h off = t.params.scrubByte

/-- The answers the environment gives to the next `n` draws, in the order they are asked for (R263). -/
def State.nextAnswers : Nat → State → List Answer
  | 0, _ => []
  | n + 1, s => s.nextAnswer :: State.nextAnswers n s.afterDraw

/-- The frame that the drain makes of buffer `h` with sequence value `q` (R206): the buffer's bytes up to
`frame_length`, with bits 1:0 of byte 1 replaced and the checksum of all but the last byte in the last. -/
def State.stampedFrame (s : State) (h : Handle) (q : BitVec 2) : List Byte :=
  let body := [s.readData h 0, (s.readData h 1 &&& 0xFC) + q.setWidth 8] ++
    s.readRange h 2 ((s.buf h).frameLength.toNat - 3)
  body ++ [checksum body]

/-- The events of a drain that sends the given handles in this order and gets the given answers, from
sequence value `q` on: only an `ok` advances it (R206, R207, R210). -/
def State.transmissions (s : State) : BitVec 2 → List Handle → List Answer → List Event
  | q, h :: hs, .ok :: as =>
    .txBytes (s.buf h).frameLength.toNat (s.stampedFrame h q) .ok :: s.transmissions (q + 1) hs as
  | q, h :: hs, .fail :: as =>
    .txBytes (s.buf h).frameLength.toNat (s.stampedFrame h q) .fail :: .transmitFailed ::
      s.transmissions q hs as
  | _, _, _ => []

/-- An issued transmission passes the checks of `ASSEMBLE` (R200). -/
def MayAssemble (s : State) (channel priority : Byte) (h : Handle) : Prop :=
  s.life = .active ∧ h.toNat < s.params.poolBlocks ∧ (s.buf h).refcount ≠ 0 ∧
  (s.buf h).refcount < s.params.refMax ∧ channel.toNat < 21 ∧ priority.toNat ≤ 7 ∧
  1 ≤ (s.buf h).payloadLength.toNat ∧ (s.buf h).payloadLength.toNat ≤ 92

/-- An issued transmission passes the checks of `TRANSMIT` (R235). -/
def MayTransmit (s : State) (channel : Byte) (h : Handle) : Prop :=
  s.life = .active ∧ h.toNat < s.params.poolBlocks ∧ (s.buf h).refcount ≠ 0 ∧
  (s.buf h).refcount + 3 ≤ s.params.refMax ∧ channel.toNat < 21 ∧
  1 ≤ (s.buf h).payloadLength.toNat ∧ (s.buf h).payloadLength.toNat ≤ 92

/-- The payload of a buffer: `payload_length` bytes from offset 3 (R93). -/
def State.payload (s : State) (h : Handle) : List Byte := s.readRange h 3 (s.buf h).payloadLength.toNat

/-- The delivery that the mirror to the debug-output channel makes of buffer `h` (R231, R232, R235). -/
def mirrorReport (s : State) (h : Handle) : List Event :=
  let d := s.chanAt s.params.debugOut
  match d.kind with
  | .none => []
  | .buffer => [.deliverBuffer s.params.debugOut d.ctx h]
  | .bytes => [.deliverBytes s.params.debugOut d.ctx (s.payload h)]

/-- The references that the mirror to the debug-output channel hands out (R231, R236). -/
def mirrorReferences (s : State) : Nat := if (s.chanAt s.params.debugOut).kind = .buffer then 1 else 0

/-- The frame head that assembly writes (R202): all bytes of a frame of `n` bytes but the checksum, with
sequence bits 0. -/
def assembledHead (n channel priority : Nat) (payload : List Byte) : List Byte :=
  [0x05, byteOf ((n / 4 - 2) * 4), byteOf (channel * 8 + priority)] ++ payload ++
    List.replicate (n - 4 - payload.length) 0xFF

/-- The command word with the given values in its fields, by their places: `OP` 7:0, `A` 15:8, `B` 23:16,
`H` 39:24, `X` 63:40 (R100). -/
def fieldsWord (op a b h x : Nat) : CommandWord :=
  BitVec.ofNat 64 (op + a * 0x100 + b * 0x10000 + h * 0x1000000 + x * 0x10000000000)

/-- The bits a command word must leave zero, by operation code: `must_be_zero_mask` of
spec/opcode_table.json (R112). -/
def mustBeZero : List (Byte × CommandWord) :=
  [(0x01, 0xFFFFFFFFFFFF0000), (0x02, 0xFFFFFFFFFFFFFF00), (0x10, 0xFFFFFFFFFFFF0000),
   (0x11, 0xFFFFFFFFFF000000), (0x20, 0xFFFFFFFFFFFFFF00), (0x21, 0xFFFFFF0000FFFF00),
   (0x22, 0xFFFFFF0000FFFF00), (0x23, 0xFFFFFF0000000000), (0x24, 0xFFFFFF0000FF0000),
   (0x25, 0xFFFFFF0000FF0000), (0x26, 0xFFFFFF0000FFFF00), (0x30, 0xFFFFFFFFFFFF0000),
   (0x31, 0xFFFFFFFFFFFFFF00), (0x32, 0xFFFFFFFFFFFF0000), (0x40, 0xFFFFFF0000000000),
   (0x41, 0xFFFFFFFFFFFFFF00), (0x42, 0xFFFFFF0000FF0000), (0x50, 0x000000FFFFC80000),
   (0x51, 0xFFFFFFFFFF000000), (0x52, 0xFFFFFFFFFFFF0000)]

/-! ## Invariants -/

/-- The storage keeps its canonical form and its bounds (R60, R65). -/
def StorageInv (s : State) : Prop :=
  s.params.wf ∧
  (∀ b ∈ s.pool, Memory.wf b.data ∧ Store.below maxFrame b.data) ∧
  Memory.wf s.ring.buf ∧ Store.below ringSize s.ring.buf ∧
  Store.wf s.txq.slot ∧ Store.below s.params.queueDepth s.txq.slot

/-- The pool and the table have their sizes, and a buffer's fields their legal values (R24, R40). -/
def PoolInv (s : State) : Prop :=
  s.params.wf ∧ s.chan.length = maxChannels ∧
  (s.life = .active → s.pool.length = s.params.poolBlocks) ∧
  ∀ b ∈ s.pool, b.refcount ≤ s.params.refMax ∧ b.payloadLength.toNat ≤ maxPayload ∧
    (b.frameLength = 0 ∨
      8 ≤ b.frameLength.toNat ∧ b.frameLength.toNat ≤ maxFrame ∧ b.frameLength.toNat % 4 = 0)

/-- The queue's indices are in range, it holds at most `TXQ_CAP` handles, and every queued slot was
written with the handle of a buffer (R28 to R30). -/
def QueueInv (s : State) : Prop :=
  s.params.wf ∧ s.txq.rd < 2 ^ s.params.idxW ∧ s.txq.wr < 2 ^ s.params.idxW ∧
  s.queueCount ≤ s.params.queueDepth ∧
  ∀ i < s.queueCount, ∃ h, Store.read? s.txq.slot ((s.txq.rd + i) % s.params.queueDepth) = some h ∧
    h.toNat < s.params.poolBlocks

/-- `expected` has a legal value (R34), and every unread ring byte was written (R31). -/
def RingInv (s : State) : Prop :=
  (s.expected = 0 ∨ 12 ≤ s.expected.toNat ∧ s.expected.toNat ≤ maxFrame ∧ s.expected.toNat % 4 = 0) ∧
  ∀ i < s.avail, (Store.read? s.ring.buf (s.ring.current + BitVec.ofNat 8 i).toNat).isSome = true

/-- Every queue entry stands for a reference to a buffer that holds a frame (R145, R161, R203): the
part of R311 that concerns the block's own reference. -/
def QueueOwnsItsEntries (s : State) : Prop :=
  PoolInv s ∧ QueueInv s ∧
  ∀ h : Handle, s.queued.count h ≤ (s.buf h).refcount ∧
    (h ∈ s.queued → minScan ≤ (s.buf h).frameLength.toNat ∧ (s.buf h).frameLength.toNat ≤ maxFrame)

/-- The issuer of a `RELEASE` holds the reference it gives back (R311): the buffer has more references
than the queue's own. -/
def ReleasesWhatItHolds (i : Instr) (s : State) : Prop :=
  ∀ h, i = .release h → (s.buf h).refcount ≠ 0 → s.queued.count h < (s.buf h).refcount

end Sys2Proof.Machine
end

