-- ==== Sys2Proof/Certificates/Slice0/Obligations.lean ====
section
/-! DEFINITION. The statements for the provers, in the order of OBLIGATIONS.json. A docstring names the
rule a statement formalises, or says that it states the model's choice. -/

open Sys2Proof Sys2Proof.Machine

/-! ## Encoding and the step -/

/-- Decoding the request of a well-formed operation gives the operation back (R100, R101, R110, R90). -/
def Obligations.DecodeInvertsEncode : Prop :=
  ∀ i : Instr, i.wellFormed = true → decode (encode i) = .ok i

/-- A request that decodes is the one encoding of the operation it names (R100, R112, R90). -/
def Obligations.EncodeInvertsDecode : Prop :=
  ∀ (r : Request) (i : Instr), decode r = .ok i → encode i = r ∧ i.wellFormed = true

/-- R111: a command with a reserved `OP` is answered `InvalidParameter` and changes nothing. -/
def Obligations.ReservedOpAnswersInvalidParameter : Prop :=
  ∀ (s : State) (w : CommandWord) (data : List Byte) (rest : List Request),
    s.pending = .command w data :: rest →
    (w.extractLsb' 0 8).toNat ∉ [0x01, 0x02, 0x10, 0x11, 0x20, 0x21, 0x22, 0x23, 0x24, 0x25, 0x26, 0x30, 0x31,
      0x32, 0x40, 0x41, 0x42, 0x50, 0x51, 0x52] →
    step s = .next { s with
      pending := rest, events := [], resp := some { status := .invalidParameter, result := .none } }

/-- R100, R112: a command word with a bit set that its row's `must_be_zero_mask` demands to be zero is
answered `InvalidParameter` and changes nothing. -/
def Obligations.UnusedFieldAnswersInvalidParameter : Prop :=
  ∀ (s : State) (w mask : CommandWord) (op : Byte) (data : List Byte) (rest : List Request),
    s.pending = .command w data :: rest → (op, mask) ∈ mustBeZero → w.extractLsb' 0 8 = op → w &&& mask ≠ 0 →
    step s = .next { s with
      pending := rest, events := [], resp := some { status := .invalidParameter, result := .none } }

/-- A step takes the oldest issued request and runs the operation it decodes to (R3, R10, R74); the
request list is the model's, notes/assumptions/12.md. -/
def Obligations.StepRunsDecodedOperation : Prop :=
  ∀ (s : State) (r : Request) (rest : List Request) (i : Instr),
    s.pending = r :: rest → decode r = .ok i → step s = exec i { s with pending := rest }

/-- Where nothing is issued, the block holds its state (R289; notes/assumptions/13.md). -/
def Obligations.StepHoldsWithoutRequest : Prop :=
  ∀ s : State, s.pending = [] → step s = .next s

/-- Words written out by hand from R100 and R110, and frame bytes from R90, decode to what they stand
for. -/
def Obligations.WrittenWordsDecode : Prop :=
  decode (.command 0x0000000000000801 []) = .ok (.init 8) ∧
  decode (.command 0x0000000000BB0711 [1, 2, 3, 4, 5, 6, 7]) = .ok (.cscheck 0xBB [1, 2, 3, 4, 5, 6, 7]) ∧
  decode (.command 0x0000000000DE0323 []) = .ok (.bufwr 3 0xDE 0) ∧
  decode (.command 0x0000000000000232 [0xAA, 0x05]) = .ok (.rxbytes [0xAA, 0x05]) ∧
  decode (.command 0x0000000001010240 []) = .ok (.assemble 2 1 1) ∧
  decode (.command 0xABCDEF0000171450 []) = .ok (.config 20 7 1 0xABCDEF) ∧
  decode (.wire .header [0x05, 0x84, 0x0A]) = .ok (.frameHeader 1 1 0 1 2) ∧
  decode (.wire .lenSeq [0x5B]) = .ok (.frameLenSeq 0 22 3)

/-- R100, R101, R110: for every row of the table and every value of its operands, the word with the row's
`OP` and the operands in their fields, all other fields zero, decodes to that operation on those operands. -/
def Obligations.EveryRowDecodesFromItsFields : Prop :=
  ∀ (a b : Byte) (h : Handle) (x : Ctx) (p : BitVec 3) (k : BitVec 2) (data : List Byte), data.length = a.toNat →
    decode (.command (fieldsWord 0x01 a.toNat 0 0 0) []) = .ok (.init a) ∧
    decode (.command (fieldsWord 0x02 0 0 0 0) []) = .ok .freepool ∧
    decode (.command (fieldsWord 0x10 a.toNat 0 0 0) data) = .ok (.cscalc data) ∧
    decode (.command (fieldsWord 0x11 a.toNat b.toNat 0 0) data) = .ok (.cscheck b data) ∧
    decode (.command (fieldsWord 0x20 0 0 0 0) []) = .ok .alloc ∧
    decode (.command (fieldsWord 0x21 0 0 h.toNat 0) []) = .ok (.refinc h) ∧
    decode (.command (fieldsWord 0x22 0 0 h.toNat 0) []) = .ok (.release h) ∧
    decode (.command (fieldsWord 0x23 a.toNat b.toNat h.toNat 0) []) = .ok (.bufwr a b h) ∧
    decode (.command (fieldsWord 0x24 a.toNat 0 h.toNat 0) []) = .ok (.bufrd a h) ∧
    decode (.command (fieldsWord 0x25 a.toNat 0 h.toNat 0) []) = .ok (.setlen a h) ∧
    decode (.command (fieldsWord 0x26 0 0 h.toNat 0) []) = .ok (.bufinfo h) ∧
    decode (.command (fieldsWord 0x30 a.toNat 0 0 0) data) = .ok (.rxpush data) ∧
    decode (.command (fieldsWord 0x31 0 0 0 0) []) = .ok .rxscan ∧
    decode (.command (fieldsWord 0x32 a.toNat 0 0 0) data) = .ok (.rxbytes data) ∧
    decode (.command (fieldsWord 0x40 a.toNat b.toNat h.toNat 0) []) = .ok (.assemble a b h) ∧
    decode (.command (fieldsWord 0x41 0 0 0 0) []) = .ok .drain ∧
    decode (.command (fieldsWord 0x42 a.toNat 0 h.toNat 0) []) = .ok (.transmit a h) ∧
    decode (.command (fieldsWord 0x50 a.toNat (p.toNat + 16 * k.toNat) 0 x.toNat) []) = .ok (.config a p k x) ∧
    decode (.command (fieldsWord 0x51 a.toNat b.toNat 0 0) []) = .ok (.setprio a b) ∧
    decode (.command (fieldsWord 0x52 a.toNat 0 0 0) []) = .ok (.getprio a)

/-! ## Checksum -/

/-- R131. -/
def Obligations.CscalcReturnsTheChecksum : Prop :=
  ∀ (data : List Byte) (s : State),
    (data = [] → Refuses (.cscalc data) s) ∧
    (data ≠ [] → exec (.cscalc data) s = .next { s with
      events := []
      resp := some ⟨.ok, .checksum (byteOf ((data.map (fun b => (0x100 - b.toNat) % 256)).sum % 256))⟩ })

/-- R132. -/
def Obligations.CscheckComparesAndReturnsComputed : Prop :=
  ∀ (expected c : Byte) (data : List Byte) (s : State),
    (data = [] → Refuses (.cscheck expected data) s) ∧
    (data ≠ [] → c = byteOf ((data.map (fun b => (0x100 - b.toNat) % 256)).sum % 256) →
      exec (.cscheck expected data) s = .next { s with
        events := []
        resp := some { status := if c = expected then .ok else .checksumMismatch, result := .computed c } })

/-- R130, R133: the checksum is the sum of the bytes' negations, which is the two's complement of the 8-bit
sum; a frame with its checksum sums to 0; the order of the bytes does not matter; a change of exactly one byte
always changes the result, and opposite changes to two bytes cancel. -/
def Obligations.ChecksumIsTwosComplementSum : Prop :=
  ∀ p : List Byte,
    checksum p = byteOf ((p.map (fun b => (0x100 - b.toNat) % 256)).sum % 256) ∧
    checksum p = -(p.foldr (· + ·) 0) ∧
    ((p ++ [checksum p]).map BitVec.toNat).sum % 256 = 0 ∧
    (∀ q : List Byte, p.Perm q → checksum p = checksum q) ∧
    (∀ (q : List Byte) (b c : Byte), b ≠ c → checksum (p ++ b :: q) ≠ checksum (p ++ c :: q)) ∧
    ∀ (q r : List Byte) (b c d : Byte),
      checksum (p ++ (b + d) :: q ++ (c - d) :: r) = checksum (p ++ b :: q ++ c :: r)

/-! ## Reset and session -/

/-- R41, R300: hardware reset leaves `UNINIT`, no receiver, context 0 and `PRIO_RESET`, for every build,
and emits nothing. -/
def Obligations.ResetLeavesUninitAndChannelTable : Prop :=
  State.reset = State.resetWith Params.reference ∧ Params.reference.wf ∧
  ∀ (p : Params) (c : Nat), p.wf → c < 21 →
    (State.resetWith p).params = p ∧ (State.resetWith p).life = .uninit ∧ (State.resetWith p).events = [] ∧
    (State.resetWith p).chan.length = 21 ∧
    ((State.resetWith p).chanAt c).kind = .none ∧ ((State.resetWith p).chanAt c).ctx = 0 ∧
    p.prioReset[c]? = some ((State.resetWith p).chanAt c).prio

/-- R250. The contents of buffer data, slots and ring are left open (R25, R28, R31). -/
def Obligations.InitBuildsSession : Prop :=
  ∀ (g : Byte) (s : State),
    ((s.life = .active ∨ g ≠ 4 ∧ g ≠ 8 ∧ g ≠ 16 ∧ g ≠ 32) → Refuses (.init g) s) ∧
    (s.life ≠ .active → (g = 4 ∨ g = 8 ∨ g = 16 ∨ g = 32) →
      ∃ t, exec (.init g) s = .next t ∧ Responds t .ok .none ∧ t.events = [] ∧
        t.life = .active ∧ t.gran.bytes = g.toNat ∧
        t.pool.length = s.params.poolBlocks ∧
        (∀ h : Handle, h.toNat < s.params.poolBlocks →
          (t.buf h).refcount = 0 ∧ (t.buf h).frameLength = 0 ∧ (t.buf h).payloadLength = 0) ∧
        t.txq.rd = 0 ∧ t.txq.wr = 0 ∧ t.ring.current = 0 ∧ t.ring.next = 0 ∧ t.expected = 0 ∧
        t.rxSeq = 0 ∧ t.txSeq = 0 ∧ t.lastValid = false ∧ t.skipped = 0 ∧ t.ignoreSkipped = true ∧
        t.chan = s.chan ∧ t.params = s.params ∧ t.pending = s.pending ∧ t.draws = s.draws ∧
        t.freeDraws = s.freeDraws)

/-- R145: the status, the value, the events and `life`. That a successful `FREEPOOL` leaves every other field as
it was, the session's among them, is the model's choice, notes/assumptions/20.md: by R145 and R301 that state
ceases to exist and cannot be observed. -/
def Obligations.FreepoolTearsDownOrReports : Prop :=
  ∀ s : State, PoolInv s →
    (s.life ≠ .active → Refuses .freepool s) ∧
    (s.life = .active → (∀ h : Handle, h.toNat < s.params.poolBlocks → (s.buf h).refcount = 0) →
      exec .freepool s = .next { s with
        life := .closed, events := [], resp := some { status := .ok, result := .freed true } }) ∧
    (s.life = .active → (∃ h : Handle, h.toNat < s.params.poolBlocks ∧ (s.buf h).refcount ≠ 0) →
      ∃ out : List Handle,
        exec .freepool s = .next { s with
          events := [.poolOutstanding out], resp := some { status := .ok, result := .freed false } } ∧
        out.Pairwise (fun a b => a.toNat < b.toNat) ∧
        ∀ h : Handle, h ∈ out ↔ h.toNat < s.params.poolBlocks ∧ (s.buf h).refcount ≠ 0)

/-- The table of R285: outside a session, every operation that needs one is refused and changes nothing (R140
for the pool's operations, R170 for the receive operations, R200, R205 and R235 for the transmit operations). -/
def Obligations.SessionOperationsRefusedOutsideActive : Prop :=
  ∀ (i : Instr) (s : State), needsSession i = true → s.life ≠ .active → Refuses i s

/-- R251: `life` is `UNINIT` after a hardware reset; `INIT` with a legal granularity makes it `ACTIVE` outside a
session; `FREEPOOL` closes a session exactly when every reference count is 0; nothing else changes it. -/
def Obligations.LifeChangesOnlyByInitAndFreepool : Prop :=
  (∀ s : State, s.hardwareReset.life = .uninit) ∧
  ∀ s : State, PoolInv s →
    (∀ g : Byte, s.life ≠ .active → (g = 4 ∨ g = 8 ∨ g = 16 ∨ g = 32) →
      ∃ t, exec (.init g) s = .next t ∧ t.life = .active) ∧
    (s.life = .active → ∃ t, exec .freepool s = .next t ∧
      ((∀ h : Handle, h.toNat < s.params.poolBlocks → (s.buf h).refcount = 0) → t.life = .closed) ∧
      ((∃ h : Handle, h.toNat < s.params.poolBlocks ∧ (s.buf h).refcount ≠ 0) → t.life = .active)) ∧
    ∀ (i : Instr) (t : State), exec i s = .next t →
      t.life = s.life ∨
      (∃ g, i = .init g ∧ (g = 4 ∨ g = 8 ∨ g = 16 ∨ g = 32)) ∧ s.life ≠ .active ∧ t.life = .active ∨
      i = .freepool ∧ s.life = .active ∧ t.life = .closed ∧
        ∀ h : Handle, h.toNat < s.params.poolBlocks → (s.buf h).refcount = 0

/-! ## Buffer pool -/

/-- R141: an operation that names a handle out of range, or of a free buffer, is refused and changes
nothing. -/
def Obligations.HandleCheckRefuses : Prop :=
  ∀ (i : Instr) (h : Handle) (s : State), namedHandle i = some h →
    (s.params.poolBlocks ≤ h.toNat ∨ (s.buf h).refcount = 0) → Refuses i s

/-- R142. -/
def Obligations.AllocTakesLowestFreeBuffer : Prop :=
  ∀ s : State, PoolInv s → s.life = .active →
    (∀ h : Handle, h.toNat < s.params.poolBlocks → (s.buf h).refcount = 0 →
      (∀ k : Handle, k.toNat < h.toNat → (s.buf k).refcount ≠ 0) →
      ∃ t, exec .alloc s = .next t ∧ Responds t .ok (.handle h) ∧ t.events = [] ∧ OnlyPoolChanged s t ∧
        (t.buf h).refcount = 1 ∧ (t.buf h).frameLength = 0 ∧ (t.buf h).payloadLength = 0 ∧
        (∀ off, t.readData h off = s.readData h off) ∧ OtherBuffersSame s t h) ∧
    ((∀ h : Handle, h.toNat < s.params.poolBlocks → (s.buf h).refcount ≠ 0) →
      exec .alloc s = .next { s with
        events := [], resp := some { status := .resourceExhausted, result := .none } })

/-- R143. -/
def Obligations.RefincAddsOneReference : Prop :=
  ∀ (h : Handle) (s : State), s.life = .active → h.toNat < s.params.poolBlocks → (s.buf h).refcount ≠ 0 →
    ((s.buf h).refcount < s.params.refMax →
      ∃ t, exec (.refinc h) s = .next t ∧ Responds t .ok .none ∧ t.events = [] ∧ OnlyPoolChanged s t ∧
        (t.buf h).refcount = (s.buf h).refcount + 1 ∧
        (t.buf h).frameLength = (s.buf h).frameLength ∧ (t.buf h).payloadLength = (s.buf h).payloadLength ∧
        (∀ off, t.readData h off = s.readData h off) ∧ OtherBuffersSame s t h) ∧
    ((s.buf h).refcount = s.params.refMax → Refuses (.refinc h) s)

/-- R144, R151: a release takes one reference away; at 0 all 96 data bytes become `SCRUB_BYTE` and the
lengths keep their values. -/
def Obligations.ReleaseDropsOneReferenceAndScrubs : Prop :=
  ∀ (h : Handle) (s : State), s.life = .active → h.toNat < s.params.poolBlocks → (s.buf h).refcount ≠ 0 →
    ∃ t, exec (.release h) s = .next t ∧ Responds t .ok .none ∧ t.events = [] ∧ OnlyPoolChanged s t ∧
      (t.buf h).refcount + 1 = (s.buf h).refcount ∧
      (t.buf h).frameLength = (s.buf h).frameLength ∧ (t.buf h).payloadLength = (s.buf h).payloadLength ∧
      ((t.buf h).refcount ≠ 0 → ∀ off, t.readData h off = s.readData h off) ∧
      ((t.buf h).refcount = 0 → ∀ off, off < 96 → t.readData h off = s.params.scrubByte) ∧
      OtherBuffersSame s t h

/-- R146. -/
def Obligations.BufwrWritesOneByte : Prop :=
  ∀ (off val : Byte) (h : Handle) (s : State),
    s.life = .active → h.toNat < s.params.poolBlocks → (s.buf h).refcount ≠ 0 →
    (off.toNat ≤ 95 →
      ∃ t, exec (.bufwr off val h) s = .next t ∧ Responds t .ok .none ∧ t.events = [] ∧ OnlyPoolChanged s t ∧
        t.readData h off.toNat = val ∧ (∀ o, o ≠ off.toNat → t.readData h o = s.readData h o) ∧
        (t.buf h).refcount = (s.buf h).refcount ∧
        (t.buf h).frameLength = (s.buf h).frameLength ∧ (t.buf h).payloadLength = (s.buf h).payloadLength ∧
        OtherBuffersSame s t h) ∧
    (95 < off.toNat → Refuses (.bufwr off val h) s)

/-- R147. -/
def Obligations.BufrdReturnsTheByte : Prop :=
  ∀ (off : Byte) (h : Handle) (s : State),
    s.life = .active → h.toNat < s.params.poolBlocks → (s.buf h).refcount ≠ 0 →
    (off.toNat ≤ 95 →
      exec (.bufrd off h) s = .next { s with
        events := [], resp := some { status := .ok, result := .value (s.readData h off.toNat) } }) ∧
    (95 < off.toNat → Refuses (.bufrd off h) s)

/-- R148. -/
def Obligations.SetlenSetsPayloadLengthOnly : Prop :=
  ∀ (len : Byte) (h : Handle) (s : State),
    s.life = .active → h.toNat < s.params.poolBlocks → (s.buf h).refcount ≠ 0 →
    (len.toNat ≤ 92 →
      ∃ t, exec (.setlen len h) s = .next t ∧ Responds t .ok .none ∧ t.events = [] ∧ OnlyPoolChanged s t ∧
        (t.buf h).payloadLength = len ∧ (t.buf h).frameLength = (s.buf h).frameLength ∧
        (t.buf h).refcount = (s.buf h).refcount ∧
        (∀ off, t.readData h off = s.readData h off) ∧ OtherBuffersSame s t h) ∧
    (92 < len.toNat → Refuses (.setlen len h) s)

/-- R149. -/
def Obligations.BufinfoReturnsTheFields : Prop :=
  ∀ (h : Handle) (s : State),
    s.life = .active → h.toNat < s.params.poolBlocks → (s.buf h).refcount ≠ 0 →
    exec (.bufinfo h) s = .next { s with
      events := []
      resp := some ⟨.ok, .info (s.buf h).frameLength (s.buf h).payloadLength (s.buf h).refcount⟩ }

/-! ## Transmit queue -/

/-- R163, with R161 and R162: the queue is a first-in first-out queue of at most `TXQ_CAP` handles. -/
def Obligations.QueueIsFifo : Prop :=
  ∀ s : State, QueueInv s →
    s.queued.length ≤ s.params.queueDepth ∧
    (∀ (h : Handle), s.queued.length < s.params.queueDepth →
      (qEnq h s).1 = true ∧ (qEnq h s).2.queued = s.queued ++ [h] ∧
      (qEnq h s).2 = { s with txq := (qEnq h s).2.txq }) ∧
    (∀ h : Handle, s.queued.length = s.params.queueDepth →
      qEnq h s = (false, { s with events := s.events ++ [.queueFull] })) ∧
    (∀ (h : Handle) (rest : List Handle), s.queued = h :: rest →
      (qDeq s).1 = some h ∧ (qDeq s).2.queued = rest ∧ (qDeq s).2 = { s with txq := (qDeq s).2.txq }) ∧
    (s.queued = [] → qDeq s = (none, { s with events := s.events ++ [.queueEmpty] }))

/-! ## Receive -/

/-- R171: the ring takes the longest part of the bytes that fits in 255 unread ones. -/
def Obligations.RxpushAppendsWhatFits : Prop :=
  ∀ (data : List Byte) (s : State) (n : Nat), s.life = .active → n = min data.length (255 - s.avail) →
    ∃ t, exec (.rxpush data) s = .next t ∧ Responds t .ok (.accepted n) ∧ t.events = [] ∧
      t = { s with ring := t.ring, resp := t.resp, events := t.events } ∧
      t.ring.current = s.ring.current ∧ t.ring.next = s.ring.next + BitVec.ofNat 8 n ∧
      t.unread = s.unread ++ data.take n ∧
      ∀ k, (∀ i, i < n → k ≠ (s.ring.next + BitVec.ofNat 8 i).toNat) →
        Store.read? t.ring.buf k = Store.read? s.ring.buf k

/-- R176, case WAIT. -/
def Obligations.ScanWaitsForBytes : Prop :=
  ∀ s : State, (s.avail < 8 ∨ s.avail < s.expected.toNat) → scanStep s = .ok (.stop, s)

/-- R177, case SKIP. -/
def Obligations.ScanSkipsByteThatIsNotSof : Prop :=
  ∀ s : State, 8 ≤ s.avail → s.expected.toNat ≤ s.avail → s.ringRead 0 ≠ 0x05 →
    scanStep s = .ok (.again, { s with
      ring := { s.ring with current := s.ring.current + 1 }
      skipped := s.skipped + 1
      ignoreSkipped := if s.lastValid = true ∧ s.ringRead 0 = 0xFF then s.ignoreSkipped else false
      expected := expectedAfterDrop s })

/-- R179, case TOO-LONG, after R178. -/
def Obligations.ScanDropsOneByteOfTooLongFrame : Prop :=
  ∀ (s : State) (fl : Nat), 8 ≤ s.avail → s.expected.toNat ≤ s.avail → s.ringRead 0 = 0x05 →
    fl = ((serviceLenOf (s.ringRead 1)).toNat + 2) * 4 → 96 < fl →
    scanStep s = .ok (.again, { afterSof s with
      ring := { s.ring with current := s.ring.current + 1 }
      lastValid := false
      expected := expectedAfterDrop s
      events := s.events ++ skippedReport s ++ [.frameTooLong fl] })

/-- R180, case NEED-MORE, after R178; the receive state is then `HAVE_SOF_NEED_MORE_BYTES` (R187). -/
def Obligations.ScanSuspendsOnIncompleteFrame : Prop :=
  ∀ (s : State) (fl : Nat), 8 ≤ s.avail → s.expected.toNat ≤ s.avail → s.ringRead 0 = 0x05 →
    fl = ((serviceLenOf (s.ringRead 1)).toNat + 2) * 4 → fl ≤ 96 → s.avail < fl →
    ∃ t, scanStep s = .ok (.stop, t) ∧ t = { afterSof s with expected := t.expected } ∧
      t.expected.toNat = fl ∧ t.rxPhase = .haveSofNeedMoreBytes

/-- R181, case BAD-CHECKSUM, after R178. -/
def Obligations.ScanDropsOneByteOfCorruptFrame : Prop :=
  ∀ (s : State) (fl : Nat), 8 ≤ s.avail → s.expected.toNat ≤ s.avail → s.ringRead 0 = 0x05 →
    fl = ((serviceLenOf (s.ringRead 1)).toNat + 2) * 4 → fl ≤ 96 → fl ≤ s.avail →
    checksum (s.ringRange 0 (fl - 1)) ≠ s.ringRead (fl - 1) →
    scanStep s = .ok (.again, { afterSof s with
      ring := { s.ring with current := s.ring.current + 1 }
      lastValid := false
      expected := expectedAfterDrop s
      events := s.events ++ skippedReport s ++
        [.checksumMismatch (s.ringRead (fl - 1)) (checksum (s.ringRange 0 (fl - 1)))] })

/-- R182, R183, R230, R231: a valid frame for a copied-bytes receiver is delivered as the bytes between
header and checksum, whatever its sequence value; the lowest-numbered free buffer carries it and is free and
scrubbed again (R151). -/
def Obligations.ScanDeliversToBytesReceiver : Prop :=
  ∀ (s : State) (fl : Nat) (ch : BitVec 5) (seq : BitVec 2) (h : Handle),
    PoolInv s → s.life = .active → FrameAtHead s fl →
    ch = channelOf (s.ringRead 2) → seq = seqOf (s.ringRead 1) →
    ch.toNat < 21 → (s.chanAt ch.toNat).kind = .bytes → LowestFree s h →
    ∃ t, scanStep s = .ok (.again, t) ∧
      t.events = s.events ++ skippedReport s ++ sequenceReport s seq ++
        [.deliverBytes ch.toNat (s.chanAt ch.toNat).ctx (s.ringRange 3 (fl - 4))] ∧
      t.ring = { s.ring with current := s.ring.current + BitVec.ofNat 8 fl } ∧
      t.expected = 0 ∧ t.rxSeq = seq + 1 ∧ t.lastValid = true ∧ t.skipped = 0 ∧
      t.ignoreSkipped = (afterSof s).ignoreSkipped ∧
      FreeAndScrubbed t h ∧ ReceivedLengths t h fl ∧
      t.pool.length = s.pool.length ∧ OtherBuffersSame s t h ∧
      t.resp = s.resp ∧ SameTransmitSide s t ∧ SameConfiguration s t

/-- R182, R183, R230 to R232: a valid frame for a whole-buffer receiver is put into the lowest-numbered
free buffer, delivered with a reference of its own, and mirrored to the debug-input channel. -/
def Obligations.ScanDeliversToBufferReceiver : Prop :=
  ∀ (s : State) (fl : Nat) (ch : BitVec 5) (seq : BitVec 2) (h : Handle) (d : Chan),
    PoolInv s → s.life = .active → FrameAtHead s fl →
    ch = channelOf (s.ringRead 2) → seq = seqOf (s.ringRead 1) →
    ch.toNat < 21 → (s.chanAt ch.toNat).kind = .buffer → d = s.chanAt s.params.debugIn → LowestFree s h →
    ∃ t, scanStep s = .ok (.again, t) ∧
      t.events = s.events ++ skippedReport s ++ sequenceReport s seq ++
        [.deliverBuffer ch.toNat (s.chanAt ch.toNat).ctx h] ++
        (match d.kind with
          | .none => []
          | .buffer => [.deliverBuffer s.params.debugIn d.ctx h]
          | .bytes => [.deliverBytes s.params.debugIn d.ctx (s.ringRange 3 (fl - 4))]) ∧
      t.ring = { s.ring with current := s.ring.current + BitVec.ofNat 8 fl } ∧
      t.expected = 0 ∧ t.rxSeq = seq + 1 ∧ t.lastValid = true ∧ t.skipped = 0 ∧
      t.ignoreSkipped = (afterSof s).ignoreSkipped ∧
      (t.buf h).refcount = (if d.kind = .buffer then 2 else 1) ∧ ReceivedLengths t h fl ∧
      t.readRange h 0 fl = s.ringRange 0 fl ∧ (∀ off, fl ≤ off → t.readData h off = s.readData h off) ∧
      t.pool.length = s.pool.length ∧ OtherBuffersSame s t h ∧
      t.resp = s.resp ∧ SameTransmitSide s t ∧ SameConfiguration s t

/-- R183, R230, R270: a valid frame without a free buffer, or without a receiver, is dropped and logged; the
ring and the sequence counter advance as for a delivery. Without a free buffer the pool is untouched; without
a receiver the lowest-numbered free buffer carries the frame and is free and scrubbed again (R151). -/
def Obligations.ScanDropsFrameWithoutBufferOrReceiver : Prop :=
  ∀ (s : State) (fl : Nat) (ch : BitVec 5) (seq : BitVec 2),
    PoolInv s → s.life = .active → FrameAtHead s fl →
    ch = channelOf (s.ringRead 2) → seq = seqOf (s.ringRead 1) →
    ((∀ b ∈ s.pool, b.refcount ≠ 0) ∨ 21 ≤ ch.toNat ∨ (s.chanAt ch.toNat).kind = .none) →
    ∃ t, scanStep s = .ok (.again, t) ∧
      ((∀ b ∈ s.pool, b.refcount ≠ 0) → t.pool = s.pool ∧
        t.events = s.events ++ skippedReport s ++ sequenceReport s seq ++ [.rxNoBuffer]) ∧
      (∀ h : Handle, LowestFree s h →
        t.events = s.events ++ skippedReport s ++ sequenceReport s seq ++ [.rxNoReceiver ch] ∧
        FreeAndScrubbed t h ∧ ReceivedLengths t h fl ∧
        t.pool.length = s.pool.length ∧ OtherBuffersSame s t h) ∧
      t.ring = { s.ring with current := s.ring.current + BitVec.ofNat 8 fl } ∧
      t.expected = 0 ∧ t.rxSeq = seq + 1 ∧ t.lastValid = true ∧ t.skipped = 0 ∧
      t.ignoreSkipped = (afterSof s).ignoreSkipped ∧
      t.resp = s.resp ∧ SameTransmitSide s t ∧ SameConfiguration s t

/-- R175, R185, R186: bytes that arrive are accepted as `RXPUSH` accepts them, and then `ScanStep` runs until it
answers STOP: in a session this always completes, and the scan is then suspended. For `RXSCAN` and `RXBYTES` by
the spec; for the six wire patterns by the model's choice, notes/assumptions/16.md. -/
def Obligations.ArrivalCompletesSuspended : Prop :=
  ∀ (i : Instr) (data : List Byte) (s : State),
    arrivingBytes i = some data → s.params.wf → s.life = .active →
    ∃ p u t : State, exec (.rxpush data) s = .next p ∧ ScanRuns { p with resp := none } u ∧
      t = { u with resp := some ⟨.ok, arrivalResult i (min data.length (255 - s.avail))⟩ } ∧
      exec i s = .next t ∧ Suspended t ∧ SameTransmitSide s t ∧ SameConfiguration s t

/-- R175, R190: once `RXSCAN` has run, running it again changes nothing and emits nothing. -/
def Obligations.RxscanTwiceIsRxscanOnce : Prop :=
  ∀ s t : State, exec .rxscan s = .next t → exec .rxscan t = .next { t with events := [] }

/-- R186: `RXBYTES` is `RXPUSH` followed by `RXSCAN`, with the response of the one and the events of the
other. -/
def Obligations.RxbytesIsRxpushThenRxscan : Prop :=
  ∀ (data : List Byte) (s t u : State), s.life = .active →
    exec (.rxpush data) s = .next t → exec .rxscan t = .next u →
    exec (.rxbytes data) s = .next { u with resp := t.resp }

/-- The model's choice, notes/assumptions/16.md: a wire pattern of the table (R90, R92, R93) is the arrival of
its bytes at the inbound boundary, with the effect of `RXBYTES` (R186, R287). -/
def Obligations.WirePatternArrivesAsRxbytes : Prop :=
  ∀ (x : BitVec 1) (sl : BitVec 5) (seq : BitVec 2) (ch : BitVec 5) (pr : BitVec 3) (b : Byte) (s : State),
    exec (.frameHeader x sl seq ch pr) s = exec (.rxbytes [0x05, byteOf (x.toNat * 128 + sl.toNat * 4 + seq.toNat),
      byteOf (ch.toNat * 8 + pr.toNat)]) s ∧
    exec .frameSof s = exec (.rxbytes [0x05]) s ∧
    exec (.frameLenSeq x sl seq) s = exec (.rxbytes [byteOf (x.toNat * 128 + sl.toNat * 4 + seq.toNat)]) s ∧
    exec (.frameChanPrio ch pr) s = exec (.rxbytes [byteOf (ch.toNat * 8 + pr.toNat)]) s ∧
    exec (.framePayload b) s = exec (.rxbytes [b]) s ∧
    exec (.frameChecksum b) s = exec (.rxbytes [b]) s

/-- R189, R190: garbage without an `SOF` in front of a valid frame is dropped, reported with its length, and
the frame is delivered: for a copied-bytes receiver, after a frame that was not valid. -/
def Obligations.GarbageBeforeFrameIsSkippedAndReported : Prop :=
  ∀ (s : State) (g f : List Byte) (ch : BitVec 5),
    PoolInv s → s.life = .active → ReceiveIdle s → s.lastValid = false →
    g ≠ [] → (∀ b ∈ g, b ≠ 0x05) → ValidFrame f → g.length + f.length ≤ 255 →
    ch = channelOf (f.getD 2 0) → ch.toNat < 21 → (s.chanAt ch.toNat).kind = .bytes →
    (∃ b ∈ s.pool, b.refcount = 0) →
    ∃ t, exec (.rxbytes (g ++ f)) s = .next t ∧ Responds t .ok (.accepted (g.length + f.length)) ∧
      t.events = [.skippedBytes g.length] ++ sequenceReport s (seqOf (f.getD 1 0)) ++
        [.deliverBytes ch.toNat (s.chanAt ch.toNat).ctx ((f.drop 3).take (f.length - 4))] ∧
      t.avail = 0 ∧ t.lastValid = true ∧ t.rxSeq = seqOf (f.getD 1 0) + 1

/-! ## Transmit -/

/-- R200 to R207: an operand outside the checks of R200 is refused; else, with an empty queue, the mutex
acquired and the send accepted, `ASSEMBLE` sends the frame that carries the payload, and nothing else changes
but the buffer's frame, the queue's indices, the sequence counter and the draws taken. -/
def Obligations.AssembleSendsTheFrame : Prop :=
  ∀ (s : State) (channel priority : Byte) (h : Handle),
    ((s.buf h).refcount = s.params.refMax ∨ 21 ≤ channel.toNat ∨ 7 < priority.toNat ∨
        (s.buf h).payloadLength = 0 ∨ 92 < (s.buf h).payloadLength.toNat →
      Refuses (.assemble channel priority h) s) ∧
    (s.params.wf → MayAssemble s channel priority h → s.txq.rd = s.txq.wr →
      s.nextAnswer = .ok → s.afterDraw.nextAnswer = .ok →
      ∃ (f : List Byte) (t : State), exec (.assemble channel priority h) s = .next t ∧ Responds t .ok .none ∧
        t.events = [.txBytes f.length f .ok] ∧
        CarriesPayload f channel.toNat priority.toNat s.txSeq (s.payload h) ∧
        LeastFrameLength f.length s.gran.bytes (s.payload h).length ∧
        t.readRange h 0 f.length = f ∧ (∀ off, f.length ≤ off → t.readData h off = s.readData h off) ∧
        (t.buf h).frameLength.toNat = f.length ∧ (t.buf h).payloadLength = (s.buf h).payloadLength ∧
        (t.buf h).refcount = (s.buf h).refcount ∧ t.pool.length = s.pool.length ∧ OtherBuffersSame s t h ∧
        t.txSeq = s.txSeq + 1 ∧ t.txq.rd = t.txq.wr ∧ t.draws = s.afterDraw.afterDraw.draws ∧
        t.freeDraws = s.afterDraw.afterDraw.freeDraws ∧ SameReceiveSide s t ∧ SameConfiguration s t)

/-- R202 to R204, R206: when the mutex is not acquired, `ASSEMBLE` writes the frame head with sequence bits 0
and no checksum, and queues the buffer with a reference of its own; with a full queue it answers
`ResourceExhausted` and leaves the counts and the queue as they were. In every case the drain it triggers does
what `DRAIN` does (R204): an `ASSEMBLE` is one whose mutex was not acquired, followed by a `DRAIN`, with the
response of the one and without its `LockFailed`. -/
def Obligations.AssembleQueuesWhenDrainIsSkipped : Prop :=
  ∀ (s : State) (channel priority : Byte) (h : Handle),
    MayAssemble s channel priority h →
    (QueueInv s → s.nextAnswer = .fail →
      ∃ (n : Nat) (t : State), exec (.assemble channel priority h) s = .next t ∧
        LeastFrameLength n s.gran.bytes (s.payload h).length ∧
        t.readRange h 0 (n - 1) = assembledHead n channel.toNat priority.toNat (s.payload h) ∧
        (∀ off, n - 1 ≤ off → t.readData h off = s.readData h off) ∧
        (t.buf h).frameLength.toNat = n ∧ (t.buf h).payloadLength = (s.buf h).payloadLength ∧
        (s.queued.length < s.params.queueDepth →
          Responds t .ok .none ∧ t.events = [.lockFailed] ∧ t.queued = s.queued ++ [h] ∧
          (t.buf h).refcount = (s.buf h).refcount + 1) ∧
        (s.queued.length = s.params.queueDepth →
          Responds t .resourceExhausted .none ∧ t.events = [.queueFull, .lockFailed] ∧ t.txq = s.txq ∧
          (t.buf h).refcount = (s.buf h).refcount) ∧
        t.pool.length = s.pool.length ∧ OtherBuffersSame s t h ∧ t.txSeq = s.txSeq ∧
        t.draws = s.afterDraw.draws ∧ t.freeDraws = s.afterDraw.freeDraws ∧
        SameReceiveSide s t ∧ SameConfiguration s t) ∧
    (∀ a d : State, exec (.assemble channel priority h) { s with draws := .fail :: s.draws } = .next a →
      exec .drain a = .next d →
      exec (.assemble channel priority h) s = .next { d with
        events := a.events.dropLast ++ d.events, resp := a.resp })

/-- R205, R206: a drain whose mutex is not acquired is skipped and reported, and takes one answer. -/
def Obligations.DrainSkippedWhenLockFails : Prop :=
  ∀ s : State, s.life = .active → s.nextAnswer = .fail →
    exec .drain s = .next { s with
      draws := s.draws.drop 1
      freeDraws := if s.draws = [] then s.freeDraws + 1 else s.freeDraws
      events := [.lockFailed]
      resp := some { status := .lockNotAcquired, result := .sent 0 } }

/-- R206, R207: a drain of one queued frame stamps the sequence bits and the checksum, hands the bytes to the
transport and takes the queue's reference away; the sequence counter advances only on success. -/
def Obligations.DrainSendsOneQueuedFrame : Prop :=
  ∀ (s : State) (h : Handle) (a : Answer) (fl : Nat),
    QueueOwnsItsEntries s → s.life = .active → s.queued = [h] → fl = (s.buf h).frameLength.toNat →
    s.nextAnswer = .ok → s.afterDraw.nextAnswer = a →
    ∃ (f : List Byte) (t : State), exec .drain s = .next t ∧ Responds t .ok (.sent 1) ∧
      f.length = fl ∧ (f.map BitVec.toNat).sum % 256 = 0 ∧
      (∀ off, off ≠ 1 → off < fl - 1 → f[off]? = some (s.readData h off)) ∧
      f[1]? = some ((s.readData h 1 &&& 0xFC) + s.txSeq.setWidth 8) ∧
      (a = .ok → t.events = [.txBytes fl f .ok] ∧ t.txSeq = s.txSeq + 1) ∧
      (a = .fail → t.events = [.txBytes fl f .fail, .transmitFailed] ∧ t.txSeq = s.txSeq) ∧
      t.queued = [] ∧ (t.buf h).refcount + 1 = (s.buf h).refcount ∧
      ((t.buf h).refcount ≠ 0 → t.readRange h 0 fl = f ∧ ∀ off, fl ≤ off → t.readData h off = s.readData h off) ∧
      ((t.buf h).refcount = 0 → ∀ off, off < 96 → t.readData h off = s.params.scrubByte) ∧
      (t.buf h).frameLength = (s.buf h).frameLength ∧ (t.buf h).payloadLength = (s.buf h).payloadLength ∧
      t.pool.length = s.pool.length ∧ OtherBuffersSame s t h ∧
      t.draws = s.afterDraw.afterDraw.draws ∧ t.freeDraws = s.afterDraw.afterDraw.freeDraws ∧
      SameReceiveSide s t ∧ SameConfiguration s t

/-- R205 to R210: while the queue owns its entries, a drain sends the frames of the oldest entries in order, at
most 50: the `i`-th `TxBytes` event carries the stamped frame of the `i`-th entry, with the sequence value that
the accepted frames before it lead to. One answer and one reference go with each frame. -/
def Obligations.DrainEmptiesTheQueueInOrder : Prop :=
  ∀ (s : State) (n : Nat) (as : List Answer), QueueOwnsItsEntries s → s.life = .active → s.nextAnswer = .ok →
    n = min 50 s.queued.length → as = s.afterDraw.nextAnswers n →
    ∃ t, exec .drain s = .next t ∧ Responds t .ok (.sent n) ∧
      t.events = s.transmissions s.txSeq (s.queued.take n) as ∧ t.queued = s.queued.drop n ∧
      t.txSeq = s.txSeq + BitVec.ofNat 2 (as.count .ok) ∧
      t.draws = s.draws.drop (n + 1) ∧ t.freeDraws = s.freeDraws + (n + 1 - s.draws.length) ∧
      (∀ h : Handle, (t.buf h).refcount + (s.queued.take n).count h = (s.buf h).refcount ∧
        (t.buf h).frameLength = (s.buf h).frameLength ∧ (t.buf h).payloadLength = (s.buf h).payloadLength) ∧
      (∀ h : Handle, h ∉ s.queued.take n → SameBuffer s t h) ∧
      (∀ h : Handle, h ∈ s.queued.take n → (t.buf h).refcount = 0 → FreeAndScrubbed t h) ∧
      (∀ h : Handle, (t.buf h).refcount ≠ 0 → ∀ off, off ≠ 1 → off + 1 ≠ (s.buf h).frameLength.toNat →
        t.readData h off = s.readData h off) ∧
      t.pool.length = s.pool.length ∧ SameReceiveSide s t ∧ SameConfiguration s t

/-- R235, R236: an operand outside the checks of R235 is refused. Else `TRANSMIT` is a `REFINC`, an `ASSEMBLE`
with the table's priority, the mirror to the debug-output channel and a `RELEASE`, as one operation. Where the
drain sends its frame, and where the mutex is not acquired with room in the queue and with a full one, the
events and the counts are those of R236: the caller's references stay, plus one while the queue holds the
frame, plus one for a whole-buffer mirror. -/
def Obligations.TransmitSendsMirrorsAndReleases : Prop :=
  ∀ (s : State) (channel : Byte) (h : Handle) (priority : Byte),
    priority = (s.chanAt channel.toNat).prio.setWidth 8 →
    (s.params.refMax < (s.buf h).refcount + 3 ∨ 21 ≤ channel.toNat ∨
        (s.buf h).payloadLength = 0 ∨ 92 < (s.buf h).payloadLength.toNat →
      Refuses (.transmit channel h) s) ∧
    (MayTransmit s channel h →
      (∀ a b c d : State, exec (.refinc h) s = .next a → exec (.assemble channel priority h) a = .next b →
        mirror s.params.debugOut h b = .ok c → (c.buf h).refcount ≠ 0 → exec (.release h) c = .next d →
        exec (.transmit channel h) s = .next { d with events := c.events, resp := b.resp }) ∧
      (s.params.wf → s.txq.rd = s.txq.wr → s.nextAnswer = .ok → s.afterDraw.nextAnswer = .ok →
        ∃ (f : List Byte) (t : State), exec (.transmit channel h) s = .next t ∧ Responds t .ok .none ∧
          t.events = [.txBytes f.length f .ok] ++ mirrorReport s h ∧
          CarriesPayload f channel.toNat priority.toNat s.txSeq (s.payload h) ∧
          LeastFrameLength f.length s.gran.bytes (s.payload h).length ∧
          t.readRange h 0 f.length = f ∧ (∀ off, f.length ≤ off → t.readData h off = s.readData h off) ∧
          (t.buf h).frameLength.toNat = f.length ∧ (t.buf h).payloadLength = (s.buf h).payloadLength ∧
          (t.buf h).refcount = (s.buf h).refcount + mirrorReferences s ∧
          t.pool.length = s.pool.length ∧ OtherBuffersSame s t h ∧
          t.txSeq = s.txSeq + 1 ∧ t.txq.rd = t.txq.wr ∧ t.draws = s.afterDraw.afterDraw.draws ∧
          t.freeDraws = s.afterDraw.afterDraw.freeDraws ∧ SameReceiveSide s t ∧ SameConfiguration s t) ∧
      (QueueInv s → s.nextAnswer = .fail →
        ∃ (n : Nat) (t : State), exec (.transmit channel h) s = .next t ∧
          LeastFrameLength n s.gran.bytes (s.payload h).length ∧
          t.readRange h 0 (n - 1) = assembledHead n channel.toNat priority.toNat (s.payload h) ∧
          (∀ off, n - 1 ≤ off → t.readData h off = s.readData h off) ∧
          (t.buf h).frameLength.toNat = n ∧ (t.buf h).payloadLength = (s.buf h).payloadLength ∧
          (s.queued.length < s.params.queueDepth →
            Responds t .ok .none ∧ t.events = [.lockFailed] ++ mirrorReport s h ∧ t.queued = s.queued ++ [h] ∧
            (t.buf h).refcount = (s.buf h).refcount + 1 + mirrorReferences s) ∧
          (s.queued.length = s.params.queueDepth →
            Responds t .resourceExhausted .none ∧ t.events = [.queueFull, .lockFailed] ++ mirrorReport s h ∧
            t.txq = s.txq ∧ (t.buf h).refcount = (s.buf h).refcount + mirrorReferences s) ∧
          t.pool.length = s.pool.length ∧ OtherBuffersSame s t h ∧ t.txSeq = s.txSeq ∧
          t.draws = s.afterDraw.draws ∧ t.freeDraws = s.afterDraw.freeDraws ∧
          SameReceiveSide s t ∧ SameConfiguration s t))

/-- R188: a frame that one block assembles and sends, fed to another block (of any granularity) whose
receive side is idle, is delivered there with the payload and the channel it was assembled with. -/
def Obligations.AssembledFrameIsReceived : Prop :=
  ∀ (s r : State) (channel priority : Byte) (h : Handle),
    s.params.wf → MayAssemble s channel priority h → s.txq.rd = s.txq.wr →
    s.nextAnswer = .ok → s.afterDraw.nextAnswer = .ok →
    PoolInv r → r.life = .active → ReceiveIdle r → (r.chanAt channel.toNat).kind = .bytes →
    (∃ b ∈ r.pool, b.refcount = 0) →
    ∃ (f : List Byte) (t u : State), exec (.assemble channel priority h) s = .next t ∧
      t.events = [.txBytes f.length f .ok] ∧
      exec (.rxbytes f) r = .next u ∧ Responds u .ok (.accepted f.length) ∧
      u.events = sequenceReport r s.txSeq ++
        [.deliverBytes channel.toNat (r.chanAt channel.toNat).ctx
          (s.payload h ++ List.replicate (f.length - 4 - (s.payload h).length) 0xFF)] ∧
      u.rxSeq = s.txSeq + 1 ∧ u.avail = 0

/-! ## Channel table -/

/-- R220. Bits 3, 6 and 7 of field `B` are the decoder's (R112). -/
def Obligations.ConfigReplacesTheEntry : Prop :=
  ∀ (channel : Byte) (priority : BitVec 3) (kind : BitVec 2) (ctx : Ctx) (s : State), s.chan.length = 21 →
    (channel.toNat < 21 → (kind = 1 ∨ kind = 2) →
      ∃ t, exec (.config channel priority kind ctx) s = .next t ∧ Responds t .ok .none ∧ t.events = [] ∧
        t = { s with chan := t.chan, resp := t.resp, events := t.events } ∧ t.chan.length = 21 ∧
        (t.chanAt channel.toNat).prio = priority ∧ (t.chanAt channel.toNat).kind.code = kind ∧
        (t.chanAt channel.toNat).ctx = ctx ∧ ∀ c, c ≠ channel.toNat → t.chanAt c = s.chanAt c) ∧
    ((21 ≤ channel.toNat ∨ kind = 0 ∨ kind = 3) → Refuses (.config channel priority kind ctx) s)

/-- R221. -/
def Obligations.SetprioChangesThePriorityOnly : Prop :=
  ∀ (channel value : Byte) (s : State), s.chan.length = 21 →
    (channel.toNat < 21 → value.toNat ≤ 7 →
      ∃ t, exec (.setprio channel value) s = .next t ∧ Responds t .ok .none ∧ t.events = [] ∧
        t = { s with chan := t.chan, resp := t.resp, events := t.events } ∧ t.chan.length = 21 ∧
        (t.chanAt channel.toNat).prio.toNat = value.toNat ∧
        (t.chanAt channel.toNat).kind = (s.chanAt channel.toNat).kind ∧
        (t.chanAt channel.toNat).ctx = (s.chanAt channel.toNat).ctx ∧
        ∀ c, c ≠ channel.toNat → t.chanAt c = s.chanAt c) ∧
    ((21 ≤ channel.toNat ∨ 7 < value.toNat) → Refuses (.setprio channel value) s)

/-- R222. -/
def Obligations.GetprioReturnsThePriority : Prop :=
  ∀ (channel : Byte) (s : State),
    (channel.toNat < 21 →
      exec (.getprio channel) s = .next { s with
        events := [], resp := some { status := .ok, result := .priority (s.chanAt channel.toNat).prio } }) ∧
    (21 ≤ channel.toNat → Refuses (.getprio channel) s)

/-- R40, R223, R301: only `CONFIG` and `SETPRIO` change the channel table. -/
def Obligations.ChannelTableChangedOnlyByItsOperations : Prop :=
  ∀ (i : Instr) (s t : State), exec i s = .next t → writesChannels i = false → t.chan = s.chan

/-! ## Whole-machine rules -/

/-- R261: the statuses each operation can return. -/
def Obligations.StatusIsOneOfTheListed : Prop :=
  ∀ (i : Instr) (s t : State), exec i s = .next t →
    ∃ r, t.resp = some r ∧ r.status ∈ allowedStatuses i

/-- R290, R35: the transmit operations leave the receive side alone, and every other operation but `INIT`
leaves the transmit side alone and asks for no answer (R263). That a `FREEPOOL` which ends the session leaves the
queue and `tx_seq` as they were is the model's choice, notes/assumptions/20.md: by R145 and R301 that state ceases
to exist, and U10 leaves it at any value. -/
def Obligations.ReceiveAndTransmitSidesAreIndependent : Prop :=
  ∀ (i : Instr) (s t : State), exec i s = .next t →
    (isTransmit i = true → SameReceiveSide s t) ∧
    (isTransmit i = false → (∀ g, i ≠ .init g) → SameTransmitSide s t)

/-- R252: no operation changes the build, and none issues or withdraws another (the request list is the
model's, notes/assumptions/12.md). -/
def Obligations.BuildAndRequestsAreUntouched : Prop :=
  ∀ (i : Instr) (s t : State), exec i s = .next t → t.params = s.params ∧ t.pending = s.pending

/-- R270 to R272: only the transmit operations can end in a fault of the run; all others answer a next
state in every state of a legal build. -/
def Obligations.OnlyTransmitCanFault : Prop :=
  ∀ (i : Instr) (s : State), s.params.wf → isTransmit i = false → ∃ t, exec i s = .next t

/-- R272, R311: while every queue entry stands for a reference, and a `RELEASE` gives back only a reference
that its issuer holds, no operation faults, and every queue entry goes on standing for a reference. Outside a session it speaks of fields that the spec leaves open (U10); what
they hold there is the model's choice, notes/assumptions/6.md and 20.md. -/
def Obligations.OwnedReferencesPreventFaults : Prop :=
  ∀ (i : Instr) (s : State), QueueOwnsItsEntries s → ReleasesWhatItHolds i s →
    ∃ t, exec i s = .next t ∧ QueueOwnsItsEntries t

/-! ## Invariants

Outside a session an invariant speaks of fields that the spec leaves open (U10); what they hold there is the
model's choice, notes/assumptions/6.md and 20.md. -/

/-- Hardware reset meets every invariant, for every legal build. -/
def Obligations.ResetMeetsTheInvariants : Prop :=
  ∀ p : Params, p.wf →
    StorageInv (State.resetWith p) ∧ PoolInv (State.resetWith p) ∧ QueueInv (State.resetWith p) ∧
    RingInv (State.resetWith p) ∧ QueueOwnsItsEntries (State.resetWith p)

/-- Every step keeps the storage in its canonical form and its bounds (R60, R65). -/
def Obligations.StepKeepsStorageCanonical : Prop :=
  ∀ s t : State, StorageInv s → step s = .next t → StorageInv t

/-- Every step keeps the pool's size and the legal values of R24. -/
def Obligations.StepKeepsPoolLegal : Prop :=
  ∀ s t : State, PoolInv s → step s = .next t → PoolInv t

/-- Every step keeps the queue's indices in range and its entries handles of the pool (R29, R30). -/
def Obligations.StepKeepsQueueLegal : Prop :=
  ∀ s t : State, QueueInv s → step s = .next t → QueueInv t

/-- Every step keeps `expected` legal and the unread ring bytes written (R31, R34). -/
def Obligations.StepKeepsRingLegal : Prop :=
  ∀ s t : State, RingInv s → step s = .next t → RingInv t
end

