-- ==== Sys2Proof/Laws/Encoding.lean ====
section
/-! SUPPORT. The laws of the encodings: a word and its fields as numbers, and that cutting a word into its
fields and putting it together are inverse to each other. -/

namespace Sys2Proof

/-- A concatenation as a number. -/
theorem append_toNat {m n : Nat} (x : BitVec m) (y : BitVec n) : (x ++ y).toNat = x.toNat * 2 ^ n + y.toNat := by
  rw [BitVec.toNat_append, ← Nat.shiftLeft_add_eq_or_of_lt y.isLt, Nat.shiftLeft_eq]

/-- A bit field as a number. -/
theorem extract_toNat {w : Nat} (x : BitVec w) (i n : Nat) :
    (x.extractLsb' i n).toNat = x.toNat / 2 ^ i % 2 ^ n := by
  rw [BitVec.extractLsb'_toNat, Nat.shiftRight_eq_div_pow]

/-- A command word as a number: each field at its place (R100). -/
theorem wordOf_toNat (f : Fields) :
    (wordOf f).toNat = f.x.toNat * 1099511627776 + f.h.toNat * 16777216 + f.b.toNat * 65536 +
      f.a.toNat * 256 + f.op.toNat := by
  simp only [wordOf, append_toNat]
  omega

/-- The fields of a command word put together (R100). -/
@[simp] theorem fieldsOf_wordOf (f : Fields) : fieldsOf (wordOf f) = f := by
  obtain ⟨op, a, b, h, x⟩ := f
  have e := wordOf_toNat ⟨op, a, b, h, x⟩
  simp only at e
  have := op.isLt; have := a.isLt; have := b.isLt; have := h.isLt; have := x.isLt
  simp only [fieldsOf, Fields.mk.injEq]
  refine ⟨?_, ?_, ?_, ?_, ?_⟩ <;> apply BitVec.eq_of_toNat_eq <;> rw [extract_toNat, e] <;> omega

/-- A command word is its fields put together (R100). -/
@[simp] theorem wordOf_fieldsOf (w : CommandWord) : wordOf (fieldsOf w) = w := by
  apply BitVec.eq_of_toNat_eq
  rw [wordOf_toNat]
  simp only [fieldsOf, extract_toNat]
  have := w.isLt
  omega

/-- Two command words joined bit by bit, field by field. -/
theorem wordOf_and (f g : Fields) :
    wordOf f &&& wordOf g = wordOf ⟨f.op &&& g.op, f.a &&& g.a, f.b &&& g.b, f.h &&& g.h, f.x &&& g.x⟩ := by
  apply BitVec.eq_of_getLsbD_eq
  intro i _
  simp only [wordOf, BitVec.getLsbD_and, BitVec.getLsbD_append]
  split_ifs <;> rfl

/-- Frame byte 1 as a number (R92). -/
theorem lenSeqByte_toNat (x : BitVec 1) (service : BitVec 5) (seq : BitVec 2) :
    (lenSeqByte x service seq).toNat = x.toNat * 128 + service.toNat * 4 + seq.toNat := by
  simp only [lenSeqByte, append_toNat]
  omega

/-- Frame byte 2 as a number (R92). -/
theorem chanPrioByte_toNat (channel : BitVec 5) (priority : BitVec 3) :
    (chanPrioByte channel priority).toNat = channel.toNat * 8 + priority.toNat := by
  simp only [chanPrioByte, append_toNat]
  omega

@[simp] theorem spareBitOf_lenSeqByte (x : BitVec 1) (service : BitVec 5) (seq : BitVec 2) :
    spareBitOf (lenSeqByte x service seq) = x := by
  have := x.isLt; have := service.isLt; have := seq.isLt
  apply BitVec.eq_of_toNat_eq
  rw [spareBitOf, extract_toNat, lenSeqByte_toNat]
  omega

@[simp] theorem serviceLenOf_lenSeqByte (x : BitVec 1) (service : BitVec 5) (seq : BitVec 2) :
    serviceLenOf (lenSeqByte x service seq) = service := by
  have := x.isLt; have := service.isLt; have := seq.isLt
  apply BitVec.eq_of_toNat_eq
  rw [serviceLenOf, extract_toNat, lenSeqByte_toNat]
  omega

@[simp] theorem seqOf_lenSeqByte (x : BitVec 1) (service : BitVec 5) (seq : BitVec 2) :
    seqOf (lenSeqByte x service seq) = seq := by
  have := x.isLt; have := service.isLt; have := seq.isLt
  apply BitVec.eq_of_toNat_eq
  rw [seqOf, extract_toNat, lenSeqByte_toNat]
  omega

@[simp] theorem channelOf_chanPrioByte (channel : BitVec 5) (priority : BitVec 3) :
    channelOf (chanPrioByte channel priority) = channel := by
  have := channel.isLt; have := priority.isLt
  apply BitVec.eq_of_toNat_eq
  rw [channelOf, extract_toNat, chanPrioByte_toNat]
  omega

@[simp] theorem priorityOf_chanPrioByte (channel : BitVec 5) (priority : BitVec 3) :
    priorityOf (chanPrioByte channel priority) = priority := by
  have := channel.isLt; have := priority.isLt
  apply BitVec.eq_of_toNat_eq
  rw [priorityOf, extract_toNat, chanPrioByte_toNat]
  omega

@[simp] theorem lenSeqByte_fields (b : Byte) : lenSeqByte (spareBitOf b) (serviceLenOf b) (seqOf b) = b := by
  have := b.isLt
  apply BitVec.eq_of_toNat_eq
  rw [lenSeqByte_toNat, spareBitOf, serviceLenOf, seqOf]
  simp only [extract_toNat]
  omega

@[simp] theorem chanPrioByte_fields (b : Byte) : chanPrioByte (channelOf b) (priorityOf b) = b := by
  have := b.isLt
  apply BitVec.eq_of_toNat_eq
  rw [chanPrioByte_toNat, channelOf, priorityOf]
  simp only [extract_toNat]
  omega

/-- Field `B` of `CONFIG` as a number (R110). -/
theorem configByte_toNat (priority : BitVec 3) (kind : BitVec 2) :
    (configByte priority kind).toNat = kind.toNat * 16 + priority.toNat := by
  simp only [configByte, append_toNat]
  have : (0 : BitVec 2).toNat = 0 := rfl
  have : (0 : BitVec 1).toNat = 0 := rfl
  omega

/-- The check and the fields of `CONFIG`'s field `B` on what the encoder writes there. -/
theorem configByte_fields (priority : BitVec 3) (kind : BitVec 2) :
    (configByte priority kind).extractLsb' 3 1 = 0 ∧ (configByte priority kind).extractLsb' 6 2 = 0 ∧
    (configByte priority kind).extractLsb' 0 3 = priority ∧
    (configByte priority kind).extractLsb' 4 2 = kind := by
  have := priority.isLt; have := kind.isLt
  refine ⟨?_, ?_, ?_, ?_⟩ <;> apply BitVec.eq_of_toNat_eq <;> rw [extract_toNat, configByte_toNat] <;>
    simp <;> omega

/-- Field `B` of `CONFIG` with its reserved bits zero is the encoder's (R112). -/
theorem configByte_of_fields {b : Byte} (h3 : b.extractLsb' 3 1 = 0) (h6 : b.extractLsb' 6 2 = 0) :
    configByte (b.extractLsb' 0 3) (b.extractLsb' 4 2) = b := by
  have e3 := congrArg BitVec.toNat h3
  have e6 := congrArg BitVec.toNat h6
  rw [extract_toNat] at e3 e6
  have := b.isLt
  apply BitVec.eq_of_toNat_eq
  rw [configByte_toNat]
  simp only [extract_toNat]
  simp at e3 e6
  omega

/-- What `accept` asks for when it accepts (R101, R112). -/
theorem accept_ok {z : Bool} {n : Nat} {data : List Byte} {i j : Instr} (e : accept z n data i = .ok j) :
    z = true ∧ data.length = n ∧ j = i := by
  unfold accept at e
  split_ifs at e with h1 h2
  simp only [Except.ok.injEq] at e
  exact ⟨by simpa using h1, by simpa using h2, e.symm⟩

theorem accept_of {n : Nat} {data : List Byte} (i : Instr) (h : data.length = n) :
    accept true n data i = .ok i := by
  simp [accept, h]

end Sys2Proof
end

