-- ==== Sys2Proof/Laws/State.lean ====
section
/-! SUPPORT. The small lemmas of the state record: for every update, what each field reads as after it.
Later proofs rewrite with these and unfold no record update. -/

namespace Sys2Proof.Machine

variable (s : State)

/-! ### startOp -/

@[simp] theorem State.startOp_params : s.startOp.params = s.params := rfl
@[simp] theorem State.startOp_life : s.startOp.life = s.life := rfl
@[simp] theorem State.startOp_gran : s.startOp.gran = s.gran := rfl
@[simp] theorem State.startOp_pool : s.startOp.pool = s.pool := rfl
@[simp] theorem State.startOp_txq : s.startOp.txq = s.txq := rfl
@[simp] theorem State.startOp_ring : s.startOp.ring = s.ring := rfl
@[simp] theorem State.startOp_expected : s.startOp.expected = s.expected := rfl
@[simp] theorem State.startOp_rxSeq : s.startOp.rxSeq = s.rxSeq := rfl
@[simp] theorem State.startOp_txSeq : s.startOp.txSeq = s.txSeq := rfl
@[simp] theorem State.startOp_lastValid : s.startOp.lastValid = s.lastValid := rfl
@[simp] theorem State.startOp_skipped : s.startOp.skipped = s.skipped := rfl
@[simp] theorem State.startOp_ignoreSkipped : s.startOp.ignoreSkipped = s.ignoreSkipped := rfl
@[simp] theorem State.startOp_chan : s.startOp.chan = s.chan := rfl
@[simp] theorem State.startOp_resp : s.startOp.resp = none := rfl
@[simp] theorem State.startOp_events : s.startOp.events = [] := rfl
@[simp] theorem State.startOp_pending : s.startOp.pending = s.pending := rfl
@[simp] theorem State.startOp_draws : s.startOp.draws = s.draws := rfl
@[simp] theorem State.startOp_freeDraws : s.startOp.freeDraws = s.freeDraws := rfl
@[simp] theorem State.startOp_session : s.startOp.session = s.session := rfl

/-! ### reply -/

@[simp] theorem State.reply_params (st : Status) (r : Result) : (s.reply st r).params = s.params := rfl
@[simp] theorem State.reply_life (st : Status) (r : Result) : (s.reply st r).life = s.life := rfl
@[simp] theorem State.reply_gran (st : Status) (r : Result) : (s.reply st r).gran = s.gran := rfl
@[simp] theorem State.reply_pool (st : Status) (r : Result) : (s.reply st r).pool = s.pool := rfl
@[simp] theorem State.reply_txq (st : Status) (r : Result) : (s.reply st r).txq = s.txq := rfl
@[simp] theorem State.reply_ring (st : Status) (r : Result) : (s.reply st r).ring = s.ring := rfl
@[simp] theorem State.reply_expected (st : Status) (r : Result) : (s.reply st r).expected = s.expected := rfl
@[simp] theorem State.reply_rxSeq (st : Status) (r : Result) : (s.reply st r).rxSeq = s.rxSeq := rfl
@[simp] theorem State.reply_txSeq (st : Status) (r : Result) : (s.reply st r).txSeq = s.txSeq := rfl
@[simp] theorem State.reply_lastValid (st : Status) (r : Result) : (s.reply st r).lastValid = s.lastValid := rfl
@[simp] theorem State.reply_skipped (st : Status) (r : Result) : (s.reply st r).skipped = s.skipped := rfl
@[simp] theorem State.reply_ignoreSkipped (st : Status) (r : Result) : (s.reply st r).ignoreSkipped = s.ignoreSkipped := rfl
@[simp] theorem State.reply_chan (st : Status) (r : Result) : (s.reply st r).chan = s.chan := rfl
@[simp] theorem State.reply_resp (st : Status) (r : Result) : (s.reply st r).resp = some { status := st, result := r } := rfl
@[simp] theorem State.reply_events (st : Status) (r : Result) : (s.reply st r).events = s.events := rfl
@[simp] theorem State.reply_pending (st : Status) (r : Result) : (s.reply st r).pending = s.pending := rfl
@[simp] theorem State.reply_draws (st : Status) (r : Result) : (s.reply st r).draws = s.draws := rfl
@[simp] theorem State.reply_freeDraws (st : Status) (r : Result) : (s.reply st r).freeDraws = s.freeDraws := rfl
@[simp] theorem State.reply_session (st : Status) (r : Result) : (s.reply st r).session = s.session := rfl

/-! ### emit -/

@[simp] theorem State.emit_params (e : Event) : (s.emit e).params = s.params := rfl
@[simp] theorem State.emit_life (e : Event) : (s.emit e).life = s.life := rfl
@[simp] theorem State.emit_gran (e : Event) : (s.emit e).gran = s.gran := rfl
@[simp] theorem State.emit_pool (e : Event) : (s.emit e).pool = s.pool := rfl
@[simp] theorem State.emit_txq (e : Event) : (s.emit e).txq = s.txq := rfl
@[simp] theorem State.emit_ring (e : Event) : (s.emit e).ring = s.ring := rfl
@[simp] theorem State.emit_expected (e : Event) : (s.emit e).expected = s.expected := rfl
@[simp] theorem State.emit_rxSeq (e : Event) : (s.emit e).rxSeq = s.rxSeq := rfl
@[simp] theorem State.emit_txSeq (e : Event) : (s.emit e).txSeq = s.txSeq := rfl
@[simp] theorem State.emit_lastValid (e : Event) : (s.emit e).lastValid = s.lastValid := rfl
@[simp] theorem State.emit_skipped (e : Event) : (s.emit e).skipped = s.skipped := rfl
@[simp] theorem State.emit_ignoreSkipped (e : Event) : (s.emit e).ignoreSkipped = s.ignoreSkipped := rfl
@[simp] theorem State.emit_chan (e : Event) : (s.emit e).chan = s.chan := rfl
@[simp] theorem State.emit_resp (e : Event) : (s.emit e).resp = s.resp := rfl
@[simp] theorem State.emit_events (e : Event) : (s.emit e).events = s.events ++ [e] := rfl
@[simp] theorem State.emit_pending (e : Event) : (s.emit e).pending = s.pending := rfl
@[simp] theorem State.emit_draws (e : Event) : (s.emit e).draws = s.draws := rfl
@[simp] theorem State.emit_freeDraws (e : Event) : (s.emit e).freeDraws = s.freeDraws := rfl
@[simp] theorem State.emit_session (e : Event) : (s.emit e).session = s.session := rfl

/-! ### modifyBuf -/

@[simp] theorem State.modifyBuf_params (h : Handle) (f : Buf → Buf) : (s.modifyBuf h f).params = s.params := rfl
@[simp] theorem State.modifyBuf_life (h : Handle) (f : Buf → Buf) : (s.modifyBuf h f).life = s.life := rfl
@[simp] theorem State.modifyBuf_gran (h : Handle) (f : Buf → Buf) : (s.modifyBuf h f).gran = s.gran := rfl
@[simp] theorem State.modifyBuf_pool (h : Handle) (f : Buf → Buf) : (s.modifyBuf h f).pool = s.pool.modify h.toNat f := rfl
@[simp] theorem State.modifyBuf_txq (h : Handle) (f : Buf → Buf) : (s.modifyBuf h f).txq = s.txq := rfl
@[simp] theorem State.modifyBuf_ring (h : Handle) (f : Buf → Buf) : (s.modifyBuf h f).ring = s.ring := rfl
@[simp] theorem State.modifyBuf_expected (h : Handle) (f : Buf → Buf) : (s.modifyBuf h f).expected = s.expected := rfl
@[simp] theorem State.modifyBuf_rxSeq (h : Handle) (f : Buf → Buf) : (s.modifyBuf h f).rxSeq = s.rxSeq := rfl
@[simp] theorem State.modifyBuf_txSeq (h : Handle) (f : Buf → Buf) : (s.modifyBuf h f).txSeq = s.txSeq := rfl
@[simp] theorem State.modifyBuf_lastValid (h : Handle) (f : Buf → Buf) : (s.modifyBuf h f).lastValid = s.lastValid := rfl
@[simp] theorem State.modifyBuf_skipped (h : Handle) (f : Buf → Buf) : (s.modifyBuf h f).skipped = s.skipped := rfl
@[simp] theorem State.modifyBuf_ignoreSkipped (h : Handle) (f : Buf → Buf) : (s.modifyBuf h f).ignoreSkipped = s.ignoreSkipped := rfl
@[simp] theorem State.modifyBuf_chan (h : Handle) (f : Buf → Buf) : (s.modifyBuf h f).chan = s.chan := rfl
@[simp] theorem State.modifyBuf_resp (h : Handle) (f : Buf → Buf) : (s.modifyBuf h f).resp = s.resp := rfl
@[simp] theorem State.modifyBuf_events (h : Handle) (f : Buf → Buf) : (s.modifyBuf h f).events = s.events := rfl
@[simp] theorem State.modifyBuf_pending (h : Handle) (f : Buf → Buf) : (s.modifyBuf h f).pending = s.pending := rfl
@[simp] theorem State.modifyBuf_draws (h : Handle) (f : Buf → Buf) : (s.modifyBuf h f).draws = s.draws := rfl
@[simp] theorem State.modifyBuf_freeDraws (h : Handle) (f : Buf → Buf) : (s.modifyBuf h f).freeDraws = s.freeDraws := rfl
@[simp] theorem State.modifyBuf_session (h : Handle) (f : Buf → Buf) : (s.modifyBuf h f).session = s.session := rfl

/-! ### modifyChan -/

@[simp] theorem State.modifyChan_params (c : Nat) (f : Chan → Chan) : (s.modifyChan c f).params = s.params := rfl
@[simp] theorem State.modifyChan_life (c : Nat) (f : Chan → Chan) : (s.modifyChan c f).life = s.life := rfl
@[simp] theorem State.modifyChan_gran (c : Nat) (f : Chan → Chan) : (s.modifyChan c f).gran = s.gran := rfl
@[simp] theorem State.modifyChan_pool (c : Nat) (f : Chan → Chan) : (s.modifyChan c f).pool = s.pool := rfl
@[simp] theorem State.modifyChan_txq (c : Nat) (f : Chan → Chan) : (s.modifyChan c f).txq = s.txq := rfl
@[simp] theorem State.modifyChan_ring (c : Nat) (f : Chan → Chan) : (s.modifyChan c f).ring = s.ring := rfl
@[simp] theorem State.modifyChan_expected (c : Nat) (f : Chan → Chan) : (s.modifyChan c f).expected = s.expected := rfl
@[simp] theorem State.modifyChan_rxSeq (c : Nat) (f : Chan → Chan) : (s.modifyChan c f).rxSeq = s.rxSeq := rfl
@[simp] theorem State.modifyChan_txSeq (c : Nat) (f : Chan → Chan) : (s.modifyChan c f).txSeq = s.txSeq := rfl
@[simp] theorem State.modifyChan_lastValid (c : Nat) (f : Chan → Chan) : (s.modifyChan c f).lastValid = s.lastValid := rfl
@[simp] theorem State.modifyChan_skipped (c : Nat) (f : Chan → Chan) : (s.modifyChan c f).skipped = s.skipped := rfl
@[simp] theorem State.modifyChan_ignoreSkipped (c : Nat) (f : Chan → Chan) : (s.modifyChan c f).ignoreSkipped = s.ignoreSkipped := rfl
@[simp] theorem State.modifyChan_chan (c : Nat) (f : Chan → Chan) : (s.modifyChan c f).chan = s.chan.modify c f := rfl
@[simp] theorem State.modifyChan_resp (c : Nat) (f : Chan → Chan) : (s.modifyChan c f).resp = s.resp := rfl
@[simp] theorem State.modifyChan_events (c : Nat) (f : Chan → Chan) : (s.modifyChan c f).events = s.events := rfl
@[simp] theorem State.modifyChan_pending (c : Nat) (f : Chan → Chan) : (s.modifyChan c f).pending = s.pending := rfl
@[simp] theorem State.modifyChan_draws (c : Nat) (f : Chan → Chan) : (s.modifyChan c f).draws = s.draws := rfl
@[simp] theorem State.modifyChan_freeDraws (c : Nat) (f : Chan → Chan) : (s.modifyChan c f).freeDraws = s.freeDraws := rfl
@[simp] theorem State.modifyChan_session (c : Nat) (f : Chan → Chan) : (s.modifyChan c f).session = s.session := rfl

/-! ### writeData -/

@[simp] theorem State.writeData_params (h : Handle) (off : Nat) (v : Byte) : (s.writeData h off v).params = s.params := rfl
@[simp] theorem State.writeData_life (h : Handle) (off : Nat) (v : Byte) : (s.writeData h off v).life = s.life := rfl
@[simp] theorem State.writeData_gran (h : Handle) (off : Nat) (v : Byte) : (s.writeData h off v).gran = s.gran := rfl
@[simp] theorem State.writeData_txq (h : Handle) (off : Nat) (v : Byte) : (s.writeData h off v).txq = s.txq := rfl
@[simp] theorem State.writeData_ring (h : Handle) (off : Nat) (v : Byte) : (s.writeData h off v).ring = s.ring := rfl
@[simp] theorem State.writeData_expected (h : Handle) (off : Nat) (v : Byte) : (s.writeData h off v).expected = s.expected := rfl
@[simp] theorem State.writeData_rxSeq (h : Handle) (off : Nat) (v : Byte) : (s.writeData h off v).rxSeq = s.rxSeq := rfl
@[simp] theorem State.writeData_txSeq (h : Handle) (off : Nat) (v : Byte) : (s.writeData h off v).txSeq = s.txSeq := rfl
@[simp] theorem State.writeData_lastValid (h : Handle) (off : Nat) (v : Byte) : (s.writeData h off v).lastValid = s.lastValid := rfl
@[simp] theorem State.writeData_skipped (h : Handle) (off : Nat) (v : Byte) : (s.writeData h off v).skipped = s.skipped := rfl
@[simp] theorem State.writeData_ignoreSkipped (h : Handle) (off : Nat) (v : Byte) : (s.writeData h off v).ignoreSkipped = s.ignoreSkipped := rfl
@[simp] theorem State.writeData_chan (h : Handle) (off : Nat) (v : Byte) : (s.writeData h off v).chan = s.chan := rfl
@[simp] theorem State.writeData_resp (h : Handle) (off : Nat) (v : Byte) : (s.writeData h off v).resp = s.resp := rfl
@[simp] theorem State.writeData_events (h : Handle) (off : Nat) (v : Byte) : (s.writeData h off v).events = s.events := rfl
@[simp] theorem State.writeData_pending (h : Handle) (off : Nat) (v : Byte) : (s.writeData h off v).pending = s.pending := rfl
@[simp] theorem State.writeData_draws (h : Handle) (off : Nat) (v : Byte) : (s.writeData h off v).draws = s.draws := rfl
@[simp] theorem State.writeData_freeDraws (h : Handle) (off : Nat) (v : Byte) : (s.writeData h off v).freeDraws = s.freeDraws := rfl
@[simp] theorem State.writeData_session (h : Handle) (off : Nat) (v : Byte) : (s.writeData h off v).session = s.session := rfl

/-! ### writeRange -/

@[simp] theorem State.writeRange_params (h : Handle) (off : Nat) (vs : List Byte) : (s.writeRange h off vs).params = s.params := rfl
@[simp] theorem State.writeRange_life (h : Handle) (off : Nat) (vs : List Byte) : (s.writeRange h off vs).life = s.life := rfl
@[simp] theorem State.writeRange_gran (h : Handle) (off : Nat) (vs : List Byte) : (s.writeRange h off vs).gran = s.gran := rfl
@[simp] theorem State.writeRange_txq (h : Handle) (off : Nat) (vs : List Byte) : (s.writeRange h off vs).txq = s.txq := rfl
@[simp] theorem State.writeRange_ring (h : Handle) (off : Nat) (vs : List Byte) : (s.writeRange h off vs).ring = s.ring := rfl
@[simp] theorem State.writeRange_expected (h : Handle) (off : Nat) (vs : List Byte) : (s.writeRange h off vs).expected = s.expected := rfl
@[simp] theorem State.writeRange_rxSeq (h : Handle) (off : Nat) (vs : List Byte) : (s.writeRange h off vs).rxSeq = s.rxSeq := rfl
@[simp] theorem State.writeRange_txSeq (h : Handle) (off : Nat) (vs : List Byte) : (s.writeRange h off vs).txSeq = s.txSeq := rfl
@[simp] theorem State.writeRange_lastValid (h : Handle) (off : Nat) (vs : List Byte) : (s.writeRange h off vs).lastValid = s.lastValid := rfl
@[simp] theorem State.writeRange_skipped (h : Handle) (off : Nat) (vs : List Byte) : (s.writeRange h off vs).skipped = s.skipped := rfl
@[simp] theorem State.writeRange_ignoreSkipped (h : Handle) (off : Nat) (vs : List Byte) : (s.writeRange h off vs).ignoreSkipped = s.ignoreSkipped := rfl
@[simp] theorem State.writeRange_chan (h : Handle) (off : Nat) (vs : List Byte) : (s.writeRange h off vs).chan = s.chan := rfl
@[simp] theorem State.writeRange_resp (h : Handle) (off : Nat) (vs : List Byte) : (s.writeRange h off vs).resp = s.resp := rfl
@[simp] theorem State.writeRange_events (h : Handle) (off : Nat) (vs : List Byte) : (s.writeRange h off vs).events = s.events := rfl
@[simp] theorem State.writeRange_pending (h : Handle) (off : Nat) (vs : List Byte) : (s.writeRange h off vs).pending = s.pending := rfl
@[simp] theorem State.writeRange_draws (h : Handle) (off : Nat) (vs : List Byte) : (s.writeRange h off vs).draws = s.draws := rfl
@[simp] theorem State.writeRange_freeDraws (h : Handle) (off : Nat) (vs : List Byte) : (s.writeRange h off vs).freeDraws = s.freeDraws := rfl
@[simp] theorem State.writeRange_session (h : Handle) (off : Nat) (vs : List Byte) : (s.writeRange h off vs).session = s.session := rfl

/-! ### setFrameLength -/

@[simp] theorem State.setFrameLength_params (h : Handle) (n : BitVec 8) : (s.setFrameLength h n).params = s.params := rfl
@[simp] theorem State.setFrameLength_life (h : Handle) (n : BitVec 8) : (s.setFrameLength h n).life = s.life := rfl
@[simp] theorem State.setFrameLength_gran (h : Handle) (n : BitVec 8) : (s.setFrameLength h n).gran = s.gran := rfl
@[simp] theorem State.setFrameLength_txq (h : Handle) (n : BitVec 8) : (s.setFrameLength h n).txq = s.txq := rfl
@[simp] theorem State.setFrameLength_ring (h : Handle) (n : BitVec 8) : (s.setFrameLength h n).ring = s.ring := rfl
@[simp] theorem State.setFrameLength_expected (h : Handle) (n : BitVec 8) : (s.setFrameLength h n).expected = s.expected := rfl
@[simp] theorem State.setFrameLength_rxSeq (h : Handle) (n : BitVec 8) : (s.setFrameLength h n).rxSeq = s.rxSeq := rfl
@[simp] theorem State.setFrameLength_txSeq (h : Handle) (n : BitVec 8) : (s.setFrameLength h n).txSeq = s.txSeq := rfl
@[simp] theorem State.setFrameLength_lastValid (h : Handle) (n : BitVec 8) : (s.setFrameLength h n).lastValid = s.lastValid := rfl
@[simp] theorem State.setFrameLength_skipped (h : Handle) (n : BitVec 8) : (s.setFrameLength h n).skipped = s.skipped := rfl
@[simp] theorem State.setFrameLength_ignoreSkipped (h : Handle) (n : BitVec 8) : (s.setFrameLength h n).ignoreSkipped = s.ignoreSkipped := rfl
@[simp] theorem State.setFrameLength_chan (h : Handle) (n : BitVec 8) : (s.setFrameLength h n).chan = s.chan := rfl
@[simp] theorem State.setFrameLength_resp (h : Handle) (n : BitVec 8) : (s.setFrameLength h n).resp = s.resp := rfl
@[simp] theorem State.setFrameLength_events (h : Handle) (n : BitVec 8) : (s.setFrameLength h n).events = s.events := rfl
@[simp] theorem State.setFrameLength_pending (h : Handle) (n : BitVec 8) : (s.setFrameLength h n).pending = s.pending := rfl
@[simp] theorem State.setFrameLength_draws (h : Handle) (n : BitVec 8) : (s.setFrameLength h n).draws = s.draws := rfl
@[simp] theorem State.setFrameLength_freeDraws (h : Handle) (n : BitVec 8) : (s.setFrameLength h n).freeDraws = s.freeDraws := rfl
@[simp] theorem State.setFrameLength_session (h : Handle) (n : BitVec 8) : (s.setFrameLength h n).session = s.session := rfl

/-! ### setPayloadLength -/

@[simp] theorem State.setPayloadLength_params (h : Handle) (n : BitVec 8) : (s.setPayloadLength h n).params = s.params := rfl
@[simp] theorem State.setPayloadLength_life (h : Handle) (n : BitVec 8) : (s.setPayloadLength h n).life = s.life := rfl
@[simp] theorem State.setPayloadLength_gran (h : Handle) (n : BitVec 8) : (s.setPayloadLength h n).gran = s.gran := rfl
@[simp] theorem State.setPayloadLength_txq (h : Handle) (n : BitVec 8) : (s.setPayloadLength h n).txq = s.txq := rfl
@[simp] theorem State.setPayloadLength_ring (h : Handle) (n : BitVec 8) : (s.setPayloadLength h n).ring = s.ring := rfl
@[simp] theorem State.setPayloadLength_expected (h : Handle) (n : BitVec 8) : (s.setPayloadLength h n).expected = s.expected := rfl
@[simp] theorem State.setPayloadLength_rxSeq (h : Handle) (n : BitVec 8) : (s.setPayloadLength h n).rxSeq = s.rxSeq := rfl
@[simp] theorem State.setPayloadLength_txSeq (h : Handle) (n : BitVec 8) : (s.setPayloadLength h n).txSeq = s.txSeq := rfl
@[simp] theorem State.setPayloadLength_lastValid (h : Handle) (n : BitVec 8) : (s.setPayloadLength h n).lastValid = s.lastValid := rfl
@[simp] theorem State.setPayloadLength_skipped (h : Handle) (n : BitVec 8) : (s.setPayloadLength h n).skipped = s.skipped := rfl
@[simp] theorem State.setPayloadLength_ignoreSkipped (h : Handle) (n : BitVec 8) : (s.setPayloadLength h n).ignoreSkipped = s.ignoreSkipped := rfl
@[simp] theorem State.setPayloadLength_chan (h : Handle) (n : BitVec 8) : (s.setPayloadLength h n).chan = s.chan := rfl
@[simp] theorem State.setPayloadLength_resp (h : Handle) (n : BitVec 8) : (s.setPayloadLength h n).resp = s.resp := rfl
@[simp] theorem State.setPayloadLength_events (h : Handle) (n : BitVec 8) : (s.setPayloadLength h n).events = s.events := rfl
@[simp] theorem State.setPayloadLength_pending (h : Handle) (n : BitVec 8) : (s.setPayloadLength h n).pending = s.pending := rfl
@[simp] theorem State.setPayloadLength_draws (h : Handle) (n : BitVec 8) : (s.setPayloadLength h n).draws = s.draws := rfl
@[simp] theorem State.setPayloadLength_freeDraws (h : Handle) (n : BitVec 8) : (s.setPayloadLength h n).freeDraws = s.freeDraws := rfl
@[simp] theorem State.setPayloadLength_session (h : Handle) (n : BitVec 8) : (s.setPayloadLength h n).session = s.session := rfl

/-! ### setRefcount -/

@[simp] theorem State.setRefcount_params (h : Handle) (n : Nat) : (s.setRefcount h n).params = s.params := rfl
@[simp] theorem State.setRefcount_life (h : Handle) (n : Nat) : (s.setRefcount h n).life = s.life := rfl
@[simp] theorem State.setRefcount_gran (h : Handle) (n : Nat) : (s.setRefcount h n).gran = s.gran := rfl
@[simp] theorem State.setRefcount_txq (h : Handle) (n : Nat) : (s.setRefcount h n).txq = s.txq := rfl
@[simp] theorem State.setRefcount_ring (h : Handle) (n : Nat) : (s.setRefcount h n).ring = s.ring := rfl
@[simp] theorem State.setRefcount_expected (h : Handle) (n : Nat) : (s.setRefcount h n).expected = s.expected := rfl
@[simp] theorem State.setRefcount_rxSeq (h : Handle) (n : Nat) : (s.setRefcount h n).rxSeq = s.rxSeq := rfl
@[simp] theorem State.setRefcount_txSeq (h : Handle) (n : Nat) : (s.setRefcount h n).txSeq = s.txSeq := rfl
@[simp] theorem State.setRefcount_lastValid (h : Handle) (n : Nat) : (s.setRefcount h n).lastValid = s.lastValid := rfl
@[simp] theorem State.setRefcount_skipped (h : Handle) (n : Nat) : (s.setRefcount h n).skipped = s.skipped := rfl
@[simp] theorem State.setRefcount_ignoreSkipped (h : Handle) (n : Nat) : (s.setRefcount h n).ignoreSkipped = s.ignoreSkipped := rfl
@[simp] theorem State.setRefcount_chan (h : Handle) (n : Nat) : (s.setRefcount h n).chan = s.chan := rfl
@[simp] theorem State.setRefcount_resp (h : Handle) (n : Nat) : (s.setRefcount h n).resp = s.resp := rfl
@[simp] theorem State.setRefcount_events (h : Handle) (n : Nat) : (s.setRefcount h n).events = s.events := rfl
@[simp] theorem State.setRefcount_pending (h : Handle) (n : Nat) : (s.setRefcount h n).pending = s.pending := rfl
@[simp] theorem State.setRefcount_draws (h : Handle) (n : Nat) : (s.setRefcount h n).draws = s.draws := rfl
@[simp] theorem State.setRefcount_freeDraws (h : Handle) (n : Nat) : (s.setRefcount h n).freeDraws = s.freeDraws := rfl
@[simp] theorem State.setRefcount_session (h : Handle) (n : Nat) : (s.setRefcount h n).session = s.session := rfl

/-! ### scrub -/

@[simp] theorem State.scrub_params (h : Handle) : (s.scrub h).params = s.params := rfl
@[simp] theorem State.scrub_life (h : Handle) : (s.scrub h).life = s.life := rfl
@[simp] theorem State.scrub_gran (h : Handle) : (s.scrub h).gran = s.gran := rfl
@[simp] theorem State.scrub_txq (h : Handle) : (s.scrub h).txq = s.txq := rfl
@[simp] theorem State.scrub_ring (h : Handle) : (s.scrub h).ring = s.ring := rfl
@[simp] theorem State.scrub_expected (h : Handle) : (s.scrub h).expected = s.expected := rfl
@[simp] theorem State.scrub_rxSeq (h : Handle) : (s.scrub h).rxSeq = s.rxSeq := rfl
@[simp] theorem State.scrub_txSeq (h : Handle) : (s.scrub h).txSeq = s.txSeq := rfl
@[simp] theorem State.scrub_lastValid (h : Handle) : (s.scrub h).lastValid = s.lastValid := rfl
@[simp] theorem State.scrub_skipped (h : Handle) : (s.scrub h).skipped = s.skipped := rfl
@[simp] theorem State.scrub_ignoreSkipped (h : Handle) : (s.scrub h).ignoreSkipped = s.ignoreSkipped := rfl
@[simp] theorem State.scrub_chan (h : Handle) : (s.scrub h).chan = s.chan := rfl
@[simp] theorem State.scrub_resp (h : Handle) : (s.scrub h).resp = s.resp := rfl
@[simp] theorem State.scrub_events (h : Handle) : (s.scrub h).events = s.events := rfl
@[simp] theorem State.scrub_pending (h : Handle) : (s.scrub h).pending = s.pending := rfl
@[simp] theorem State.scrub_draws (h : Handle) : (s.scrub h).draws = s.draws := rfl
@[simp] theorem State.scrub_freeDraws (h : Handle) : (s.scrub h).freeDraws = s.freeDraws := rfl
@[simp] theorem State.scrub_session (h : Handle) : (s.scrub h).session = s.session := rfl

/-! ### takeBuf -/

@[simp] theorem State.takeBuf_params (h : Handle) : (s.takeBuf h).params = s.params := rfl
@[simp] theorem State.takeBuf_life (h : Handle) : (s.takeBuf h).life = s.life := rfl
@[simp] theorem State.takeBuf_gran (h : Handle) : (s.takeBuf h).gran = s.gran := rfl
@[simp] theorem State.takeBuf_txq (h : Handle) : (s.takeBuf h).txq = s.txq := rfl
@[simp] theorem State.takeBuf_ring (h : Handle) : (s.takeBuf h).ring = s.ring := rfl
@[simp] theorem State.takeBuf_expected (h : Handle) : (s.takeBuf h).expected = s.expected := rfl
@[simp] theorem State.takeBuf_rxSeq (h : Handle) : (s.takeBuf h).rxSeq = s.rxSeq := rfl
@[simp] theorem State.takeBuf_txSeq (h : Handle) : (s.takeBuf h).txSeq = s.txSeq := rfl
@[simp] theorem State.takeBuf_lastValid (h : Handle) : (s.takeBuf h).lastValid = s.lastValid := rfl
@[simp] theorem State.takeBuf_skipped (h : Handle) : (s.takeBuf h).skipped = s.skipped := rfl
@[simp] theorem State.takeBuf_ignoreSkipped (h : Handle) : (s.takeBuf h).ignoreSkipped = s.ignoreSkipped := rfl
@[simp] theorem State.takeBuf_chan (h : Handle) : (s.takeBuf h).chan = s.chan := rfl
@[simp] theorem State.takeBuf_resp (h : Handle) : (s.takeBuf h).resp = s.resp := rfl
@[simp] theorem State.takeBuf_events (h : Handle) : (s.takeBuf h).events = s.events := rfl
@[simp] theorem State.takeBuf_pending (h : Handle) : (s.takeBuf h).pending = s.pending := rfl
@[simp] theorem State.takeBuf_draws (h : Handle) : (s.takeBuf h).draws = s.draws := rfl
@[simp] theorem State.takeBuf_freeDraws (h : Handle) : (s.takeBuf h).freeDraws = s.freeDraws := rfl
@[simp] theorem State.takeBuf_session (h : Handle) : (s.takeBuf h).session = s.session := rfl

/-! ### fillFromRing -/

@[simp] theorem State.fillFromRing_params (h : Handle) (fl : Nat) : (s.fillFromRing h fl).params = s.params := rfl
@[simp] theorem State.fillFromRing_life (h : Handle) (fl : Nat) : (s.fillFromRing h fl).life = s.life := rfl
@[simp] theorem State.fillFromRing_gran (h : Handle) (fl : Nat) : (s.fillFromRing h fl).gran = s.gran := rfl
@[simp] theorem State.fillFromRing_txq (h : Handle) (fl : Nat) : (s.fillFromRing h fl).txq = s.txq := rfl
@[simp] theorem State.fillFromRing_ring (h : Handle) (fl : Nat) : (s.fillFromRing h fl).ring = s.ring := rfl
@[simp] theorem State.fillFromRing_expected (h : Handle) (fl : Nat) : (s.fillFromRing h fl).expected = s.expected := rfl
@[simp] theorem State.fillFromRing_rxSeq (h : Handle) (fl : Nat) : (s.fillFromRing h fl).rxSeq = s.rxSeq := rfl
@[simp] theorem State.fillFromRing_txSeq (h : Handle) (fl : Nat) : (s.fillFromRing h fl).txSeq = s.txSeq := rfl
@[simp] theorem State.fillFromRing_lastValid (h : Handle) (fl : Nat) : (s.fillFromRing h fl).lastValid = s.lastValid := rfl
@[simp] theorem State.fillFromRing_skipped (h : Handle) (fl : Nat) : (s.fillFromRing h fl).skipped = s.skipped := rfl
@[simp] theorem State.fillFromRing_ignoreSkipped (h : Handle) (fl : Nat) : (s.fillFromRing h fl).ignoreSkipped = s.ignoreSkipped := rfl
@[simp] theorem State.fillFromRing_chan (h : Handle) (fl : Nat) : (s.fillFromRing h fl).chan = s.chan := rfl
@[simp] theorem State.fillFromRing_resp (h : Handle) (fl : Nat) : (s.fillFromRing h fl).resp = s.resp := rfl
@[simp] theorem State.fillFromRing_events (h : Handle) (fl : Nat) : (s.fillFromRing h fl).events = s.events := rfl
@[simp] theorem State.fillFromRing_pending (h : Handle) (fl : Nat) : (s.fillFromRing h fl).pending = s.pending := rfl
@[simp] theorem State.fillFromRing_draws (h : Handle) (fl : Nat) : (s.fillFromRing h fl).draws = s.draws := rfl
@[simp] theorem State.fillFromRing_freeDraws (h : Handle) (fl : Nat) : (s.fillFromRing h fl).freeDraws = s.freeDraws := rfl
@[simp] theorem State.fillFromRing_session (h : Handle) (fl : Nat) : (s.fillFromRing h fl).session = s.session := rfl

/-! ### writeFrameHead -/

@[simp] theorem State.writeFrameHead_params (h : Handle) (c p : Byte) (l fl : Nat) : (s.writeFrameHead h c p l fl).params = s.params := rfl
@[simp] theorem State.writeFrameHead_life (h : Handle) (c p : Byte) (l fl : Nat) : (s.writeFrameHead h c p l fl).life = s.life := rfl
@[simp] theorem State.writeFrameHead_gran (h : Handle) (c p : Byte) (l fl : Nat) : (s.writeFrameHead h c p l fl).gran = s.gran := rfl
@[simp] theorem State.writeFrameHead_txq (h : Handle) (c p : Byte) (l fl : Nat) : (s.writeFrameHead h c p l fl).txq = s.txq := rfl
@[simp] theorem State.writeFrameHead_ring (h : Handle) (c p : Byte) (l fl : Nat) : (s.writeFrameHead h c p l fl).ring = s.ring := rfl
@[simp] theorem State.writeFrameHead_expected (h : Handle) (c p : Byte) (l fl : Nat) : (s.writeFrameHead h c p l fl).expected = s.expected := rfl
@[simp] theorem State.writeFrameHead_rxSeq (h : Handle) (c p : Byte) (l fl : Nat) : (s.writeFrameHead h c p l fl).rxSeq = s.rxSeq := rfl
@[simp] theorem State.writeFrameHead_txSeq (h : Handle) (c p : Byte) (l fl : Nat) : (s.writeFrameHead h c p l fl).txSeq = s.txSeq := rfl
@[simp] theorem State.writeFrameHead_lastValid (h : Handle) (c p : Byte) (l fl : Nat) : (s.writeFrameHead h c p l fl).lastValid = s.lastValid := rfl
@[simp] theorem State.writeFrameHead_skipped (h : Handle) (c p : Byte) (l fl : Nat) : (s.writeFrameHead h c p l fl).skipped = s.skipped := rfl
@[simp] theorem State.writeFrameHead_ignoreSkipped (h : Handle) (c p : Byte) (l fl : Nat) : (s.writeFrameHead h c p l fl).ignoreSkipped = s.ignoreSkipped := rfl
@[simp] theorem State.writeFrameHead_chan (h : Handle) (c p : Byte) (l fl : Nat) : (s.writeFrameHead h c p l fl).chan = s.chan := rfl
@[simp] theorem State.writeFrameHead_resp (h : Handle) (c p : Byte) (l fl : Nat) : (s.writeFrameHead h c p l fl).resp = s.resp := rfl
@[simp] theorem State.writeFrameHead_events (h : Handle) (c p : Byte) (l fl : Nat) : (s.writeFrameHead h c p l fl).events = s.events := rfl
@[simp] theorem State.writeFrameHead_pending (h : Handle) (c p : Byte) (l fl : Nat) : (s.writeFrameHead h c p l fl).pending = s.pending := rfl
@[simp] theorem State.writeFrameHead_draws (h : Handle) (c p : Byte) (l fl : Nat) : (s.writeFrameHead h c p l fl).draws = s.draws := rfl
@[simp] theorem State.writeFrameHead_freeDraws (h : Handle) (c p : Byte) (l fl : Nat) : (s.writeFrameHead h c p l fl).freeDraws = s.freeDraws := rfl
@[simp] theorem State.writeFrameHead_session (h : Handle) (c p : Byte) (l fl : Nat) : (s.writeFrameHead h c p l fl).session = s.session := rfl

/-! ### stampFrame -/

@[simp] theorem State.stampFrame_params (h : Handle) (fl : Nat) : (s.stampFrame h fl).params = s.params := rfl
@[simp] theorem State.stampFrame_life (h : Handle) (fl : Nat) : (s.stampFrame h fl).life = s.life := rfl
@[simp] theorem State.stampFrame_gran (h : Handle) (fl : Nat) : (s.stampFrame h fl).gran = s.gran := rfl
@[simp] theorem State.stampFrame_txq (h : Handle) (fl : Nat) : (s.stampFrame h fl).txq = s.txq := rfl
@[simp] theorem State.stampFrame_ring (h : Handle) (fl : Nat) : (s.stampFrame h fl).ring = s.ring := rfl
@[simp] theorem State.stampFrame_expected (h : Handle) (fl : Nat) : (s.stampFrame h fl).expected = s.expected := rfl
@[simp] theorem State.stampFrame_rxSeq (h : Handle) (fl : Nat) : (s.stampFrame h fl).rxSeq = s.rxSeq := rfl
@[simp] theorem State.stampFrame_txSeq (h : Handle) (fl : Nat) : (s.stampFrame h fl).txSeq = s.txSeq := rfl
@[simp] theorem State.stampFrame_lastValid (h : Handle) (fl : Nat) : (s.stampFrame h fl).lastValid = s.lastValid := rfl
@[simp] theorem State.stampFrame_skipped (h : Handle) (fl : Nat) : (s.stampFrame h fl).skipped = s.skipped := rfl
@[simp] theorem State.stampFrame_ignoreSkipped (h : Handle) (fl : Nat) : (s.stampFrame h fl).ignoreSkipped = s.ignoreSkipped := rfl
@[simp] theorem State.stampFrame_chan (h : Handle) (fl : Nat) : (s.stampFrame h fl).chan = s.chan := rfl
@[simp] theorem State.stampFrame_resp (h : Handle) (fl : Nat) : (s.stampFrame h fl).resp = s.resp := rfl
@[simp] theorem State.stampFrame_events (h : Handle) (fl : Nat) : (s.stampFrame h fl).events = s.events := rfl
@[simp] theorem State.stampFrame_pending (h : Handle) (fl : Nat) : (s.stampFrame h fl).pending = s.pending := rfl
@[simp] theorem State.stampFrame_draws (h : Handle) (fl : Nat) : (s.stampFrame h fl).draws = s.draws := rfl
@[simp] theorem State.stampFrame_freeDraws (h : Handle) (fl : Nat) : (s.stampFrame h fl).freeDraws = s.freeDraws := rfl
@[simp] theorem State.stampFrame_session (h : Handle) (fl : Nat) : (s.stampFrame h fl).session = s.session := rfl

/-! ### ringRelease -/

@[simp] theorem State.ringRelease_params (n : Nat) : (s.ringRelease n).params = s.params := rfl
@[simp] theorem State.ringRelease_life (n : Nat) : (s.ringRelease n).life = s.life := rfl
@[simp] theorem State.ringRelease_gran (n : Nat) : (s.ringRelease n).gran = s.gran := rfl
@[simp] theorem State.ringRelease_pool (n : Nat) : (s.ringRelease n).pool = s.pool := rfl
@[simp] theorem State.ringRelease_txq (n : Nat) : (s.ringRelease n).txq = s.txq := rfl
@[simp] theorem State.ringRelease_ring (n : Nat) : (s.ringRelease n).ring = { s.ring with current := s.ring.current + BitVec.ofNat 8 n } := rfl
@[simp] theorem State.ringRelease_expected (n : Nat) : (s.ringRelease n).expected = s.expected := rfl
@[simp] theorem State.ringRelease_rxSeq (n : Nat) : (s.ringRelease n).rxSeq = s.rxSeq := rfl
@[simp] theorem State.ringRelease_txSeq (n : Nat) : (s.ringRelease n).txSeq = s.txSeq := rfl
@[simp] theorem State.ringRelease_lastValid (n : Nat) : (s.ringRelease n).lastValid = s.lastValid := rfl
@[simp] theorem State.ringRelease_skipped (n : Nat) : (s.ringRelease n).skipped = s.skipped := rfl
@[simp] theorem State.ringRelease_ignoreSkipped (n : Nat) : (s.ringRelease n).ignoreSkipped = s.ignoreSkipped := rfl
@[simp] theorem State.ringRelease_chan (n : Nat) : (s.ringRelease n).chan = s.chan := rfl
@[simp] theorem State.ringRelease_resp (n : Nat) : (s.ringRelease n).resp = s.resp := rfl
@[simp] theorem State.ringRelease_events (n : Nat) : (s.ringRelease n).events = s.events := rfl
@[simp] theorem State.ringRelease_pending (n : Nat) : (s.ringRelease n).pending = s.pending := rfl
@[simp] theorem State.ringRelease_draws (n : Nat) : (s.ringRelease n).draws = s.draws := rfl
@[simp] theorem State.ringRelease_freeDraws (n : Nat) : (s.ringRelease n).freeDraws = s.freeDraws := rfl
@[simp] theorem State.ringRelease_session (n : Nat) : (s.ringRelease n).session = s.session := rfl

/-! ### setLastValid -/

@[simp] theorem State.setLastValid_params (v : Bool) : (s.setLastValid v).params = s.params := rfl
@[simp] theorem State.setLastValid_life (v : Bool) : (s.setLastValid v).life = s.life := rfl
@[simp] theorem State.setLastValid_gran (v : Bool) : (s.setLastValid v).gran = s.gran := rfl
@[simp] theorem State.setLastValid_pool (v : Bool) : (s.setLastValid v).pool = s.pool := rfl
@[simp] theorem State.setLastValid_txq (v : Bool) : (s.setLastValid v).txq = s.txq := rfl
@[simp] theorem State.setLastValid_ring (v : Bool) : (s.setLastValid v).ring = s.ring := rfl
@[simp] theorem State.setLastValid_expected (v : Bool) : (s.setLastValid v).expected = s.expected := rfl
@[simp] theorem State.setLastValid_rxSeq (v : Bool) : (s.setLastValid v).rxSeq = s.rxSeq := rfl
@[simp] theorem State.setLastValid_txSeq (v : Bool) : (s.setLastValid v).txSeq = s.txSeq := rfl
@[simp] theorem State.setLastValid_lastValid (v : Bool) : (s.setLastValid v).lastValid = v := rfl
@[simp] theorem State.setLastValid_skipped (v : Bool) : (s.setLastValid v).skipped = s.skipped := rfl
@[simp] theorem State.setLastValid_ignoreSkipped (v : Bool) : (s.setLastValid v).ignoreSkipped = s.ignoreSkipped := rfl
@[simp] theorem State.setLastValid_chan (v : Bool) : (s.setLastValid v).chan = s.chan := rfl
@[simp] theorem State.setLastValid_resp (v : Bool) : (s.setLastValid v).resp = s.resp := rfl
@[simp] theorem State.setLastValid_events (v : Bool) : (s.setLastValid v).events = s.events := rfl
@[simp] theorem State.setLastValid_pending (v : Bool) : (s.setLastValid v).pending = s.pending := rfl
@[simp] theorem State.setLastValid_draws (v : Bool) : (s.setLastValid v).draws = s.draws := rfl
@[simp] theorem State.setLastValid_freeDraws (v : Bool) : (s.setLastValid v).freeDraws = s.freeDraws := rfl
@[simp] theorem State.setLastValid_session (v : Bool) : (s.setLastValid v).session = s.session := rfl

/-! ### setExpected -/

@[simp] theorem State.setExpected_params (n : BitVec 8) : (s.setExpected n).params = s.params := rfl
@[simp] theorem State.setExpected_life (n : BitVec 8) : (s.setExpected n).life = s.life := rfl
@[simp] theorem State.setExpected_gran (n : BitVec 8) : (s.setExpected n).gran = s.gran := rfl
@[simp] theorem State.setExpected_pool (n : BitVec 8) : (s.setExpected n).pool = s.pool := rfl
@[simp] theorem State.setExpected_txq (n : BitVec 8) : (s.setExpected n).txq = s.txq := rfl
@[simp] theorem State.setExpected_ring (n : BitVec 8) : (s.setExpected n).ring = s.ring := rfl
@[simp] theorem State.setExpected_expected (n : BitVec 8) : (s.setExpected n).expected = n := rfl
@[simp] theorem State.setExpected_rxSeq (n : BitVec 8) : (s.setExpected n).rxSeq = s.rxSeq := rfl
@[simp] theorem State.setExpected_txSeq (n : BitVec 8) : (s.setExpected n).txSeq = s.txSeq := rfl
@[simp] theorem State.setExpected_lastValid (n : BitVec 8) : (s.setExpected n).lastValid = s.lastValid := rfl
@[simp] theorem State.setExpected_skipped (n : BitVec 8) : (s.setExpected n).skipped = s.skipped := rfl
@[simp] theorem State.setExpected_ignoreSkipped (n : BitVec 8) : (s.setExpected n).ignoreSkipped = s.ignoreSkipped := rfl
@[simp] theorem State.setExpected_chan (n : BitVec 8) : (s.setExpected n).chan = s.chan := rfl
@[simp] theorem State.setExpected_resp (n : BitVec 8) : (s.setExpected n).resp = s.resp := rfl
@[simp] theorem State.setExpected_events (n : BitVec 8) : (s.setExpected n).events = s.events := rfl
@[simp] theorem State.setExpected_pending (n : BitVec 8) : (s.setExpected n).pending = s.pending := rfl
@[simp] theorem State.setExpected_draws (n : BitVec 8) : (s.setExpected n).draws = s.draws := rfl
@[simp] theorem State.setExpected_freeDraws (n : BitVec 8) : (s.setExpected n).freeDraws = s.freeDraws := rfl
@[simp] theorem State.setExpected_session (n : BitVec 8) : (s.setExpected n).session = s.session := rfl

/-! ### countSkipped -/

@[simp] theorem State.countSkipped_params (b : Byte) : (s.countSkipped b).params = s.params := rfl
@[simp] theorem State.countSkipped_life (b : Byte) : (s.countSkipped b).life = s.life := rfl
@[simp] theorem State.countSkipped_gran (b : Byte) : (s.countSkipped b).gran = s.gran := rfl
@[simp] theorem State.countSkipped_pool (b : Byte) : (s.countSkipped b).pool = s.pool := rfl
@[simp] theorem State.countSkipped_txq (b : Byte) : (s.countSkipped b).txq = s.txq := rfl
@[simp] theorem State.countSkipped_ring (b : Byte) : (s.countSkipped b).ring = s.ring := rfl
@[simp] theorem State.countSkipped_expected (b : Byte) : (s.countSkipped b).expected = s.expected := rfl
@[simp] theorem State.countSkipped_rxSeq (b : Byte) : (s.countSkipped b).rxSeq = s.rxSeq := rfl
@[simp] theorem State.countSkipped_txSeq (b : Byte) : (s.countSkipped b).txSeq = s.txSeq := rfl
@[simp] theorem State.countSkipped_lastValid (b : Byte) : (s.countSkipped b).lastValid = s.lastValid := rfl
@[simp] theorem State.countSkipped_skipped (b : Byte) : (s.countSkipped b).skipped = s.skipped + 1 := rfl
@[simp] theorem State.countSkipped_chan (b : Byte) : (s.countSkipped b).chan = s.chan := rfl
@[simp] theorem State.countSkipped_resp (b : Byte) : (s.countSkipped b).resp = s.resp := rfl
@[simp] theorem State.countSkipped_events (b : Byte) : (s.countSkipped b).events = s.events := rfl
@[simp] theorem State.countSkipped_pending (b : Byte) : (s.countSkipped b).pending = s.pending := rfl
@[simp] theorem State.countSkipped_draws (b : Byte) : (s.countSkipped b).draws = s.draws := rfl
@[simp] theorem State.countSkipped_freeDraws (b : Byte) : (s.countSkipped b).freeDraws = s.freeDraws := rfl
@[simp] theorem State.countSkipped_session (b : Byte) : (s.countSkipped b).session = s.session := rfl

/-! ### initSession -/

@[simp] theorem State.initSession_params (g : Gran) : (s.initSession g).params = s.params := rfl
@[simp] theorem State.initSession_life (g : Gran) : (s.initSession g).life = .active := rfl
@[simp] theorem State.initSession_gran (g : Gran) : (s.initSession g).gran = g := rfl
@[simp] theorem State.initSession_pool (g : Gran) : (s.initSession g).pool = List.replicate s.params.poolBlocks Buf.fresh := rfl
@[simp] theorem State.initSession_txq (g : Gran) : (s.initSession g).txq = { slot := [], rd := 0, wr := 0 } := rfl
@[simp] theorem State.initSession_ring (g : Gran) : (s.initSession g).ring = { buf := [], current := 0, next := 0 } := rfl
@[simp] theorem State.initSession_expected (g : Gran) : (s.initSession g).expected = 0 := rfl
@[simp] theorem State.initSession_rxSeq (g : Gran) : (s.initSession g).rxSeq = 0 := rfl
@[simp] theorem State.initSession_txSeq (g : Gran) : (s.initSession g).txSeq = 0 := rfl
@[simp] theorem State.initSession_lastValid (g : Gran) : (s.initSession g).lastValid = false := rfl
@[simp] theorem State.initSession_skipped (g : Gran) : (s.initSession g).skipped = 0 := rfl
@[simp] theorem State.initSession_ignoreSkipped (g : Gran) : (s.initSession g).ignoreSkipped = true := rfl
@[simp] theorem State.initSession_chan (g : Gran) : (s.initSession g).chan = s.chan := rfl
@[simp] theorem State.initSession_resp (g : Gran) : (s.initSession g).resp = s.resp := rfl
@[simp] theorem State.initSession_events (g : Gran) : (s.initSession g).events = s.events := rfl
@[simp] theorem State.initSession_pending (g : Gran) : (s.initSession g).pending = s.pending := rfl
@[simp] theorem State.initSession_draws (g : Gran) : (s.initSession g).draws = s.draws := rfl
@[simp] theorem State.initSession_freeDraws (g : Gran) : (s.initSession g).freeDraws = s.freeDraws := rfl
@[simp] theorem State.initSession_session (g : Gran) : (s.initSession g).session = s.session + 1 := rfl

/-! ### issueFirst -/

@[simp] theorem State.issueFirst_params (r : Request) : (s.issueFirst r).params = s.params := rfl
@[simp] theorem State.issueFirst_life (r : Request) : (s.issueFirst r).life = s.life := rfl
@[simp] theorem State.issueFirst_gran (r : Request) : (s.issueFirst r).gran = s.gran := rfl
@[simp] theorem State.issueFirst_pool (r : Request) : (s.issueFirst r).pool = s.pool := rfl
@[simp] theorem State.issueFirst_txq (r : Request) : (s.issueFirst r).txq = s.txq := rfl
@[simp] theorem State.issueFirst_ring (r : Request) : (s.issueFirst r).ring = s.ring := rfl
@[simp] theorem State.issueFirst_expected (r : Request) : (s.issueFirst r).expected = s.expected := rfl
@[simp] theorem State.issueFirst_rxSeq (r : Request) : (s.issueFirst r).rxSeq = s.rxSeq := rfl
@[simp] theorem State.issueFirst_txSeq (r : Request) : (s.issueFirst r).txSeq = s.txSeq := rfl
@[simp] theorem State.issueFirst_lastValid (r : Request) : (s.issueFirst r).lastValid = s.lastValid := rfl
@[simp] theorem State.issueFirst_skipped (r : Request) : (s.issueFirst r).skipped = s.skipped := rfl
@[simp] theorem State.issueFirst_ignoreSkipped (r : Request) : (s.issueFirst r).ignoreSkipped = s.ignoreSkipped := rfl
@[simp] theorem State.issueFirst_chan (r : Request) : (s.issueFirst r).chan = s.chan := rfl
@[simp] theorem State.issueFirst_resp (r : Request) : (s.issueFirst r).resp = s.resp := rfl
@[simp] theorem State.issueFirst_events (r : Request) : (s.issueFirst r).events = s.events := rfl
@[simp] theorem State.issueFirst_pending (r : Request) : (s.issueFirst r).pending = r :: s.pending := rfl
@[simp] theorem State.issueFirst_draws (r : Request) : (s.issueFirst r).draws = s.draws := rfl
@[simp] theorem State.issueFirst_freeDraws (r : Request) : (s.issueFirst r).freeDraws = s.freeDraws := rfl
@[simp] theorem State.issueFirst_session (r : Request) : (s.issueFirst r).session = s.session := rfl

/-! ### issue -/

@[simp] theorem State.issue_params (r : Request) : (s.issue r).params = s.params := rfl
@[simp] theorem State.issue_life (r : Request) : (s.issue r).life = s.life := rfl
@[simp] theorem State.issue_gran (r : Request) : (s.issue r).gran = s.gran := rfl
@[simp] theorem State.issue_pool (r : Request) : (s.issue r).pool = s.pool := rfl
@[simp] theorem State.issue_txq (r : Request) : (s.issue r).txq = s.txq := rfl
@[simp] theorem State.issue_ring (r : Request) : (s.issue r).ring = s.ring := rfl
@[simp] theorem State.issue_expected (r : Request) : (s.issue r).expected = s.expected := rfl
@[simp] theorem State.issue_rxSeq (r : Request) : (s.issue r).rxSeq = s.rxSeq := rfl
@[simp] theorem State.issue_txSeq (r : Request) : (s.issue r).txSeq = s.txSeq := rfl
@[simp] theorem State.issue_lastValid (r : Request) : (s.issue r).lastValid = s.lastValid := rfl
@[simp] theorem State.issue_skipped (r : Request) : (s.issue r).skipped = s.skipped := rfl
@[simp] theorem State.issue_ignoreSkipped (r : Request) : (s.issue r).ignoreSkipped = s.ignoreSkipped := rfl
@[simp] theorem State.issue_chan (r : Request) : (s.issue r).chan = s.chan := rfl
@[simp] theorem State.issue_resp (r : Request) : (s.issue r).resp = s.resp := rfl
@[simp] theorem State.issue_events (r : Request) : (s.issue r).events = s.events := rfl
@[simp] theorem State.issue_pending (r : Request) : (s.issue r).pending = s.pending ++ [r] := rfl
@[simp] theorem State.issue_draws (r : Request) : (s.issue r).draws = s.draws := rfl
@[simp] theorem State.issue_freeDraws (r : Request) : (s.issue r).freeDraws = s.freeDraws := rfl
@[simp] theorem State.issue_session (r : Request) : (s.issue r).session = s.session := rfl

/-! ### afterDraw -/

@[simp] theorem State.afterDraw_params : s.afterDraw.params = s.params := by
  unfold State.afterDraw; split <;> simp_all
@[simp] theorem State.afterDraw_life : s.afterDraw.life = s.life := by
  unfold State.afterDraw; split <;> simp_all
@[simp] theorem State.afterDraw_gran : s.afterDraw.gran = s.gran := by
  unfold State.afterDraw; split <;> simp_all
@[simp] theorem State.afterDraw_pool : s.afterDraw.pool = s.pool := by
  unfold State.afterDraw; split <;> simp_all
@[simp] theorem State.afterDraw_txq : s.afterDraw.txq = s.txq := by
  unfold State.afterDraw; split <;> simp_all
@[simp] theorem State.afterDraw_ring : s.afterDraw.ring = s.ring := by
  unfold State.afterDraw; split <;> simp_all
@[simp] theorem State.afterDraw_expected : s.afterDraw.expected = s.expected := by
  unfold State.afterDraw; split <;> simp_all
@[simp] theorem State.afterDraw_rxSeq : s.afterDraw.rxSeq = s.rxSeq := by
  unfold State.afterDraw; split <;> simp_all
@[simp] theorem State.afterDraw_txSeq : s.afterDraw.txSeq = s.txSeq := by
  unfold State.afterDraw; split <;> simp_all
@[simp] theorem State.afterDraw_lastValid : s.afterDraw.lastValid = s.lastValid := by
  unfold State.afterDraw; split <;> simp_all
@[simp] theorem State.afterDraw_skipped : s.afterDraw.skipped = s.skipped := by
  unfold State.afterDraw; split <;> simp_all
@[simp] theorem State.afterDraw_ignoreSkipped : s.afterDraw.ignoreSkipped = s.ignoreSkipped := by
  unfold State.afterDraw; split <;> simp_all
@[simp] theorem State.afterDraw_chan : s.afterDraw.chan = s.chan := by
  unfold State.afterDraw; split <;> simp_all
@[simp] theorem State.afterDraw_resp : s.afterDraw.resp = s.resp := by
  unfold State.afterDraw; split <;> simp_all
@[simp] theorem State.afterDraw_events : s.afterDraw.events = s.events := by
  unfold State.afterDraw; split <;> simp_all
@[simp] theorem State.afterDraw_pending : s.afterDraw.pending = s.pending := by
  unfold State.afterDraw; split <;> simp_all
@[simp] theorem State.afterDraw_draws : s.afterDraw.draws = s.draws.drop 1 := by
  unfold State.afterDraw; split <;> simp_all
@[simp] theorem State.afterDraw_freeDraws : s.afterDraw.freeDraws = if s.draws = [] then s.freeDraws + 1 else s.freeDraws := by
  unfold State.afterDraw; split <;> simp_all
@[simp] theorem State.afterDraw_session : s.afterDraw.session = s.session := by
  unfold State.afterDraw; split <;> simp_all

/-! ### sofFound -/

/-- `SofFound()` as one record (R178). -/
theorem State.sofFound_eq : s.sofFound = afterSof s := by
  unfold State.sofFound afterSof skippedReport
  by_cases h0 : s.skipped > 0
  · by_cases h1 : s.ignoreSkipped = true <;> simp [h0, h1, State.emit]
  · have : s.skipped = 0 := by omega
    cases s
    simp_all

@[simp] theorem State.sofFound_params : s.sofFound.params = s.params := by
  rw [State.sofFound_eq]; rfl
@[simp] theorem State.sofFound_life : s.sofFound.life = s.life := by
  rw [State.sofFound_eq]; rfl
@[simp] theorem State.sofFound_gran : s.sofFound.gran = s.gran := by
  rw [State.sofFound_eq]; rfl
@[simp] theorem State.sofFound_pool : s.sofFound.pool = s.pool := by
  rw [State.sofFound_eq]; rfl
@[simp] theorem State.sofFound_txq : s.sofFound.txq = s.txq := by
  rw [State.sofFound_eq]; rfl
@[simp] theorem State.sofFound_ring : s.sofFound.ring = s.ring := by
  rw [State.sofFound_eq]; rfl
@[simp] theorem State.sofFound_expected : s.sofFound.expected = s.expected := by
  rw [State.sofFound_eq]; rfl
@[simp] theorem State.sofFound_rxSeq : s.sofFound.rxSeq = s.rxSeq := by
  rw [State.sofFound_eq]; rfl
@[simp] theorem State.sofFound_txSeq : s.sofFound.txSeq = s.txSeq := by
  rw [State.sofFound_eq]; rfl
@[simp] theorem State.sofFound_lastValid : s.sofFound.lastValid = s.lastValid := by
  rw [State.sofFound_eq]; rfl
@[simp] theorem State.sofFound_skipped : s.sofFound.skipped = 0 := by
  rw [State.sofFound_eq]; rfl
@[simp] theorem State.sofFound_ignoreSkipped : s.sofFound.ignoreSkipped = if s.skipped > 0 then true else s.ignoreSkipped := by
  rw [State.sofFound_eq]; rfl
@[simp] theorem State.sofFound_chan : s.sofFound.chan = s.chan := by
  rw [State.sofFound_eq]; rfl
@[simp] theorem State.sofFound_resp : s.sofFound.resp = s.resp := by
  rw [State.sofFound_eq]; rfl
@[simp] theorem State.sofFound_events : s.sofFound.events = s.events ++ (if s.skipped > 0 ∧ s.ignoreSkipped = false then [.skippedBytes s.skipped] else []) := by
  rw [State.sofFound_eq]; rfl
@[simp] theorem State.sofFound_pending : s.sofFound.pending = s.pending := by
  rw [State.sofFound_eq]; rfl
@[simp] theorem State.sofFound_draws : s.sofFound.draws = s.draws := by
  rw [State.sofFound_eq]; rfl
@[simp] theorem State.sofFound_freeDraws : s.sofFound.freeDraws = s.freeDraws := by
  rw [State.sofFound_eq]; rfl
@[simp] theorem State.sofFound_session : s.sofFound.session = s.session := by
  rw [State.sofFound_eq]; rfl

/-! ### clearExpectedOnDrop -/

@[simp] theorem State.clearExpectedOnDrop_params : s.clearExpectedOnDrop.params = s.params := by
  unfold State.clearExpectedOnDrop State.setExpected; split <;> simp_all
@[simp] theorem State.clearExpectedOnDrop_life : s.clearExpectedOnDrop.life = s.life := by
  unfold State.clearExpectedOnDrop State.setExpected; split <;> simp_all
@[simp] theorem State.clearExpectedOnDrop_gran : s.clearExpectedOnDrop.gran = s.gran := by
  unfold State.clearExpectedOnDrop State.setExpected; split <;> simp_all
@[simp] theorem State.clearExpectedOnDrop_pool : s.clearExpectedOnDrop.pool = s.pool := by
  unfold State.clearExpectedOnDrop State.setExpected; split <;> simp_all
@[simp] theorem State.clearExpectedOnDrop_txq : s.clearExpectedOnDrop.txq = s.txq := by
  unfold State.clearExpectedOnDrop State.setExpected; split <;> simp_all
@[simp] theorem State.clearExpectedOnDrop_ring : s.clearExpectedOnDrop.ring = s.ring := by
  unfold State.clearExpectedOnDrop State.setExpected; split <;> simp_all
@[simp] theorem State.clearExpectedOnDrop_expected : s.clearExpectedOnDrop.expected = if s.params.clearExpectedOnResync = true then 0 else s.expected := by
  unfold State.clearExpectedOnDrop State.setExpected; split <;> simp_all
@[simp] theorem State.clearExpectedOnDrop_rxSeq : s.clearExpectedOnDrop.rxSeq = s.rxSeq := by
  unfold State.clearExpectedOnDrop State.setExpected; split <;> simp_all
@[simp] theorem State.clearExpectedOnDrop_txSeq : s.clearExpectedOnDrop.txSeq = s.txSeq := by
  unfold State.clearExpectedOnDrop State.setExpected; split <;> simp_all
@[simp] theorem State.clearExpectedOnDrop_lastValid : s.clearExpectedOnDrop.lastValid = s.lastValid := by
  unfold State.clearExpectedOnDrop State.setExpected; split <;> simp_all
@[simp] theorem State.clearExpectedOnDrop_skipped : s.clearExpectedOnDrop.skipped = s.skipped := by
  unfold State.clearExpectedOnDrop State.setExpected; split <;> simp_all
@[simp] theorem State.clearExpectedOnDrop_ignoreSkipped : s.clearExpectedOnDrop.ignoreSkipped = s.ignoreSkipped := by
  unfold State.clearExpectedOnDrop State.setExpected; split <;> simp_all
@[simp] theorem State.clearExpectedOnDrop_chan : s.clearExpectedOnDrop.chan = s.chan := by
  unfold State.clearExpectedOnDrop State.setExpected; split <;> simp_all
@[simp] theorem State.clearExpectedOnDrop_resp : s.clearExpectedOnDrop.resp = s.resp := by
  unfold State.clearExpectedOnDrop State.setExpected; split <;> simp_all
@[simp] theorem State.clearExpectedOnDrop_events : s.clearExpectedOnDrop.events = s.events := by
  unfold State.clearExpectedOnDrop State.setExpected; split <;> simp_all
@[simp] theorem State.clearExpectedOnDrop_pending : s.clearExpectedOnDrop.pending = s.pending := by
  unfold State.clearExpectedOnDrop State.setExpected; split <;> simp_all
@[simp] theorem State.clearExpectedOnDrop_draws : s.clearExpectedOnDrop.draws = s.draws := by
  unfold State.clearExpectedOnDrop State.setExpected; split <;> simp_all
@[simp] theorem State.clearExpectedOnDrop_freeDraws : s.clearExpectedOnDrop.freeDraws = s.freeDraws := by
  unfold State.clearExpectedOnDrop State.setExpected; split <;> simp_all
@[simp] theorem State.clearExpectedOnDrop_session : s.clearExpectedOnDrop.session = s.session := by
  unfold State.clearExpectedOnDrop State.setExpected; split <;> simp_all

/-! ### sequenceCheck -/

@[simp] theorem State.sequenceCheck_params (q : BitVec 2) : (s.sequenceCheck q).params = s.params := by
  unfold State.sequenceCheck State.emit; split <;> simp_all
@[simp] theorem State.sequenceCheck_life (q : BitVec 2) : (s.sequenceCheck q).life = s.life := by
  unfold State.sequenceCheck State.emit; split <;> simp_all
@[simp] theorem State.sequenceCheck_gran (q : BitVec 2) : (s.sequenceCheck q).gran = s.gran := by
  unfold State.sequenceCheck State.emit; split <;> simp_all
@[simp] theorem State.sequenceCheck_pool (q : BitVec 2) : (s.sequenceCheck q).pool = s.pool := by
  unfold State.sequenceCheck State.emit; split <;> simp_all
@[simp] theorem State.sequenceCheck_txq (q : BitVec 2) : (s.sequenceCheck q).txq = s.txq := by
  unfold State.sequenceCheck State.emit; split <;> simp_all
@[simp] theorem State.sequenceCheck_ring (q : BitVec 2) : (s.sequenceCheck q).ring = s.ring := by
  unfold State.sequenceCheck State.emit; split <;> simp_all
@[simp] theorem State.sequenceCheck_expected (q : BitVec 2) : (s.sequenceCheck q).expected = s.expected := by
  unfold State.sequenceCheck State.emit; split <;> simp_all
@[simp] theorem State.sequenceCheck_rxSeq (q : BitVec 2) : (s.sequenceCheck q).rxSeq = q + 1 := by
  unfold State.sequenceCheck State.emit; split <;> simp_all
@[simp] theorem State.sequenceCheck_txSeq (q : BitVec 2) : (s.sequenceCheck q).txSeq = s.txSeq := by
  unfold State.sequenceCheck State.emit; split <;> simp_all
@[simp] theorem State.sequenceCheck_lastValid (q : BitVec 2) : (s.sequenceCheck q).lastValid = s.lastValid := by
  unfold State.sequenceCheck State.emit; split <;> simp_all
@[simp] theorem State.sequenceCheck_skipped (q : BitVec 2) : (s.sequenceCheck q).skipped = s.skipped := by
  unfold State.sequenceCheck State.emit; split <;> simp_all
@[simp] theorem State.sequenceCheck_ignoreSkipped (q : BitVec 2) : (s.sequenceCheck q).ignoreSkipped = s.ignoreSkipped := by
  unfold State.sequenceCheck State.emit; split <;> simp_all
@[simp] theorem State.sequenceCheck_chan (q : BitVec 2) : (s.sequenceCheck q).chan = s.chan := by
  unfold State.sequenceCheck State.emit; split <;> simp_all
@[simp] theorem State.sequenceCheck_resp (q : BitVec 2) : (s.sequenceCheck q).resp = s.resp := by
  unfold State.sequenceCheck State.emit; split <;> simp_all
@[simp] theorem State.sequenceCheck_events (q : BitVec 2) : (s.sequenceCheck q).events = s.events ++ (if q ≠ s.rxSeq then [.sequenceMismatch s.rxSeq q] else []) := by
  unfold State.sequenceCheck State.emit; split <;> simp_all
@[simp] theorem State.sequenceCheck_pending (q : BitVec 2) : (s.sequenceCheck q).pending = s.pending := by
  unfold State.sequenceCheck State.emit; split <;> simp_all
@[simp] theorem State.sequenceCheck_draws (q : BitVec 2) : (s.sequenceCheck q).draws = s.draws := by
  unfold State.sequenceCheck State.emit; split <;> simp_all
@[simp] theorem State.sequenceCheck_freeDraws (q : BitVec 2) : (s.sequenceCheck q).freeDraws = s.freeDraws := by
  unfold State.sequenceCheck State.emit; split <;> simp_all
@[simp] theorem State.sequenceCheck_session (q : BitVec 2) : (s.sequenceCheck q).session = s.session := by
  unfold State.sequenceCheck State.emit; split <;> simp_all

end Sys2Proof.Machine
end

