-- ==== Sys2Proof/Laws/Store.lean ====
section
/-! SUPPORT. The laws of the sparse storage: what a read gives after a write, and that every write keeps the
canonical form and a bound on the addresses. -/

namespace Sys2Proof.Machine

variable {α : Type}

@[simp] theorem Store.read?_nil (a : Nat) : Store.read? ([] : Store α) a = none := rfl

/-- A read after a write gives the value written there, and elsewhere what stood before. -/
theorem Store.read?_write (m : Store α) (a b : Nat) (v : α) :
    Store.read? (Store.write m a v) b = if a = b then some v else Store.read? m b := by
  induction m with
  | nil => simp [Store.write, Store.read?]
  | cons p m ih =>
    obtain ⟨k, w⟩ := p
    simp only [Store.write]
    split_ifs with h1 h2 <;> simp only [Store.read?, ih] <;> split_ifs <;> first | rfl | omega

@[simp] theorem Store.read?_write_self (m : Store α) (a : Nat) (v : α) :
    Store.read? (Store.write m a v) a = some v := by simp [Store.read?_write]

theorem Store.read?_write_other (m : Store α) {a b : Nat} (v : α) (h : b ≠ a) :
    Store.read? (Store.write m a v) b = Store.read? m b := by
  simp [Store.read?_write, Ne.symm h]

/-- A read after writing a list at `a`. -/
theorem Store.read?_writeList (m : Store α) (a b : Nat) (vs : List α) :
    Store.read? (Store.writeList m a vs) b =
      if a ≤ b ∧ b < a + vs.length then vs[b - a]? else Store.read? m b := by
  induction vs generalizing m a with
  | nil => simp [Store.writeList]
  | cons v vs ih =>
    rw [Store.writeList, ih, Store.read?_write]
    by_cases hb : b = a
    · subst hb; simp
    · by_cases hr : a + 1 ≤ b ∧ b < a + 1 + vs.length
      · rw [if_pos hr, if_pos (by simp only [List.length_cons]; omega)]
        obtain ⟨k, rfl⟩ : ∃ k, b = a + 1 + k := ⟨b - (a + 1), by omega⟩
        simp [show a + 1 + k - a = k + 1 by omega]
      · rw [if_neg hr, if_neg (Ne.symm hb), if_neg (by simp only [List.length_cons]; omega)]

/-- Every address of a store after a write is the written one or one listed before. -/
theorem Store.mem_write {m : Store α} {a : Nat} {v : α} {p : Nat × α} (h : p ∈ Store.write m a v) :
    p.1 = a ∨ p ∈ m := by
  induction m with
  | nil => simp [Store.write] at h; simp [h]
  | cons q m ih =>
    obtain ⟨k, w⟩ := q
    simp only [Store.write] at h
    split_ifs at h with h1 h2
    · rcases List.mem_cons.1 h with rfl | h <;> simp_all
    · rcases List.mem_cons.1 h with rfl | h <;> simp_all
    · rcases List.mem_cons.1 h with rfl | h
      · simp
      · rcases ih h with h | h
        · exact .inl h
        · exact .inr (List.mem_cons_of_mem _ h)

theorem Store.wf_nil : Store.wf ([] : Store α) := List.Pairwise.nil

/-- A write keeps the addresses rising. -/
theorem Store.wf_write {m : Store α} (h : Store.wf m) (a : Nat) (v : α) : Store.wf (Store.write m a v) := by
  induction m with
  | nil => simp [Store.write, Store.wf]
  | cons q m ih =>
    obtain ⟨k, w⟩ := q
    obtain ⟨hk, hm⟩ := List.pairwise_cons.1 h
    simp only [Store.write]
    split_ifs with h1 h2
    · refine List.pairwise_cons.2 ⟨fun p hp => ?_, h⟩
      rcases List.mem_cons.1 hp with rfl | hp
      · exact h1
      · exact Nat.lt_trans h1 (hk p hp)
    · subst h2; exact List.pairwise_cons.2 ⟨hk, hm⟩
    · refine List.pairwise_cons.2 ⟨fun p hp => ?_, ih hm⟩
      rcases Store.mem_write hp with hp | hp
      · simp only [hp]; omega
      · exact hk p hp

/-- Writing a list keeps the addresses rising. -/
theorem Store.wf_writeList {m : Store α} (h : Store.wf m) (a : Nat) (vs : List α) :
    Store.wf (Store.writeList m a vs) := by
  induction vs generalizing m a with
  | nil => exact h
  | cons v vs ih => exact ih (Store.wf_write h a v) (a + 1)

theorem Store.below_nil (n : Nat) : Store.below n ([] : Store α) := by simp [Store.below]

/-- A write below `n` keeps every address below `n`. -/
theorem Store.below_write {m : Store α} {n a : Nat} (h : Store.below n m) (ha : a < n) (v : α) :
    Store.below n (Store.write m a v) := by
  intro p hp
  rcases Store.mem_write hp with hp | hp
  · omega
  · exact h p hp

/-- Writing a list that ends by `n` keeps every address below `n`. -/
theorem Store.below_writeList {m : Store α} {n a : Nat} {vs : List α} (h : Store.below n m)
    (ha : a + vs.length ≤ n) : Store.below n (Store.writeList m a vs) := by
  induction vs generalizing m a with
  | nil => exact h
  | cons v vs ih =>
    simp only [List.length_cons] at ha
    exact ih (Store.below_write h (by omega) v) (by omega)

theorem scrubbed_wf (v : Byte) : Memory.wf (scrubbed v) := by
  unfold scrubbed Memory.wf Store.wf
  rw [List.pairwise_map]
  exact List.pairwise_lt_range

theorem scrubbed_below (v : Byte) : Store.below maxFrame (scrubbed v) := by
  intro p hp
  simp only [scrubbed, List.mem_map, List.mem_range] at hp
  obtain ⟨i, hi, rfl⟩ := hp
  exact hi

theorem Store.read?_map_range (n a : Nat) (v : α) (k : Nat) :
    Store.read? ((List.range' k n).map (fun i => (i, v))) a = if k ≤ a ∧ a < k + n then some v else none := by
  induction n generalizing k with
  | zero => simp
  | succ n ih =>
    rw [List.range'_succ, List.map_cons, Store.read?, ih]
    split_ifs <;> first | rfl | omega

/-- A scrubbed buffer reads as the scrub byte at every offset (R151). -/
theorem scrubbed_read (v : Byte) (a : Nat) :
    Store.read? (scrubbed v) a = if a < maxFrame then some v else none := by
  unfold scrubbed
  rw [List.range_eq_range', Store.read?_map_range]
  simp

end Sys2Proof.Machine
end

