-- ==== Sys2Proof/Laws/Pool.lean ====
section
/-! SUPPORT. The laws of the pool: reading a buffer after a change, what the reference-count operations can
do, and what a free buffer's choice means. -/

namespace Sys2Proof.Machine

/-- A live buffer is one of the pool. -/
theorem State.lt_of_refcount {s : State} {h : Handle} (hr : (s.buf h).refcount ≠ 0) :
    h.toNat < s.pool.length := by
  by_contra hc
  apply hr
  simp [State.buf, List.getD_eq_getElem?_getD, List.getElem?_eq_none (Nat.le_of_not_lt hc), Buf.absent]

/-- Reading a buffer after a change of one. -/
theorem State.buf_modifyBuf (s : State) (h k : Handle) (f : Buf → Buf) :
    (s.modifyBuf h f).buf k = if h = k ∧ h.toNat < s.pool.length then f (s.buf k) else s.buf k := by
  simp only [State.buf, State.modifyBuf, List.getD_eq_getElem?_getD, List.getElem?_modify]
  by_cases hk : h = k
  · subst hk
    by_cases hl : h.toNat < s.pool.length
    · simp [hl]
    · simp [hl]
  · have : h.toNat ≠ k.toNat := fun e => hk (BitVec.eq_of_toNat_eq e)
    simp [hk, this]

theorem State.buf_modifyBuf_self (s : State) {h : Handle} (f : Buf → Buf) (hl : h.toNat < s.pool.length) :
    (s.modifyBuf h f).buf h = f (s.buf h) := by simp [State.buf_modifyBuf, hl]

theorem State.buf_modifyBuf_other (s : State) {h k : Handle} (f : Buf → Buf) (hk : h ≠ k) :
    (s.modifyBuf h f).buf k = s.buf k := by simp [State.buf_modifyBuf, hk]

@[simp] theorem State.modifyBuf_length (s : State) (h : Handle) (f : Buf → Buf) :
    (s.modifyBuf h f).pool.length = s.pool.length := by simp

/-- A buffer reads alike in two states with the same pool. -/
theorem State.buf_congr {s t : State} (hp : t.pool = s.pool) (h : Handle) : t.buf h = s.buf h := by
  simp [State.buf, hp]

/-- A byte reads alike in two states with the same pool and session. -/
theorem State.readData_congr {s t : State} (hp : t.pool = s.pool) (hs : t.session = s.session) (h : Handle)
    (off : Nat) : t.readData h off = s.readData h off := by
  simp [State.readData, State.buf, hp, hs]

theorem State.readRange_congr {s t : State} (hp : t.pool = s.pool) (hs : t.session = s.session) (h : Handle)
    (off n : Nat) : t.readRange h off n = s.readRange h off n := by
  simp [State.readRange, State.readData_congr hp hs]

@[simp] theorem State.startOp_buf (s : State) (h : Handle) : s.startOp.buf h = s.buf h := rfl
@[simp] theorem State.reply_buf (s : State) (st : Status) (r : Result) (h : Handle) :
    (s.reply st r).buf h = s.buf h := rfl
@[simp] theorem State.emit_buf (s : State) (e : Event) (h : Handle) : (s.emit e).buf h = s.buf h := rfl
@[simp] theorem State.startOp_readData (s : State) (h : Handle) (o : Nat) :
    s.startOp.readData h o = s.readData h o := rfl
@[simp] theorem State.reply_readData (s : State) (st : Status) (r : Result) (h : Handle) (o : Nat) :
    (s.reply st r).readData h o = s.readData h o := rfl
@[simp] theorem State.emit_readData (s : State) (e : Event) (h : Handle) (o : Nat) :
    (s.emit e).readData h o = s.readData h o := rfl

/-- A buffer reads the same where its record is the same. -/
theorem SameBuffer.of_buf {s t : State} {h : Handle} (hb : t.buf h = s.buf h) (hs : t.session = s.session) :
    SameBuffer s t h := by
  simp [SameBuffer, State.readData, hb, hs]

/-- `refInc` answers a next state just below `REF_MAX`, one reference up (R150). -/
theorem refInc_ok {h : Handle} {s t : State} (e : refInc h s = .ok t) :
    (s.buf h).refcount < s.params.refMax ∧ t = s.setRefcount h ((s.buf h).refcount + 1) := by
  unfold refInc at e
  split_ifs at e with hc
  simp only [Except.ok.injEq] at e
  exact ⟨by omega, e.symm⟩

theorem refInc_of_lt {h : Handle} {s : State} (hc : (s.buf h).refcount < s.params.refMax) :
    refInc h s = .ok (s.setRefcount h ((s.buf h).refcount + 1)) := by
  simp [refInc, Nat.not_le.2 hc]

/-- `refDec` answers a next state above 0, one reference down, scrubbed at 0 (R151). -/
theorem refDec_ok {h : Handle} {s t : State} (e : refDec h s = .ok t) :
    (s.buf h).refcount ≠ 0 ∧
      t = if (s.buf h).refcount = 1 then (s.setRefcount h 0).scrub h
          else s.setRefcount h ((s.buf h).refcount - 1) := by
  unfold refDec at e
  split_ifs at e with hc h1 <;> simp only [Except.ok.injEq] at e
  · exact ⟨hc, by rw [if_pos h1]; exact e.symm⟩
  · exact ⟨hc, by rw [if_neg h1]; exact e.symm⟩

theorem refDec_of_ne {h : Handle} {s : State} (hc : (s.buf h).refcount ≠ 0) :
    refDec h s = .ok (if (s.buf h).refcount = 1 then (s.setRefcount h 0).scrub h
      else s.setRefcount h ((s.buf h).refcount - 1)) := by
  unfold refDec
  rw [if_neg hc]
  split_ifs <;> rfl

/-- The buffer after `refDec` (R151): the lengths keep their values, the data only where a reference is left. -/
theorem refDec_buf {h : Handle} {s t : State} (e : refDec h s = .ok t) (k : Handle) :
    t.buf k = if h = k then
        { s.buf h with
          refcount := (s.buf h).refcount - 1
          data := if (s.buf h).refcount = 1 then scrubbed s.params.scrubByte else (s.buf h).data }
      else s.buf k := by
  obtain ⟨hne, rfl⟩ := refDec_ok e
  have hl := State.lt_of_refcount hne
  by_cases hk : h = k
  · subst hk
    rw [if_pos rfl]
    split_ifs with h1
    · simp [State.scrub, State.setRefcount, State.buf_modifyBuf, hl, h1]
    · simp [State.setRefcount, State.buf_modifyBuf, hl]
  · rw [if_neg hk]
    split_ifs with h1 <;> simp [State.scrub, State.setRefcount, State.buf_modifyBuf, hk]

/-- `refDec` changes nothing but the pool. -/
theorem refDec_frame {h : Handle} {s t : State} (e : refDec h s = .ok t) :
    t = { s with pool := t.pool } ∧ t.pool.length = s.pool.length := by
  obtain ⟨-, rfl⟩ := refDec_ok e
  split_ifs <;> simp [State.scrub, State.setRefcount, State.modifyBuf]

/-- `refInc` changes nothing but the pool. -/
theorem refInc_frame {h : Handle} {s t : State} (e : refInc h s = .ok t) :
    t = { s with pool := t.pool } ∧ t.pool.length = s.pool.length := by
  obtain ⟨-, rfl⟩ := refInc_ok e
  simp [State.setRefcount, State.modifyBuf]

/-- The buffer after `refInc` (R150). -/
theorem refInc_buf {h : Handle} {s t : State} (e : refInc h s = .ok t) (hl : h.toNat < s.pool.length) (k : Handle) :
    t.buf k = if h = k then { s.buf h with refcount := (s.buf h).refcount + 1 } else s.buf k := by
  obtain ⟨-, rfl⟩ := refInc_ok e
  by_cases hk : h = k
  · subst hk; simp [State.setRefcount, State.buf_modifyBuf, hl]
  · simp [State.setRefcount, State.buf_modifyBuf, hk]

/-- The chosen free buffer is free and in the pool, and every lower-numbered one is held (R142), for a pool
whose buffers all have a handle. -/
theorem firstFree_some {s : State} {h : Handle} (hN : s.pool.length ≤ 65536) (e : s.firstFree = some h) :
    h.toNat < s.pool.length ∧ (s.buf h).refcount = 0 ∧
      ∀ k : Handle, k.toNat < h.toNat → (s.buf k).refcount ≠ 0 := by
  unfold State.firstFree at e
  obtain ⟨i, hi, rfl⟩ := Option.map_eq_some_iff.1 e
  obtain ⟨hl, hz, hlt⟩ := List.findIdx?_eq_some_iff_getElem.1 hi
  have hn : (BitVec.ofNat 16 i).toNat = i := by simp only [BitVec.toNat_ofNat]; omega
  refine ⟨by omega, ?_, fun k hk => ?_⟩
  · simpa [State.buf, hn, List.getD_eq_getElem?_getD, List.getElem?_eq_getElem hl] using hz
  · have := hlt k.toNat (by omega)
    have hkl : k.toNat < s.pool.length := by omega
    simpa [State.buf, List.getD_eq_getElem?_getD, List.getElem?_eq_getElem hkl] using this

/-- No buffer is chosen exactly where none is free. -/
theorem firstFree_none {s : State} : s.firstFree = none ↔ ∀ b ∈ s.pool, b.refcount ≠ 0 := by
  simp [State.firstFree, List.findIdx?_eq_none_iff]

/-- A buffer of the pool, by its handle. -/
theorem State.buf_mem {s : State} {h : Handle} (hl : h.toNat < s.pool.length) : s.buf h ∈ s.pool := by
  simp [State.buf, List.getD_eq_getElem?_getD, List.getElem?_eq_getElem hl]

/-- A buffer of the pool has a handle. -/
theorem State.mem_buf {s : State} (hN : s.pool.length ≤ 65536) {b : Buf} (hb : b ∈ s.pool) :
    ∃ h : Handle, h.toNat < s.pool.length ∧ s.buf h = b := by
  obtain ⟨i, hi, rfl⟩ := List.mem_iff_getElem.1 hb
  refine ⟨BitVec.ofNat 16 i, ?_, ?_⟩
  · simp only [BitVec.toNat_ofNat]; omega
  · have : (BitVec.ofNat 16 i).toNat = i := by simp only [BitVec.toNat_ofNat]; omega
    simp [State.buf, this, List.getD_eq_getElem?_getD, List.getElem?_eq_getElem hi]

/-- A change of one buffer keeps a property of all of them. -/
theorem State.forall_modifyBuf {s : State} {P : Buf → Prop} (hp : ∀ b ∈ s.pool, P b) (h : Handle) (f : Buf → Buf)
    (hf : ∀ b ∈ s.pool, P b → P (f b)) : ∀ b ∈ (s.modifyBuf h f).pool, P b := by
  intro b hb
  obtain ⟨i, hi, rfl⟩ := List.mem_iff_getElem.1 hb
  simp only [State.modifyBuf, List.length_modify] at hi
  simp only [State.modifyBuf, List.getElem_modify]
  split_ifs
  · exact hf _ (List.getElem_mem hi) (hp _ (List.getElem_mem hi))
  · exact hp _ (List.getElem_mem hi)

end Sys2Proof.Machine
end

