-- ==== Sys2Proof/Laws/Ring.lean ====
section
/-! SUPPORT. The laws of the receive ring: what a release and an append do to the unread bytes. -/

namespace Sys2Proof.Machine

/-- The number of unread bytes, from the two indices (R32). -/
theorem avail_eq (s : State) : s.avail = (256 - s.ring.current.toNat + s.ring.next.toNat) % 256 := by
  simp [State.avail, BitVec.toNat_sub]

theorem avail_lt (s : State) : s.avail < 256 := (s.ring.next - s.ring.current).isLt

theorem avail_congr {s t : State} (h : t.ring = s.ring) : t.avail = s.avail := by simp [State.avail, h]

theorem ringRead_congr {s t : State} (h : t.ring = s.ring) (hs : t.session = s.session) (i : Nat) :
    t.ringRead i = s.ringRead i := by simp [State.ringRead, h, hs]

theorem ringRange_congr {s t : State} (h : t.ring = s.ring) (hs : t.session = s.session) (a n : Nat) :
    t.ringRange a n = s.ringRange a n := by simp [State.ringRange, ringRead_congr h hs]

@[simp] theorem ringRange_length (s : State) (a n : Nat) : (s.ringRange a n).length = n := by
  simp [State.ringRange]

theorem ringRange_get (s : State) (a n i : Nat) (h : i < n) :
    (s.ringRange a n)[i]? = some (s.ringRead (a + i)) := by
  simp [State.ringRange, h]

/-! ## Release (R67) -/

theorem avail_ringRelease {s : State} {n : Nat} (h : n ≤ s.avail) : (s.ringRelease n).avail = s.avail - n := by
  have := avail_lt s
  have := s.ring.current.isLt; have := s.ring.next.isLt
  simp only [avail_eq] at *
  simp only [State.ringRelease, BitVec.toNat_add, BitVec.toNat_ofNat]
  omega

theorem ringRead_ringRelease (s : State) (n i : Nat) : (s.ringRelease n).ringRead i = s.ringRead (n + i) := by
  simp only [State.ringRead, State.ringRelease, BitVec.ofNat_add, BitVec.add_assoc]

theorem ringRange_ringRelease (s : State) (n a m : Nat) :
    (s.ringRelease n).ringRange a m = s.ringRange (n + a) m := by
  simp [State.ringRange, ringRead_ringRelease, Nat.add_assoc]

/-! ## Append (R68, R171) -/

theorem one_toNat : (1 : BitVec 8).toNat = 1 := rfl

/-- The ring is full exactly where 255 bytes are unread. -/
theorem ring_full_iff (s : State) : s.ring.next + 1 = s.ring.current ↔ s.avail = 255 := by
  have := s.ring.current.isLt; have := s.ring.next.isLt
  rw [avail_eq]
  constructor
  · intro h
    have e := congrArg BitVec.toNat h
    simp only [BitVec.toNat_add, one_toNat] at e
    omega
  · intro h
    apply BitVec.eq_of_toNat_eq
    simp only [BitVec.toNat_add, one_toNat]
    omega

/-- The state after one byte was appended. -/
def State.ringAppended (s : State) (b : Byte) : State :=
  { s with ring := { s.ring with buf := Store.write s.ring.buf s.ring.next.toNat b, next := s.ring.next + 1 } }

theorem ringAppend_full {s : State} (h : s.avail = 255) (b : Byte) : s.ringAppend? b = none := by
  rw [State.ringAppend?, if_pos ((ring_full_iff s).2 h)]

theorem ringAppend_room {s : State} (h : s.avail ≠ 255) (b : Byte) : s.ringAppend? b = some (s.ringAppended b) := by
  rw [State.ringAppend?, if_neg (fun e => h ((ring_full_iff s).1 e))]
  rfl

theorem avail_ringAppended {s : State} (h : s.avail ≠ 255) (b : Byte) : (s.ringAppended b).avail = s.avail + 1 := by
  have := avail_lt s
  have := s.ring.current.isLt; have := s.ring.next.isLt
  simp only [avail_eq] at *
  simp only [State.ringAppended, BitVec.toNat_add, one_toNat]
  omega

/-- The slot of an unread byte is not the one an append writes. -/
theorem unread_slot_ne {s : State} {i : Nat} (hi : i < s.avail) :
    (s.ring.current + BitVec.ofNat 8 i).toNat ≠ s.ring.next.toNat := by
  have := avail_lt s
  have := s.ring.current.isLt; have := s.ring.next.isLt
  simp only [avail_eq] at *
  simp only [BitVec.toNat_add, BitVec.toNat_ofNat]
  omega

/-- The slot the append writes is the one after the unread bytes. -/
theorem next_slot (s : State) : s.ring.current + BitVec.ofNat 8 s.avail = s.ring.next := by
  rw [State.avail, BitVec.ofNat_toNat, BitVec.setWidth_eq, BitVec.add_comm, BitVec.sub_add_cancel]

theorem ringRead_ringAppended_old {s : State} (b : Byte) {i : Nat} (hi : i < s.avail) :
    (s.ringAppended b).ringRead i = s.ringRead i := by
  simp only [State.ringRead, State.ringAppended, Store.read?_write_other _ _ (unread_slot_ne hi)]

theorem ringRead_ringAppended_new (s : State) (b : Byte) : (s.ringAppended b).ringRead s.avail = b := by
  simp [State.ringRead, State.ringAppended, next_slot]

/-- How many bytes are accepted: as many as fit in 255 unread ones (R171). -/
theorem ringPush_count (s : State) (data : List Byte) :
    (s.ringPush data).1 = min data.length (255 - s.avail) := by
  induction data generalizing s with
  | nil => simp [State.ringPush]
  | cons b bs ih =>
    have hlt := avail_lt s
    by_cases h : s.avail = 255
    · simp [State.ringPush, ringAppend_full h, h]
    · simp only [State.ringPush, ringAppend_room h, ih, avail_ringAppended h, List.length_cons]
      omega

/-- A push changes nothing but the ring, and of the ring only `next` and the bytes written. -/
theorem ringPush_frame (s : State) (data : List Byte) :
    (s.ringPush data).2 = { s with ring := (s.ringPush data).2.ring } ∧
      (s.ringPush data).2.ring.current = s.ring.current ∧
      (s.ringPush data).2.ring.next = s.ring.next + BitVec.ofNat 8 (s.ringPush data).1 := by
  induction data generalizing s with
  | nil => simp [State.ringPush]
  | cons b bs ih =>
    by_cases h : s.avail = 255
    · simp [State.ringPush, ringAppend_full h]
    · have hp : s.ringPush (b :: bs) =
          (((s.ringAppended b).ringPush bs).1 + 1, ((s.ringAppended b).ringPush bs).2) := by
        simp only [State.ringPush, ringAppend_room h]
      rw [hp]
      obtain ⟨h1, h2, h3⟩ := ih (s.ringAppended b)
      refine ⟨?_, h2, ?_⟩
      · conv_lhs => rw [h1]
        rfl
      · rw [h3, BitVec.ofNat_add]
        show s.ring.next + 1 + _ = _
        rw [BitVec.add_assoc, BitVec.add_comm 1]
        rfl

/-- The unread bytes after a push: those before, then the accepted ones. -/
theorem ringRead_ringPush (s : State) (data : List Byte) :
    (s.ringPush data).2.avail = s.avail + (s.ringPush data).1 ∧
      (∀ i, i < s.avail → (s.ringPush data).2.ringRead i = s.ringRead i) ∧
      ∀ j, j < (s.ringPush data).1 → data[j]? = some ((s.ringPush data).2.ringRead (s.avail + j)) := by
  induction data generalizing s with
  | nil => simp [State.ringPush]
  | cons b bs ih =>
    by_cases h : s.avail = 255
    · simp [State.ringPush, ringAppend_full h]
    · simp only [State.ringPush, ringAppend_room h]
      obtain ⟨h1, h2, h3⟩ := ih (s.ringAppended b)
      rw [avail_ringAppended h] at h1 h2 h3
      refine ⟨by omega, fun i hi => by rw [h2 i (by omega), ringRead_ringAppended_old b hi], fun j hj => ?_⟩
      cases j with
      | zero => simp [h2 s.avail (by omega), ringRead_ringAppended_new]
      | succ j =>
        have := h3 j (by omega)
        rw [List.getElem?_cons_succ, this, Nat.add_assoc, Nat.add_comm 1 j]

/-- A push that fits is all of its bytes, behind the unread ones. -/
theorem ringRange_ringPush {s : State} {data : List Byte} (h : s.avail + data.length ≤ 255) :
    (s.ringPush data).2.ringRange s.avail data.length = data := by
  have hc := ringPush_count s data
  apply List.ext_getElem?
  intro i
  by_cases hi : i < data.length
  · rw [ringRange_get _ _ _ _ hi, (ringRead_ringPush s data).2.2 i (by omega)]
  · rw [List.getElem?_eq_none (by rw [ringRange_length]; omega), List.getElem?_eq_none (by omega)]

/-- The ring bytes a push writes are those behind `next`; every other index reads as before. -/
theorem ringPush_store (s : State) (data : List Byte) (k : Nat)
    (hk : ∀ i, i < (s.ringPush data).1 → k ≠ (s.ring.next + BitVec.ofNat 8 i).toNat) :
    Store.read? (s.ringPush data).2.ring.buf k = Store.read? s.ring.buf k := by
  induction data generalizing s with
  | nil => simp [State.ringPush]
  | cons b bs ih =>
    by_cases h : s.avail = 255
    · simp [State.ringPush, ringAppend_full h]
    · simp only [State.ringPush, ringAppend_room h] at hk ⊢
      rw [ih]
      · have := hk 0 (by omega)
        simp only [BitVec.add_zero] at this
        exact Store.read?_write_other _ _ this
      · intro i hi
        have := hk (i + 1) (by omega)
        rw [Nat.add_comm i 1, BitVec.ofNat_add, ← BitVec.add_assoc] at this
        exact this

/-- A push keeps the ring's storage canonical. -/
theorem ringPush_wf {s : State} (data : List Byte) (h : Memory.wf s.ring.buf)
    (hb : Store.below ringSize s.ring.buf) :
    Memory.wf (s.ringPush data).2.ring.buf ∧ Store.below ringSize (s.ringPush data).2.ring.buf := by
  induction data generalizing s with
  | nil => exact ⟨h, hb⟩
  | cons b bs ih =>
    by_cases e : s.avail = 255
    · simp only [State.ringPush, ringAppend_full e]; exact ⟨h, hb⟩
    · simp only [State.ringPush, ringAppend_room e]
      exact ih (Store.wf_write h _ _) (Store.below_write hb s.ring.next.isLt _)

/-- Every unread byte stays written after a push. -/
theorem ringPush_written {s : State} (data : List Byte)
    (h : ∀ i < s.avail, (Store.read? s.ring.buf (s.ring.current + BitVec.ofNat 8 i).toNat).isSome = true) :
    ∀ i < (s.ringPush data).2.avail,
      (Store.read? (s.ringPush data).2.ring.buf
        ((s.ringPush data).2.ring.current + BitVec.ofNat 8 i).toNat).isSome = true := by
  induction data generalizing s with
  | nil => exact h
  | cons b bs ih =>
    by_cases e : s.avail = 255
    · simp only [State.ringPush, ringAppend_full e]; exact h
    · simp only [State.ringPush, ringAppend_room e]
      apply ih
      rw [avail_ringAppended e]
      intro i hi
      show (Store.read? (Store.write s.ring.buf s.ring.next.toNat b)
        (s.ring.current + BitVec.ofNat 8 i).toNat).isSome = true
      rw [Store.read?_write]
      by_cases hj : s.ring.next.toNat = (s.ring.current + BitVec.ofNat 8 i).toNat
      · simp [hj]
      · rw [if_neg hj]
        apply h
        rcases Nat.lt_or_ge i s.avail with hlt | hge
        · exact hlt
        · exact absurd (by rw [show i = s.avail by omega, next_slot]) hj

end Sys2Proof.Machine
end

