-- ==== Sys2Proof/Laws/Deliver.lean ====
section
/-! SUPPORT. The laws of the dispatch: what `Deliver`, `MuxProcessRx` and `DeliverFrame` can do to the state,
when they complete, and what a buffer filled from the ring reads as. -/

namespace Sys2Proof.Machine

/-- What the dispatch touches: the pool's buffers and the events. -/
def DispatchFrame (s t : State) : Prop :=
  t = { s with pool := t.pool, events := t.events } ∧ t.pool.length = s.pool.length

theorem DispatchFrame.refl (s : State) : DispatchFrame s s := ⟨rfl, rfl⟩

theorem DispatchFrame.trans {s t u : State} (h : DispatchFrame s t) (k : DispatchFrame t u) : DispatchFrame s u := by
  obtain ⟨h1, h2⟩ := h
  obtain ⟨k1, k2⟩ := k
  refine ⟨?_, k2.trans h2⟩
  rw [k1, h1]

theorem DispatchFrame.emit (s : State) (e : Event) : DispatchFrame s (s.emit e) := ⟨rfl, rfl⟩

theorem DispatchFrame.modifyBuf (s : State) (h : Handle) (f : Buf → Buf) : DispatchFrame s (s.modifyBuf h f) :=
  ⟨rfl, by simp⟩

theorem DispatchFrame.refInc {h : Handle} {s t : State} (e : refInc h s = .ok t) : DispatchFrame s t := by
  obtain ⟨h1, h2⟩ := refInc_frame e
  refine ⟨?_, h2⟩
  rw [h1]

theorem DispatchFrame.refDec {h : Handle} {s t : State} (e : refDec h s = .ok t) : DispatchFrame s t := by
  obtain ⟨h1, h2⟩ := refDec_frame e
  refine ⟨?_, h2⟩
  rw [h1]

theorem DispatchFrame.params {s t : State} (h : DispatchFrame s t) : t.params = s.params := by rw [h.1]
theorem DispatchFrame.chan {s t : State} (h : DispatchFrame s t) : t.chan = s.chan := by rw [h.1]
theorem DispatchFrame.ring {s t : State} (h : DispatchFrame s t) : t.ring = s.ring := by rw [h.1]
theorem DispatchFrame.txq {s t : State} (h : DispatchFrame s t) : t.txq = s.txq := by rw [h.1]
theorem DispatchFrame.session {s t : State} (h : DispatchFrame s t) : t.session = s.session := by rw [h.1]

/-- The event a delivery to a receiver emits (R231). -/
def deliveryEvents (s : State) (c : Nat) (h : Handle) : List Event :=
  match (s.chanAt c).kind with
  | .none => []
  | .buffer => [.deliverBuffer c (s.chanAt c).ctx h]
  | .bytes => [.deliverBytes c (s.chanAt c).ctx (s.readRange h headerLen (s.buf h).payloadLength.toNat)]

/-- `Deliver` completes unless a whole-buffer receiver meets `REF_MAX` (R231, U3). -/
theorem deliver_completes {c : Nat} {h : Handle} {s : State}
    (hm : (s.chanAt c).kind = .buffer → (s.buf h).refcount < s.params.refMax) : ∃ t, deliver c h s = .ok t := by
  unfold deliver
  split
  · exact ⟨_, rfl⟩
  · rename_i e
    rw [refInc_of_lt (hm e)]
    exact ⟨_, rfl⟩
  · exact ⟨_, rfl⟩

/-- What `Deliver` can do (R231): one event by the receiver's kind, and one more reference for a whole-buffer
receiver. -/
theorem deliver_ok {c : Nat} {h : Handle} {s t : State} (hl : h.toNat < s.pool.length)
    (e : deliver c h s = .ok t) :
    DispatchFrame s t ∧ t.events = s.events ++ deliveryEvents s c h ∧
      ∀ k, t.buf k =
        if h = k ∧ (s.chanAt c).kind = .buffer then { s.buf k with refcount := (s.buf k).refcount + 1 }
        else s.buf k := by
  unfold deliver at e
  unfold deliveryEvents
  split at e
  · rename_i hk
    cases e
    simp [hk, DispatchFrame.refl]
  · rename_i hk
    cases hr : refInc h s with
    | error f => rw [hr] at e; cases e
    | ok u =>
      rw [hr] at e
      cases e
      have hf := refInc_frame hr
      refine ⟨(DispatchFrame.refInc hr).trans (DispatchFrame.emit _ _), ?_, ?_⟩
      · simp only [hk, State.emit_events]
        rw [hf.1]
      · intro k
        simp only [State.emit_buf, refInc_buf hr hl k, hk, and_true]
        split_ifs with hkk
        · rw [hkk]
        · rfl
  · rename_i hk
    cases e
    simp [hk, DispatchFrame.emit]

/-- What `MuxProcessRx` can do for a live buffer (R230): the events by the channel number in the frame, and the
references left. -/
theorem muxProcessRx_ok {h : Handle} {s t : State} (e : muxProcessRx h s = .ok t)
    (hr : (s.buf h).refcount ≠ 0) (ch : BitVec 5) (hc : ch = channelOf (s.readData h 2)) :
    DispatchFrame s t ∧
    (∀ k, h ≠ k → t.buf k = s.buf k) ∧
    (((21 ≤ ch.toNat ∨ (s.chanAt ch.toNat).kind = .none) ∧ t.events = s.events ++ [.rxNoReceiver ch] ∧
        refDec h (s.emit (.rxNoReceiver ch)) = .ok t) ∨
      (ch.toNat < 21 ∧ (s.chanAt ch.toNat).kind = .bytes ∧
        t.events = s.events ++ deliveryEvents s ch.toNat h ∧
        ∃ u, u.buf h = s.buf h ∧ DispatchFrame s u ∧ refDec h u = .ok t) ∨
      (ch.toNat < 21 ∧ (s.chanAt ch.toNat).kind = .buffer ∧
        t.events = s.events ++ deliveryEvents s ch.toNat h ++ deliveryEvents s s.params.debugIn h ∧
        t.buf h = { s.buf h with
          refcount := (s.buf h).refcount +
            (if (s.chanAt s.params.debugIn).kind = .buffer then 1 else 0) })) := by
  have hl := State.lt_of_refcount hr
  have dec : ∀ {u : State}, u.buf h = s.buf h → (∀ k, h ≠ k → u.buf k = s.buf k) → DispatchFrame s u →
      refDec h u = .ok t → DispatchFrame s t ∧ (∀ k, h ≠ k → t.buf k = s.buf k) ∧ t.events = u.events := by
    intro u _ ho hf hd
    refine ⟨hf.trans (DispatchFrame.refDec hd), fun k hk => ?_, ?_⟩
    · rw [refDec_buf hd, if_neg hk, ho k hk]
    · rw [(refDec_frame hd).1]
  unfold muxProcessRx at e
  simp only [← hc] at e
  split_ifs at e with h21
  · obtain ⟨d1, d2, d3⟩ := dec (u := s.emit (.rxNoReceiver ch)) rfl (fun _ _ => rfl) (.emit _ _) e
    exact ⟨d1, d2, .inl ⟨.inl h21, d3, e⟩⟩
  · split at e
    · rename_i hk
      obtain ⟨d1, d2, d3⟩ := dec (u := s.emit (.rxNoReceiver ch)) rfl (fun _ _ => rfl) (.emit _ _) e
      exact ⟨d1, d2, .inl ⟨.inr hk, d3, e⟩⟩
    · rename_i hk
      cases h1 : deliver ch.toNat h s with
      | error f => rw [h1] at e; cases e
      | ok u =>
        rw [h1] at e
        obtain ⟨f1, e1, b1⟩ := deliver_ok hl h1
        cases h2 : mirror s.params.debugIn h u with
        | error f => simp only [bind, Except.bind] at e; rw [h2] at e; cases e
        | ok v =>
          simp only [bind, Except.bind] at e
          rw [h2] at e
          simp only [mirror] at h2
          obtain ⟨f2, e2, b2⟩ := deliver_ok (by rw [f1.2]; exact hl) h2
          have hch : ∀ c, u.chanAt c = s.chanAt c := fun c => by simp [State.chanAt, f1.chan]
          have b1h : u.buf h = { s.buf h with refcount := (s.buf h).refcount + 1 } := by rw [b1]; simp [hk]
          have ed : deliveryEvents u s.params.debugIn h = deliveryEvents s s.params.debugIn h := by
            simp [deliveryEvents, hch, b1h, State.readRange, State.readData, f1.session]
          refine ⟨(f1.trans f2).trans (DispatchFrame.refDec e), fun k hkk => ?_, .inr (.inr ⟨by unfold maxChannels at h21; omega, hk, ?_, ?_⟩)⟩
          · rw [refDec_buf e, if_neg hkk, b2, if_neg (fun x => hkk x.1), b1, if_neg (fun x => hkk x.1)]
          · rw [(refDec_frame e).1]
            show v.events = _
            rw [e2, e1, ed]
          · rw [refDec_buf e, if_pos rfl, b2, hch]
            simp only [true_and, b1h]
            split_ifs with q1 q2 q2 <;> simp_all
    · rename_i hk
      cases h1 : deliver ch.toNat h s with
      | error f => rw [h1] at e; cases e
      | ok u =>
        rw [h1] at e
        obtain ⟨f1, e1, b1⟩ := deliver_ok hl h1
        have bs : ∀ k, u.buf k = s.buf k := fun k => by rw [b1]; simp [hk]
        obtain ⟨d1, d2, d3⟩ := dec (bs h) (fun k _ => bs k) f1 e
        exact ⟨d1, d2, .inr (.inl ⟨by unfold maxChannels at h21; omega, hk, by rw [d3, e1], u, bs h, f1, e⟩)⟩

/-- The mirror and the release that end a `TRANSMIT` (R232, R235), for a buffer with two references or more: one
delivery, one reference more for a whole-buffer receiver, one less for the release. -/
theorem mirror_release {c : Nat} {h : Handle} {s : State} (hr : 2 ≤ (s.buf h).refcount)
    (hm : (s.buf h).refcount < s.params.refMax) :
    ∃ t u, mirror c h s = .ok t ∧ refDec h t = .ok u ∧ DispatchFrame s u ∧
      u.events = s.events ++ deliveryEvents s c h ∧
      u.buf h = { s.buf h with
        refcount := (s.buf h).refcount + (if (s.chanAt c).kind = .buffer then 1 else 0) - 1 } ∧
      ∀ k, h ≠ k → u.buf k = s.buf k := by
  obtain ⟨t, ht⟩ := deliver_completes (c := c) (h := h) (s := s) (fun _ => hm)
  obtain ⟨f, ev, b⟩ := deliver_ok (State.lt_of_refcount (by omega)) ht
  have hb : t.buf h = { s.buf h with
      refcount := (s.buf h).refcount + (if (s.chanAt c).kind = .buffer then 1 else 0) } := by
    rw [b]
    by_cases hk : (s.chanAt c).kind = .buffer <;> simp [hk]
  have h2 : 2 ≤ (t.buf h).refcount := by
    rw [hb]
    exact Nat.le_add_right_of_le hr
  have hd := refDec_of_ne (h := h) (s := t) (by omega)
  refine ⟨t, _, ht, hd, f.trans (DispatchFrame.refDec hd), ?_, ?_, fun k hk => ?_⟩
  · rw [(refDec_frame hd).1]
    exact ev
  · rw [refDec_buf hd, if_pos rfl, if_neg (by omega), hb]
  · rw [refDec_buf hd, if_neg hk, b, if_neg (fun x => hk x.1)]

/-- `MuxProcessRx` completes for a live buffer with room for two references (R230, U3). -/
theorem muxProcessRx_completes {h : Handle} {s : State} (hr : (s.buf h).refcount ≠ 0)
    (hm : (s.buf h).refcount + 2 ≤ s.params.refMax) : ∃ t, muxProcessRx h s = .ok t := by
  have hl := State.lt_of_refcount hr
  unfold muxProcessRx
  simp only
  split_ifs
  · exact ⟨_, refDec_of_ne hr⟩
  · split
    · exact ⟨_, refDec_of_ne hr⟩
    · rename_i hk
      obtain ⟨u, hu⟩ := deliver_completes (c := (channelOf (s.readData h 2)).toNat) (h := h) (s := s)
        (fun _ => by omega)
      obtain ⟨f1, -, b1⟩ := deliver_ok hl hu
      have b1h : (u.buf h).refcount = (s.buf h).refcount + 1 := by rw [b1]; simp [hk]
      obtain ⟨v, hv⟩ := deliver_completes (c := s.params.debugIn) (h := h) (s := u)
        (fun _ => by rw [b1h, f1.params]; omega)
      obtain ⟨f2, -, b2⟩ := deliver_ok (by rw [f1.2]; exact hl) hv
      have b2h : (v.buf h).refcount ≠ 0 := by
        rw [b2]
        split_ifs
        · simp
        · rw [b1h]; omega
      rw [hu]
      simp only [bind, Except.bind, mirror]
      rw [hv]
      exact ⟨_, refDec_of_ne b2h⟩
    · rename_i hk
      obtain ⟨u, hu⟩ := deliver_completes (c := (channelOf (s.readData h 2)).toNat) (h := h) (s := s)
        (fun _ => by omega)
      obtain ⟨f1, -, b1⟩ := deliver_ok hl hu
      have b1h : (u.buf h).refcount ≠ 0 := by rw [b1]; simpa [hk] using hr
      rw [hu]
      exact ⟨_, refDec_of_ne b1h⟩

/-- The buffer that a frame was copied into (R142, R183). -/
theorem fillFromRing_buf {s : State} {h : Handle} {fl : Nat} (hl : h.toNat < s.pool.length) :
    ((s.takeBuf h).fillFromRing h fl).buf h =
      { data := Store.writeList (s.buf h).data 0 (s.ringRange 0 fl)
        frameLength := byteOf fl
        payloadLength := byteOf (fl - 4)
        refcount := 1 } := by
  have e : (s.takeBuf h).ringRange 0 fl = s.ringRange 0 fl := ringRange_congr rfl rfl 0 fl
  simp only [State.fillFromRing, e]
  simp [State.setPayloadLength, State.setFrameLength, State.writeRange, State.takeBuf, State.buf_modifyBuf, hl]

theorem fillFromRing_other {s : State} {h k : Handle} {fl : Nat} (hk : h ≠ k) :
    ((s.takeBuf h).fillFromRing h fl).buf k = s.buf k := by
  simp [State.fillFromRing, State.setPayloadLength, State.setFrameLength, State.writeRange, State.takeBuf,
    State.buf_modifyBuf, hk]

theorem fillFromRing_frame (s : State) (h : Handle) (fl : Nat) :
    DispatchFrame s ((s.takeBuf h).fillFromRing h fl) := by
  refine ⟨rfl, ?_⟩
  simp [State.fillFromRing, State.setPayloadLength, State.setFrameLength, State.writeRange, State.takeBuf]

/-- A filled buffer reads as the ring did, and above the frame as before (R183). -/
theorem fillFromRing_read {s : State} {h : Handle} {fl : Nat} (hl : h.toNat < s.pool.length) (off : Nat) :
    ((s.takeBuf h).fillFromRing h fl).readData h off =
      if off < fl then s.ringRead off else s.readData h off := by
  simp only [State.readData, fillFromRing_buf hl, Store.read?_writeList, ringRange_length, Nat.zero_le, true_and,
    Nat.zero_add, Nat.sub_zero]
  split_ifs with ho
  · rw [ringRange_get _ _ _ _ ho, Nat.zero_add]
    rfl
  · rw [(fillFromRing_frame s h fl).session]

/-- The payload of a filled buffer (R183). -/
theorem fillFromRing_payload {s : State} {h : Handle} {fl : Nat} (hl : h.toNat < s.pool.length) (h4 : 4 ≤ fl)
    (hf : fl ≤ maxFrame) :
    ((s.takeBuf h).fillFromRing h fl).readRange h headerLen
      (((s.takeBuf h).fillFromRing h fl).buf h).payloadLength.toNat = s.ringRange 3 (fl - 4) := by
  have e : (byteOf (fl - 4)).toNat = fl - 4 := by
    simp only [byteOf, BitVec.toNat_ofNat, maxFrame] at *
    omega
  simp only [fillFromRing_buf hl, e, State.readRange, State.ringRange]
  apply List.map_congr_left
  intro i hi
  rw [List.mem_range] at hi
  rw [fillFromRing_read hl, if_pos (by unfold headerLen; omega)]

end Sys2Proof.Machine
end

