-- ==== Sys2Proof/Laws/Scan.lean ====
section
/-! SUPPORT. The laws of the scan: what one scan step can do, what it never touches, and that a scan ends
suspended. -/

namespace Sys2Proof.Machine

/-! ## The updates of the cases, as record updates -/

theorem clearExpectedOnDrop_eq (s : State) : s.clearExpectedOnDrop = { s with expected := expectedAfterDrop s } := by
  unfold State.clearExpectedOnDrop expectedAfterDrop
  split_ifs <;> rfl

theorem sequenceCheck_eq (s : State) (q : BitVec 2) :
    s.sequenceCheck q = { s with rxSeq := q + 1, events := s.events ++ sequenceReport s q } := by
  unfold State.sequenceCheck sequenceReport
  by_cases h : q ≠ s.rxSeq <;> simp [h, State.emit]

/-- Case SKIP (R177). -/
theorem caseSkip_eq (b : Byte) (s : State) :
    caseSkip b s = { s with
      ring := { s.ring with current := s.ring.current + 1 }
      skipped := s.skipped + 1
      ignoreSkipped := if s.lastValid = true ∧ b = 0xFF then s.ignoreSkipped else false
      expected := expectedAfterDrop s } := by
  rw [caseSkip, clearExpectedOnDrop_eq]
  rfl

/-- Case TOO-LONG (R179). -/
theorem caseTooLong_eq (fl : Nat) (s : State) :
    caseTooLong fl s = { s with
      ring := { s.ring with current := s.ring.current + 1 }
      lastValid := false
      expected := expectedAfterDrop s
      events := s.events ++ [.frameTooLong fl] } := by
  rw [caseTooLong, clearExpectedOnDrop_eq]
  rfl

/-- Case NEED-MORE (R180). -/
theorem caseNeedMore_eq (fl : Nat) (s : State) : caseNeedMore fl s = { s with expected := byteOf fl } := rfl

/-- Case BAD-CHECKSUM (R181). -/
theorem caseBadChecksum_eq (found computed : Byte) (s : State) :
    caseBadChecksum found computed s = { s with
      ring := { s.ring with current := s.ring.current + 1 }
      lastValid := false
      expected := expectedAfterDrop s
      events := s.events ++ [.checksumMismatch found computed] } := by
  rw [caseBadChecksum, clearExpectedOnDrop_eq]
  rfl

/-- The state in which a valid frame is dispatched (R178, R182, R183). -/
def beforeDelivery (s : State) : State :=
  { s with
    skipped := 0
    ignoreSkipped := if s.skipped > 0 then true else s.ignoreSkipped
    rxSeq := seqOf (s.ringRead 1) + 1
    lastValid := true
    events := s.events ++ skippedReport s ++ sequenceReport s (seqOf (s.ringRead 1)) }

theorem beforeDelivery_eq (s : State) :
    (s.sofFound.sequenceCheck (seqOf (s.sofFound.ringRead 1))).setLastValid true = beforeDelivery s := by
  rw [sequenceCheck_eq, State.sofFound_eq]
  rfl

/-! ## One scan step -/

/-- What a scan step looks at once enough bytes are there (R176): an `SOF` at the scan position, and the frame
length that the next byte gives. -/
structure SofAtHead (s : State) (fl : Nat) : Prop where
  enough : minScan ≤ s.avail
  awaited : s.expected.toNat ≤ s.avail
  sof : s.ringRead 0 = sofByte
  length : fl = rxFrameLen (s.ringRead 1)

theorem rxFrameLen_bounds (b : Byte) : 8 ≤ rxFrameLen b ∧ rxFrameLen b ≤ 132 ∧ rxFrameLen b % 4 = 0 := by
  have := (serviceLenOf b).isLt
  unfold rxFrameLen
  omega

theorem scanStep_wait {s : State} (h : s.avail < minScan ∨ s.avail < s.expected.toNat) :
    scanStep s = .ok (.stop, s) := by
  rw [scanStep, if_pos h]

theorem scanStep_skip {s : State} (h1 : minScan ≤ s.avail) (h2 : s.expected.toNat ≤ s.avail)
    (h3 : s.ringRead 0 ≠ sofByte) : scanStep s = .ok (.again, caseSkip (s.ringRead 0) s) := by
  rw [scanStep, if_neg (by omega), if_pos h3]

theorem sofFound_ringRead (s : State) (i : Nat) : s.sofFound.ringRead i = s.ringRead i :=
  ringRead_congr (by simp) (by simp) i

theorem sofFound_ringRange (s : State) (a n : Nat) : s.sofFound.ringRange a n = s.ringRange a n :=
  ringRange_congr (by simp) (by simp) a n

theorem sofFound_avail (s : State) : s.sofFound.avail = s.avail := avail_congr (by simp)

/-- A scan step that found an `SOF`, by the length and the checksum. -/
theorem scanStep_sof {s : State} {fl : Nat} (h : SofAtHead s fl) :
    scanStep s =
      if maxFrame < fl then .ok (.again, caseTooLong fl (afterSof s))
      else if s.avail < fl then .ok (.stop, caseNeedMore fl (afterSof s))
      else if checksum (s.ringRange 0 (fl - 1)) ≠ s.ringRead (fl - 1) then
        .ok (.again, caseBadChecksum (s.ringRead (fl - 1)) (checksum (s.ringRange 0 (fl - 1))) (afterSof s))
      else
        match deliverIntoPool fl (beforeDelivery s) with
        | .error f => .error f
        | .ok u => .ok (.again, (u.ringRelease fl).setExpected 0) := by
  rw [scanStep, if_neg (by have := h.enough; have := h.awaited; omega), if_neg (by simp [h.sof])]
  simp only [sofFound_ringRead, sofFound_ringRange, sofFound_avail, ← h.length, deliverFrame]
  have e := beforeDelivery_eq s
  rw [sofFound_ringRead] at e
  rw [e, State.sofFound_eq]
  split_ifs
  · rfl
  · rfl
  · rfl
  · cases deliverIntoPool fl (beforeDelivery s) <;> rfl

/-- What one scan step can do, by the seven cases (R176). -/
theorem scanStep_cases {s t : State} {r : ScanResult} (e : scanStep s = .ok (r, t)) :
    ((s.avail < minScan ∨ s.avail < s.expected.toNat) ∧ r = .stop ∧ t = s) ∨
    (minScan ≤ s.avail ∧ s.expected.toNat ≤ s.avail ∧ s.ringRead 0 ≠ sofByte ∧ r = .again ∧
      t = caseSkip (s.ringRead 0) s) ∨
    (∃ fl, SofAtHead s fl ∧ maxFrame < fl ∧ r = .again ∧ t = caseTooLong fl (afterSof s)) ∨
    (∃ fl, SofAtHead s fl ∧ fl ≤ maxFrame ∧ s.avail < fl ∧ r = .stop ∧ t = caseNeedMore fl (afterSof s)) ∨
    (∃ fl, SofAtHead s fl ∧ fl ≤ maxFrame ∧ fl ≤ s.avail ∧
      checksum (s.ringRange 0 (fl - 1)) ≠ s.ringRead (fl - 1) ∧ r = .again ∧
      t = caseBadChecksum (s.ringRead (fl - 1)) (checksum (s.ringRange 0 (fl - 1))) (afterSof s)) ∨
    (∃ fl u, SofAtHead s fl ∧ fl ≤ maxFrame ∧ fl ≤ s.avail ∧
      checksum (s.ringRange 0 (fl - 1)) = s.ringRead (fl - 1) ∧ r = .again ∧
      deliverIntoPool fl (beforeDelivery s) = .ok u ∧ t = (u.ringRelease fl).setExpected 0) := by
  by_cases hw : s.avail < minScan ∨ s.avail < s.expected.toNat
  · rw [scanStep_wait hw] at e
    cases e
    exact .inl ⟨hw, rfl, rfl⟩
  · by_cases hs : s.ringRead 0 = sofByte
    · have h : SofAtHead s _ := ⟨by omega, by omega, hs, rfl⟩
      rw [scanStep_sof h] at e
      generalize rxFrameLen (s.ringRead 1) = fl at *
      split_ifs at e with h1 h2 h3
      · cases e
        exact .inr (.inr (.inl ⟨_, h, h1, rfl, rfl⟩))
      · cases e
        exact .inr (.inr (.inr (.inl ⟨_, h, by omega, h2, rfl, rfl⟩)))
      · cases e
        exact .inr (.inr (.inr (.inr (.inl ⟨_, h, by omega, by omega, h3, rfl, rfl⟩))))
      · cases hd : deliverIntoPool fl (beforeDelivery s) with
        | error f => rw [hd] at e; cases e
        | ok u =>
          rw [hd] at e
          cases e
          exact .inr (.inr (.inr (.inr (.inr
            ⟨_, u, h, by omega, by omega, Decidable.not_not.1 h3, rfl, hd, rfl⟩))))
    · rw [scanStep_skip (by omega) (by omega) hs] at e
      cases e
      exact .inr (.inl ⟨by omega, by omega, hs, rfl, rfl⟩)

/-! ## What the scan touches -/

/-- What a scan touches: the receive side, the pool's buffers and the events; of the ring only `current`. -/
def ScanFrame (s t : State) : Prop :=
  t = { s with
    pool := t.pool, ring := t.ring, expected := t.expected, rxSeq := t.rxSeq, lastValid := t.lastValid
    skipped := t.skipped, ignoreSkipped := t.ignoreSkipped, events := t.events } ∧
  t.pool.length = s.pool.length ∧ t.ring.buf = s.ring.buf ∧ t.ring.next = s.ring.next

theorem ScanFrame.refl (s : State) : ScanFrame s s := ⟨rfl, rfl, rfl, rfl⟩

theorem ScanFrame.trans {s t u : State} (h : ScanFrame s t) (k : ScanFrame t u) : ScanFrame s u := by
  obtain ⟨h1, h2, h3, h4⟩ := h
  obtain ⟨k1, k2, k3, k4⟩ := k
  refine ⟨?_, k2.trans h2, k3.trans h3, k4.trans h4⟩
  rw [k1, h1]

theorem DispatchFrame.scanFrame {s t : State} (h : DispatchFrame s t) : ScanFrame s t := by
  obtain ⟨h1, h2⟩ := h
  refine ⟨?_, h2, ?_, ?_⟩ <;> rw [h1]

theorem ScanFrame.sides {s t : State} (h : ScanFrame s t) :
    SameTransmitSide s t ∧ SameConfiguration s t ∧ t.resp = s.resp := by
  obtain ⟨h1, -⟩ := h
  refine ⟨⟨?_, ?_, ?_, ?_⟩, ⟨?_, ?_, ?_, ?_, ?_, ?_⟩, ?_⟩ <;> rw [h1]

theorem ScanFrame.params {s t : State} (h : ScanFrame s t) : t.params = s.params := h.sides.2.1.1

/-- What the buffer part of the delivery can do (R183): a log event without a free buffer, else the dispatch of
the filled buffer. -/
theorem deliverIntoPool_ok {fl : Nat} {s t : State} (e : deliverIntoPool fl s = .ok t) :
    (s.firstFree = none ∧ t = s.emit .rxNoBuffer) ∨
    ∃ h, s.firstFree = some h ∧ muxProcessRx h ((s.takeBuf h).fillFromRing h fl) = .ok t := by
  unfold deliverIntoPool at e
  split at e
  · rename_i hn
    cases e
    exact .inl ⟨hn, rfl⟩
  · rename_i h hs
    exact .inr ⟨h, hs, e⟩

/-- The handle of a free buffer is in the pool, whatever the pool's length. -/
theorem firstFree_lt {s : State} {h : Handle} (e : s.firstFree = some h) : h.toNat < s.pool.length := by
  unfold State.firstFree at e
  obtain ⟨i, hi, rfl⟩ := Option.map_eq_some_iff.1 e
  obtain ⟨hl, -⟩ := List.findIdx?_eq_some_iff_getElem.1 hi
  simp only [BitVec.toNat_ofNat]
  exact Nat.lt_of_le_of_lt (Nat.mod_le _ _) hl

theorem deliverIntoPool_frame {fl : Nat} {s t : State} (e : deliverIntoPool fl s = .ok t) : DispatchFrame s t := by
  rcases deliverIntoPool_ok e with ⟨-, rfl⟩ | ⟨h, hs, hm⟩
  · exact .emit _ _
  · have hl := firstFree_lt hs
    exact (fillFromRing_frame s h fl).trans
      (muxProcessRx_ok hm (by rw [fillFromRing_buf hl]; simp) _ rfl).1

theorem deliverIntoPool_completes {fl : Nat} {s : State} (hr : 3 ≤ s.params.refMax) :
    ∃ t, deliverIntoPool fl s = .ok t := by
  unfold deliverIntoPool
  split
  · exact ⟨_, rfl⟩
  · rename_i h hs
    have hl := firstFree_lt hs
    refine muxProcessRx_completes (by rw [fillFromRing_buf hl]; simp) ?_
    rw [fillFromRing_buf hl, (fillFromRing_frame s h fl).params]
    omega

theorem avail_drop {s t : State} {n : Nat} (hr : t.ring = { s.ring with current := s.ring.current + BitVec.ofNat 8 n })
    (h : n ≤ s.avail) : t.avail = s.avail - n := by
  rw [← avail_ringRelease h]
  exact avail_congr hr

/-- A scan step touches only the receive side, the pool and the events; it stops with the same unread bytes, or
goes on with fewer. -/
theorem scanStep_frame {s t : State} {r : ScanResult} (e : scanStep s = .ok (r, t)) :
    ScanFrame s t ∧ (r = .stop → t.ring = s.ring ∧ t.pool = s.pool) ∧ (r = .again → t.avail < s.avail) := by
  have drop1 : ∀ u : State, minScan ≤ s.avail → u.ring = { s.ring with current := s.ring.current + 1 } →
      u.avail < s.avail := by
    intro u h1 hr
    have := avail_drop (t := u) (n := 1) hr (by unfold minScan at h1; omega)
    unfold minScan at h1
    omega
  rcases scanStep_cases e with ⟨-, rfl, rfl⟩ | ⟨h1, h2, -, rfl, rfl⟩ | ⟨fl, h, -, rfl, rfl⟩ |
    ⟨fl, h, -, -, rfl, rfl⟩ | ⟨fl, h, -, -, -, rfl, rfl⟩ | ⟨fl, u, h, -, hl, -, rfl, hd, rfl⟩
  · exact ⟨.refl _, fun _ => ⟨rfl, rfl⟩, nofun⟩
  · rw [caseSkip_eq]
    refine ⟨⟨rfl, rfl, rfl, rfl⟩, nofun, fun _ => ?_⟩
    exact drop1 _ h1 rfl
  · rw [caseTooLong_eq]
    refine ⟨⟨rfl, rfl, rfl, rfl⟩, nofun, fun _ => ?_⟩
    exact drop1 _ h.enough rfl
  · exact ⟨⟨rfl, rfl, rfl, rfl⟩, fun _ => ⟨rfl, rfl⟩, nofun⟩
  · rw [caseBadChecksum_eq]
    refine ⟨⟨rfl, rfl, rfl, rfl⟩, nofun, fun _ => ?_⟩
    exact drop1 _ h.enough rfl
  · have hf := deliverIntoPool_frame hd
    have hr : u.ring = s.ring := hf.ring
    have hb := rxFrameLen_bounds (s.ringRead 1)
    rw [← h.length] at hb
    refine ⟨?_, nofun, fun _ => ?_⟩
    · have h1 : ScanFrame s (beforeDelivery s) := ⟨rfl, rfl, rfl, rfl⟩
      have h2 : ScanFrame u ((u.ringRelease fl).setExpected 0) := ⟨rfl, rfl, rfl, rfl⟩
      exact (h1.trans hf.scanFrame).trans h2
    · rw [avail_drop (s := s) (n := fl) (by simp [State.ringRelease, State.setExpected, hr]) hl]
      omega

theorem scanStep_completes {s : State} (hr : 3 ≤ s.params.refMax) : ∃ r t, scanStep s = .ok (r, t) := by
  by_cases hw : s.avail < minScan ∨ s.avail < s.expected.toNat
  · exact ⟨_, _, scanStep_wait hw⟩
  · by_cases hs : s.ringRead 0 = sofByte
    · rw [scanStep_sof ⟨by omega, by omega, hs, rfl⟩]
      obtain ⟨u, hu⟩ := deliverIntoPool_completes (fl := rxFrameLen (s.ringRead 1)) (s := beforeDelivery s) hr
      rw [hu]
      split_ifs <;> exact ⟨_, _, rfl⟩
    · exact ⟨_, _, scanStep_skip (by omega) (by omega) hs⟩

/-- A scan step that stops leaves a state in which the next one stops at once (R175, R180). -/
theorem scanStep_stop {s t : State} (e : scanStep s = .ok (.stop, t)) :
    t.avail < minScan ∨ t.avail < t.expected.toNat := by
  rcases scanStep_cases e with ⟨h, -, rfl⟩ | ⟨-, -, -, h, -⟩ | ⟨fl, -, -, h, -⟩ |
    ⟨fl, h, hl, ha, -, rfl⟩ | ⟨fl, -, -, -, -, h, -⟩ | ⟨fl, u, -, -, -, -, h, -⟩
  · exact h
  · cases h
  · cases h
  · right
    show s.avail < (byteOf fl).toNat
    simp only [byteOf, BitVec.toNat_ofNat, maxFrame] at *
    omega
  · cases h
  · cases h

/-! ## The whole scan -/

/-- A scan touches what its steps touch. -/
theorem scanLoop_frame {n : Nat} {s t : State} (e : scanLoop n s = .ok t) : ScanFrame s t := by
  induction n generalizing s with
  | zero => cases e; exact .refl _
  | succ n ih =>
    rw [scanLoop] at e
    split at e
    · cases e
    · rename_i u hu
      cases e
      exact (scanStep_frame hu).1
    · rename_i u hu
      exact (scanStep_frame hu).1.trans (ih e)

/-- In a legal build a scan of any number of steps completes. -/
theorem scanLoop_completes {n : Nat} {s : State} (hr : 3 ≤ s.params.refMax) : ∃ t, scanLoop n s = .ok t := by
  induction n generalizing s with
  | zero => exact ⟨_, rfl⟩
  | succ n ih =>
    obtain ⟨r, t, e⟩ := scanStep_completes hr
    rw [scanLoop, e]
    cases r with
    | stop => exact ⟨t, rfl⟩
    | again => exact ih (by rw [(scanStep_frame e).1.params]; exact hr)

/-- A property that every scan step keeps is kept by a scan. -/
theorem scanLoop_induct {P : State → Prop} (hs : ∀ {s t : State} {r : ScanResult}, P s → scanStep s = .ok (r, t) → P t)
    {n : Nat} {s t : State} (h : P s) (e : scanLoop n s = .ok t) : P t := by
  induction n generalizing s with
  | zero => cases e; exact h
  | succ n ih =>
    rw [scanLoop] at e
    split at e
    · cases e
    · rename_i u hu
      cases e
      exact hs h hu
    · rename_i u hu
      exact ih (hs h hu) e

/-- With more steps than unread bytes, whatever a scan answers is suspended (R175, R185). -/
theorem scanLoop_stopped {n : Nat} {s t : State} (hn : s.avail < n) (e : scanLoop n s = .ok t) :
    t.avail < minScan ∨ t.avail < t.expected.toNat := by
  induction n generalizing s with
  | zero => omega
  | succ n ih =>
    rw [scanLoop] at e
    split at e
    · cases e
    · rename_i u hu
      cases e
      exact scanStep_stop hu
    · rename_i u hu
      exact ih (by have := (scanStep_frame hu).2.2 rfl; omega) e

theorem scan_stopped {s t : State} (e : scan s = .ok t) : t.avail < minScan ∨ t.avail < t.expected.toNat :=
  scanLoop_stopped (avail_lt s) e

/-- With more steps than unread bytes, a scan is `ScanStep` repeated until it answers STOP (R175, R185). -/
theorem scanLoop_runs {n : Nat} {s t : State} (hn : s.avail < n) (e : scanLoop n s = .ok t) : ScanRuns s t := by
  induction n generalizing s with
  | zero => omega
  | succ n ih =>
    rw [scanLoop] at e
    split at e
    · cases e
    · rename_i u hu
      cases e
      exact .stop hu
    · rename_i u hu
      exact .again hu (ih (by have := (scanStep_frame hu).2.2 rfl; omega) e)

theorem scan_runs {s t : State} (e : scan s = .ok t) : ScanRuns s t := scanLoop_runs (avail_lt s) e

theorem scan_frame {s t : State} (e : scan s = .ok t) : ScanFrame s t := scanLoop_frame e

theorem scan_completes {s : State} (hr : 3 ≤ s.params.refMax) : ∃ t, scan s = .ok t := scanLoop_completes hr

/-- More steps than unread bytes make no difference (R185). -/
theorem scanLoop_fuel {n m : Nat} {s : State} (hn : s.avail < n) (hm : s.avail < m) :
    scanLoop n s = scanLoop m s := by
  induction n generalizing s m with
  | zero => omega
  | succ n ih =>
    obtain ⟨m, rfl⟩ : ∃ k, m = k + 1 := ⟨m - 1, by omega⟩
    rw [scanLoop, scanLoop]
    split
    · rfl
    · rfl
    · rename_i u hu
      have := (scanStep_frame hu).2.2 rfl
      exact ih (by omega) (by omega)

/-- The first step of a scan that goes on. -/
theorem scan_again {s t : State} (e : scanStep s = .ok (.again, t)) : scan s = scan t := by
  have ha := (scanStep_frame e).2.2 rfl
  have hs := avail_lt s
  have e1 : scan s = scanLoop 255 t := by
    show scanLoop (255 + 1) s = _
    rw [scanLoop, e]
  rw [e1]
  exact scanLoop_fuel (by omega) (avail_lt t)

/-- A scan whose first step stops. -/
theorem scan_stop {s t : State} (e : scanStep s = .ok (.stop, t)) : scan s = .ok t := by
  show scanLoop (255 + 1) s = _
  rw [scanLoop, e]

end Sys2Proof.Machine
end

