-- ==== Sys2Proof/Laws/PoolAll.lean ====
section
/-! SUPPORT. A property of single buffers that the pool's elementary changes keep is kept by the operations:
the elementary changes once, and what the legal values of R24 and the canonical form make of them. -/

namespace Sys2Proof.Machine

/-- `P` is kept by every change that an operation makes to one buffer, in a build of parameters `p`. -/
structure BufClosed (p : Params) (P : Buf → Prop) : Prop where
  fresh : P Buf.fresh
  inc : ∀ b, P b → b.refcount < p.refMax → P { b with refcount := b.refcount + 1 }
  dec : ∀ b, P b → P { b with refcount := b.refcount - 1 }
  scrub : ∀ b, P b → P { b with data := scrubbed p.scrubByte }
  take : ∀ b, P b → P { b with refcount := 1, frameLength := 0, payloadLength := 0 }
  write : ∀ b a vs, P b → a + vs.length ≤ maxFrame → P { b with data := Store.writeList b.data a vs }
  frameLength : ∀ b n, P b → 8 ≤ n → n ≤ maxFrame → n % 4 = 0 → P { b with frameLength := byteOf n }
  payloadLength : ∀ b (n : BitVec 8), P b → n.toNat ≤ maxPayload → P { b with payloadLength := n }

/-- Every buffer of the pool has property `P`. -/
def PoolAll (P : Buf → Prop) (s : State) : Prop := ∀ b ∈ s.pool, P b

theorem PoolAll.congr {P : Buf → Prop} {s t : State} (hp : t.pool = s.pool) (h : PoolAll P s) : PoolAll P t := by
  unfold PoolAll
  rw [hp]
  exact h

theorem PoolAll.modifyBuf {P : Buf → Prop} {s : State} (h : PoolAll P s) (k : Handle) (f : Buf → Buf)
    (hf : ∀ b, P b → P (f b)) : PoolAll P (s.modifyBuf k f) :=
  State.forall_modifyBuf h k f (fun b _ => hf b)

/-- A buffer that the pool holds has the property. -/
theorem PoolAll.buf {P : Buf → Prop} {s : State} (h : PoolAll P s) {k : Handle} (hl : k.toNat < s.pool.length) :
    P (s.buf k) := h _ (State.buf_mem hl)

/-- A change to a constant that has the property. -/
theorem PoolAll.setBuf {P : Buf → Prop} {s : State} (h : PoolAll P s) (k : Handle) (f : Buf → Buf)
    (hf : k.toNat < s.pool.length → P (f (s.buf k))) : PoolAll P (s.modifyBuf k f) := by
  intro b hb
  obtain ⟨i, hi, rfl⟩ := List.mem_iff_getElem.1 hb
  simp only [State.modifyBuf, List.length_modify] at hi
  simp only [State.modifyBuf, List.getElem_modify]
  split_ifs with hk
  · subst hk
    have := hf hi
    simpa [State.buf, List.getD_eq_getElem?_getD, List.getElem?_eq_getElem hi] using this
  · exact h _ (List.getElem_mem hi)

variable {p : Params} {P : Buf → Prop}

theorem PoolAll.refInc (c : BufClosed p P) {s t : State} {h : Handle} (hs : s.params = p) (ha : PoolAll P s)
    (e : refInc h s = .ok t) : PoolAll P t := by
  obtain ⟨hlt, rfl⟩ := refInc_ok e
  exact ha.setBuf h _ (fun hl => c.inc _ (ha.buf hl) (by rw [← hs]; exact hlt))

theorem PoolAll.refDec (c : BufClosed p P) {s t : State} {h : Handle} (hs : s.params = p) (ha : PoolAll P s)
    (e : refDec h s = .ok t) : PoolAll P t := by
  obtain ⟨-, rfl⟩ := refDec_ok e
  split_ifs with h1
  · have h0 : PoolAll P (s.setRefcount h 0) := by
      refine ha.setBuf h _ (fun hl => ?_)
      have := c.dec _ (ha.buf hl)
      rw [h1] at this
      exact this
    exact h0.modifyBuf h _ (fun b hb => by rw [show (s.setRefcount h 0).params = p from hs]; exact c.scrub b hb)
  · exact ha.setBuf h _ (fun hl => c.dec _ (ha.buf hl))

theorem PoolAll.deliver (c : BufClosed p P) {s t : State} {h : Handle} {n : Nat} (hs : s.params = p)
    (ha : PoolAll P s) (e : deliver n h s = .ok t) : PoolAll P t := by
  unfold Machine.deliver at e
  split at e
  · cases e; exact ha
  · cases hr : Machine.refInc h s with
    | error f => rw [hr] at e; cases e
    | ok u =>
      rw [hr] at e
      cases e
      exact PoolAll.congr (s := u) rfl (ha.refInc c hs hr)
  · cases e; exact ha

theorem PoolAll.muxProcessRx (c : BufClosed p P) {s t : State} {h : Handle} (hs : s.params = p) (ha : PoolAll P s)
    (hr : (s.buf h).refcount ≠ 0) (e : muxProcessRx h s = .ok t) : PoolAll P t := by
  have hl := State.lt_of_refcount hr
  unfold Machine.muxProcessRx at e
  simp only at e
  split_ifs at e
  · exact PoolAll.refDec c (s := s.emit _) hs ha e
  · split at e
    · exact PoolAll.refDec c (s := s.emit _) hs ha e
    · cases h1 : Machine.deliver (channelOf (s.readData h 2)).toNat h s with
      | error f => rw [h1] at e; cases e
      | ok u =>
        rw [h1] at e
        have f1 := (deliver_ok hl h1).1
        cases h2 : mirror s.params.debugIn h u with
        | error f => simp only [bind, Except.bind] at e; rw [h2] at e; cases e
        | ok v =>
          simp only [bind, Except.bind] at e
          rw [h2] at e
          have f2 := (deliver_ok (s := u) (by rw [f1.2]; exact hl) h2).1
          have hu : u.params = p := f1.params.trans hs
          exact PoolAll.refDec c (f2.params.trans hu) (((ha.deliver c hs h1)).deliver c hu h2) e
    · cases h1 : Machine.deliver (channelOf (s.readData h 2)).toNat h s with
      | error f => rw [h1] at e; cases e
      | ok u =>
        rw [h1] at e
        have f1 := (deliver_ok hl h1).1
        exact PoolAll.refDec c (f1.params.trans hs) (ha.deliver c hs h1) e

theorem PoolAll.fillFromRing (c : BufClosed p P) {s : State} {h : Handle} {fl : Nat} (ha : PoolAll P s)
    (h8 : 8 ≤ fl) (hm : fl ≤ maxFrame) (h4 : fl % 4 = 0) : PoolAll P ((s.takeBuf h).fillFromRing h fl) := by
  have h1 : PoolAll P (s.takeBuf h) := ha.modifyBuf h _ (fun b hb => c.take b hb)
  have h2 : PoolAll P ((s.takeBuf h).writeRange h 0 ((s.takeBuf h).ringRange 0 fl)) :=
    h1.modifyBuf h _ (fun b hb => c.write b 0 _ hb (by simpa using hm))
  have h3 := h2.modifyBuf h (fun b => { b with frameLength := byteOf fl }) (fun b hb => c.frameLength b fl hb h8 hm h4)
  refine h3.modifyBuf h _ (fun b hb => c.payloadLength b _ hb ?_)
  simp only [byteOf, BitVec.toNat_ofNat, maxFrame, maxPayload] at *
  omega

theorem PoolAll.scanStep (c : BufClosed p P) {s t : State} {r : ScanResult} (hs : s.params = p) (ha : PoolAll P s)
    (e : scanStep s = .ok (r, t)) : PoolAll P t := by
  rcases scanStep_cases e with ⟨-, rfl, rfl⟩ | ⟨h1, h2, -, rfl, rfl⟩ | ⟨fl, h, -, rfl, rfl⟩ |
    ⟨fl, h, -, -, rfl, rfl⟩ | ⟨fl, h, -, -, -, rfl, rfl⟩ | ⟨fl, u, h, hm, hl, -, rfl, hd, rfl⟩
  · exact ha
  · rw [caseSkip_eq]; exact ha
  · rw [caseTooLong_eq]; exact ha
  · exact ha
  · rw [caseBadChecksum_eq]; exact ha
  · have hb := rxFrameLen_bounds (s.ringRead 1)
    rw [← h.length] at hb
    refine PoolAll.congr (s := u) rfl ?_
    have ha' : PoolAll P (beforeDelivery s) := ha
    rcases deliverIntoPool_ok hd with ⟨-, rfl⟩ | ⟨k, hk, hx⟩
    · exact ha'
    · have hkl := firstFree_lt hk
      have hr : ((((beforeDelivery s).takeBuf k).fillFromRing k fl).buf k).refcount ≠ 0 := by
        rw [fillFromRing_buf hkl]
        exact Nat.one_ne_zero
      have hf := (fillFromRing_frame (beforeDelivery s) k fl).params
      have hq := ha'.fillFromRing c (h := k) hb.1 hm hb.2.2
      generalize ((beforeDelivery s).takeBuf k).fillFromRing k fl = v at *
      exact hq.muxProcessRx c (hf.trans hs) hr hx

/-- A scan keeps a closed property of every buffer. -/
theorem PoolAll.scan (c : BufClosed p P) {s t : State} (hs : s.params = p) (ha : PoolAll P s)
    (e : scan s = .ok t) : PoolAll P t := by
  have := scanLoop_induct (P := fun u => u.params = p ∧ PoolAll P u)
    (fun h k => ⟨(scanStep_frame k).1.params.trans h.1, h.2.scanStep c h.1 k⟩) ⟨hs, ha⟩ e
  exact this.2

/-! ## The two properties -/

/-- The legal values of a buffer's fields (R24). -/
def BufLegal (p : Params) (b : Buf) : Prop :=
  b.refcount ≤ p.refMax ∧ b.payloadLength.toNat ≤ maxPayload ∧
    (b.frameLength = 0 ∨ 8 ≤ b.frameLength.toNat ∧ b.frameLength.toNat ≤ maxFrame ∧ b.frameLength.toNat % 4 = 0)

theorem bufLegal_closed {p : Params} (hp : 1 ≤ p.refMax) : BufClosed p (BufLegal p) where
  fresh := ⟨Nat.zero_le _, Nat.zero_le _, .inl rfl⟩
  inc := fun _ h hlt => ⟨hlt, h.2⟩
  dec := fun _ h => ⟨Nat.le_trans (Nat.sub_le _ _) h.1, h.2⟩
  scrub := fun _ h => h
  take := fun _ _ => ⟨hp, Nat.zero_le _, .inl rfl⟩
  write := fun _ _ _ h _ => h
  frameLength := fun _ n h h8 hm h4 => by
    have e : (byteOf n).toNat = n := by
      simp only [byteOf, BitVec.toNat_ofNat, maxFrame] at *
      omega
    exact ⟨h.1, h.2.1, .inr (by rw [e]; exact ⟨h8, hm, h4⟩)⟩
  payloadLength := fun _ _ h hn => ⟨h.1, hn, h.2.2⟩

/-- The canonical form and the bound of a buffer's data (R65). -/
def BufCanonical (b : Buf) : Prop := Memory.wf b.data ∧ Store.below maxFrame b.data

theorem bufCanonical_closed (p : Params) : BufClosed p BufCanonical where
  fresh := ⟨Store.wf_nil, Store.below_nil _⟩
  inc := fun _ h _ => h
  dec := fun _ h => h
  scrub := fun _ _ => ⟨scrubbed_wf _, scrubbed_below _⟩
  take := fun _ h => h
  write := fun _ a vs h hl => ⟨Store.wf_writeList h.1 a vs, Store.below_writeList h.2 hl⟩
  frameLength := fun _ _ h _ _ _ => h
  payloadLength := fun _ _ h _ => h

end Sys2Proof.Machine
end

