-- ==== Sys2Proof/Laws/Queue.lean ====
section
/-! SUPPORT. The laws of the transmit queue: the free-running indices as a first entry and a count, and what
an enqueue and a dequeue do to the list of queued handles. -/

namespace Sys2Proof.Machine

/-! ## The index arithmetic (R29) -/

theorem depth_pos {p : Params} (hp : p.wf) : 0 < p.queueDepth := by
  have h := hp.1
  rcases Nat.eq_zero_or_pos p.queueDepth with e | e
  · rw [e] at h; simp at h
  · exact e

theorem depth_lt {p : Params} (hp : p.wf) : p.queueDepth < 2 ^ p.idxW := by
  have := hp.2.1
  have := depth_pos hp
  omega

/-- The slot index may be taken before or after an index wraps. -/
theorem depth_dvd {p : Params} (hp : p.wf) : p.queueDepth ∣ 2 ^ p.idxW := by
  have h := hp.1
  rw [h]
  apply Nat.pow_dvd_pow
  have hlt := depth_lt hp
  rw [h] at hlt
  exact Nat.le_of_lt ((Nat.pow_lt_pow_iff_right (by decide)).1 hlt)

/-- The write index is the read index plus the count. -/
theorem wr_eq {s : State} (hr : s.txq.rd < 2 ^ s.params.idxW) (hw : s.txq.wr < 2 ^ s.params.idxW) :
    s.txq.wr = (s.txq.rd + s.queueCount) % 2 ^ s.params.idxW := by
  unfold State.queueCount
  generalize 2 ^ s.params.idxW = w at *
  rw [Nat.add_mod_mod, show s.txq.rd + (s.txq.wr + w - s.txq.rd) = s.txq.wr + w by omega,
    Nat.add_mod_right, Nat.mod_eq_of_lt hw]

theorem queueCount_lt (s : State) : s.queueCount < 2 ^ s.params.idxW := Nat.mod_lt _ (Nat.two_pow_pos _)

/-- The count, from the two indices. -/
theorem queueCount_of {s : State} {c : Nat} (hr : s.txq.rd < 2 ^ s.params.idxW) (hc : c < 2 ^ s.params.idxW)
    (hw : s.txq.wr = (s.txq.rd + c) % 2 ^ s.params.idxW) : s.queueCount = c := by
  unfold State.queueCount
  generalize 2 ^ s.params.idxW = w at *
  rw [hw]
  by_cases h : s.txq.rd + c < w
  · rw [Nat.mod_eq_of_lt h, show s.txq.rd + c + w - s.txq.rd = c + w by omega, Nat.add_mod_right,
      Nat.mod_eq_of_lt hc]
  · have e : (s.txq.rd + c) % w = s.txq.rd + c - w := by
      rw [Nat.mod_eq_sub_mod (by omega), Nat.mod_eq_of_lt (by omega)]
    rw [e, show s.txq.rd + c - w + w - s.txq.rd = c by omega, Nat.mod_eq_of_lt hc]

/-- The queue is empty exactly where the indices are equal (R29). -/
theorem queueCount_eq_zero {s : State} (hr : s.txq.rd < 2 ^ s.params.idxW) (hw : s.txq.wr < 2 ^ s.params.idxW) :
    s.queueCount = 0 ↔ s.txq.rd = s.txq.wr := by
  constructor
  · intro h
    have := wr_eq hr hw
    rw [h, Nat.add_zero, Nat.mod_eq_of_lt hr] at this
    exact this.symm
  · intro h
    exact queueCount_of hr (Nat.two_pow_pos _) (by rw [Nat.add_zero, Nat.mod_eq_of_lt hr, h])

/-- Two places of the queue share a slot only where they are the same. -/
theorem slot_ne {d a i j : Nat} (hi : i < d) (hj : j < d) (h : i ≠ j) : (a + i) % d ≠ (a + j) % d := by
  intro e
  apply h
  have e' : i ≡ j [MOD d] := Nat.ModEq.add_left_cancel' a e
  have := Nat.ModEq.eq_of_lt_of_lt e' hi hj
  exact this

@[simp] theorem queued_length (s : State) : s.queued.length = s.queueCount := by simp [State.queued]

theorem queued_get {s : State} {i : Nat} (hi : i < s.queueCount) :
    s.queued[i]? = some (s.slotAt ((s.txq.rd + i) % s.params.queueDepth)) := by
  simp [State.queued, hi]

/-- The queued handles depend on the queue, the build and the session alone. -/
theorem queued_congr {s t : State} (hq : t.txq = s.txq) (hp : t.params = s.params) (hs : t.session = s.session) :
    t.queued = s.queued := by
  simp [State.queued, State.queueCount, State.slotAt, hq, hp, hs]

theorem queueCount_congr {s t : State} (hq : t.txq = s.txq) (hp : t.params = s.params) :
    t.queueCount = s.queueCount := by
  simp [State.queueCount, hq, hp]

theorem QueueInv.congr {s t : State} (hq : t.txq = s.txq) (hp : t.params = s.params) (h : QueueInv s) :
    QueueInv t := by
  unfold QueueInv at *
  rw [queueCount_congr hq hp, hq, hp]
  exact h

/-! ## Enqueue (R161) -/

/-- An enqueue into a full queue is logged and changes nothing. -/
theorem qEnq_full {h : Handle} {s : State} (e : s.queueCount = s.params.queueDepth) :
    qEnq h s = (false, s.emit .queueFull) := by simp [qEnq, e]

/-- An enqueue that finds room: the result, with its new queue. -/
theorem qEnq_room {h : Handle} {s : State} (e : s.queueCount ≠ s.params.queueDepth) :
    qEnq h s = (true, { s with
      txq := { slot := Store.write s.txq.slot (s.txq.wr % s.params.queueDepth) h
               rd := s.txq.rd
               wr := s.idxNext s.txq.wr } }) := by simp [qEnq, e]

/-- An enqueue changes nothing but the queue and the events. -/
theorem qEnq_frame (h : Handle) (s : State) :
    (qEnq h s).2 = { s with txq := (qEnq h s).2.txq, events := (qEnq h s).2.events } := by
  unfold qEnq
  split_ifs <;> simp [State.emit]

/-- After an enqueue that finds room the count is one up, and the handle is the youngest. -/
theorem qEnq_room_queued {h : Handle} {s : State} (hi : QueueInv s) (e : s.queueCount ≠ s.params.queueDepth) :
    (qEnq h s).2.queueCount = s.queueCount + 1 ∧ (qEnq h s).2.queued = s.queued ++ [h] := by
  obtain ⟨hp, hr, hw, hc, -⟩ := hi
  have hlt : s.queueCount < s.params.queueDepth := Nat.lt_of_le_of_ne hc e
  have hd := depth_lt hp
  have hcount : (qEnq h s).2.queueCount = s.queueCount + 1 := by
    rw [qEnq_room e]
    refine queueCount_of (c := s.queueCount + 1) hr (by show s.queueCount + 1 < 2 ^ s.params.idxW; omega) ?_
    show (s.txq.wr + 1) % 2 ^ s.params.idxW = (s.txq.rd + (s.queueCount + 1)) % 2 ^ s.params.idxW
    conv_lhs => rw [wr_eq hr hw]
    rw [Nat.mod_add_mod, Nat.add_assoc]
  refine ⟨hcount, ?_⟩
  have hslot : s.txq.wr % s.params.queueDepth = (s.txq.rd + s.queueCount) % s.params.queueDepth := by
    conv_lhs => rw [wr_eq hr hw]
    rw [Nat.mod_mod_of_dvd _ (depth_dvd hp)]
  simp only [State.queued, hcount, List.range_succ, List.map_append, List.map_cons, List.map_nil]
  rw [qEnq_room e]
  congr 1
  · apply List.map_congr_left
    intro i hi
    rw [List.mem_range] at hi
    have := slot_ne (a := s.txq.rd) (d := s.params.queueDepth) (i := i) (j := s.queueCount) (by omega) hlt (by omega)
    simp [State.slotAt, hslot, Store.read?_write_other _ _ this]
  · simp [State.slotAt, hslot]

/-! ## Dequeue (R162) -/

theorem qDeq_empty {s : State} (e : s.txq.rd = s.txq.wr) : qDeq s = (none, s.emit .queueEmpty) := by
  simp [qDeq, e]

theorem qDeq_some {s : State} (e : s.txq.rd ≠ s.txq.wr) :
    qDeq s = (some (s.slotAt (s.txq.rd % s.params.queueDepth)),
      { s with txq := { s.txq with rd := s.idxNext s.txq.rd } }) := by simp [qDeq, e]

/-- A dequeue changes nothing but the queue and the events. -/
theorem qDeq_frame (s : State) :
    (qDeq s).2 = { s with txq := (qDeq s).2.txq, events := (qDeq s).2.events } := by
  unfold qDeq
  split_ifs <;> simp [State.emit]

/-- A dequeue of a queue that is not empty answers the oldest handle and leaves the others. -/
theorem qDeq_queued {s : State} (hi : QueueInv s) (e : s.txq.rd ≠ s.txq.wr) :
    (qDeq s).2.queueCount + 1 = s.queueCount ∧
      s.queued = s.slotAt (s.txq.rd % s.params.queueDepth) :: (qDeq s).2.queued := by
  obtain ⟨hp, hr, hw, hc, -⟩ := hi
  have hne : s.queueCount ≠ 0 := fun h => e ((queueCount_eq_zero hr hw).1 h)
  obtain ⟨c, hcc⟩ : ∃ c, s.queueCount = c + 1 := ⟨s.queueCount - 1, by omega⟩
  have hlt := queueCount_lt s
  have hcount : (qDeq s).2.queueCount = c := by
    rw [qDeq_some e]
    refine queueCount_of (c := c) (Nat.mod_lt _ (Nat.two_pow_pos _))
      (by show c < 2 ^ s.params.idxW; omega) ?_
    show s.txq.wr = ((s.txq.rd + 1) % 2 ^ s.params.idxW + c) % 2 ^ s.params.idxW
    conv_lhs => rw [wr_eq hr hw]
    rw [hcc, Nat.mod_add_mod, Nat.add_assoc, Nat.add_comm 1 c]
  refine ⟨by omega, ?_⟩
  simp only [State.queued, hcount, hcc, List.range_succ_eq_map, List.map_cons, List.map_map, Nat.add_zero]
  rw [qDeq_some e]
  congr 1
  apply List.map_congr_left
  intro i _
  show s.slotAt ((s.txq.rd + (i + 1)) % s.params.queueDepth) =
    s.slotAt (((s.txq.rd + 1) % 2 ^ s.params.idxW + i) % s.params.queueDepth)
  congr 1
  rw [← Nat.mod_mod_of_dvd _ (depth_dvd hp)]
  conv_rhs => rw [← Nat.mod_mod_of_dvd _ (depth_dvd hp)]
  rw [Nat.mod_add_mod, Nat.add_assoc, Nat.add_comm 1 i]

/-! ## The invariant -/

/-- An enqueue of a pool handle keeps the queue legal. -/
theorem qEnq_inv {h : Handle} {s : State} (hi : QueueInv s) (hh : h.toNat < s.params.poolBlocks) :
    QueueInv (qEnq h s).2 := by
  by_cases e : s.queueCount = s.params.queueDepth
  · rw [qEnq_full e]; exact hi.congr rfl rfl
  · have hcount := (qEnq_room_queued (h := h) hi e).1
    obtain ⟨hp, hr, hw, hc, hs⟩ := hi
    have hlt : s.queueCount < s.params.queueDepth := Nat.lt_of_le_of_ne hc e
    have hslot : s.txq.wr % s.params.queueDepth = (s.txq.rd + s.queueCount) % s.params.queueDepth := by
      conv_lhs => rw [wr_eq hr hw]
      rw [Nat.mod_mod_of_dvd _ (depth_dvd hp)]
    unfold QueueInv
    rw [hcount, qEnq_room e]
    refine ⟨hp, hr, Nat.mod_lt _ (Nat.two_pow_pos _), hlt, ?_⟩
    intro i hi
    simp only [hslot, Store.read?_write]
    by_cases hj : i = s.queueCount
    · exact ⟨h, by simp [hj], hh⟩
    · have := slot_ne (a := s.txq.rd) (d := s.params.queueDepth) (i := s.queueCount) (j := i) hlt (by omega) (by omega)
      rw [if_neg this]
      exact hs i (by omega)

/-- A dequeue keeps the queue legal. -/
theorem qDeq_inv {s : State} (hi : QueueInv s) : QueueInv (qDeq s).2 := by
  by_cases e : s.txq.rd = s.txq.wr
  · rw [qDeq_empty e]; exact hi.congr rfl rfl
  · have hcount := (qDeq_queued hi e).1
    obtain ⟨hp, hr, hw, hc, hs⟩ := hi
    unfold QueueInv
    generalize hc' : (qDeq s).2.queueCount = c at *
    rw [qDeq_some e]
    refine ⟨hp, Nat.mod_lt _ (Nat.two_pow_pos _), hw, by show c ≤ s.params.queueDepth; omega, ?_⟩
    intro i hi
    have := hs (i + 1) (by omega)
    show ∃ h, Store.read? s.txq.slot (((s.txq.rd + 1) % 2 ^ s.params.idxW + i) % s.params.queueDepth) = some h ∧
      h.toNat < s.params.poolBlocks
    rw [← Nat.mod_mod_of_dvd _ (depth_dvd hp), Nat.mod_add_mod, Nat.mod_mod_of_dvd _ (depth_dvd hp),
      Nat.add_assoc, Nat.add_comm 1 i]
    exact this

/-- The dequeued handle is one of the pool. -/
theorem qDeq_handle {s : State} (hi : QueueInv s) (e : s.txq.rd ≠ s.txq.wr) :
    (s.slotAt (s.txq.rd % s.params.queueDepth)).toNat < s.params.poolBlocks := by
  have hne : s.queueCount ≠ 0 := fun h => e ((queueCount_eq_zero hi.2.1 hi.2.2.1).1 h)
  obtain ⟨h, hs, hh⟩ := hi.2.2.2.2 0 (by omega)
  rw [Nat.add_zero] at hs
  simpa [State.slotAt, hs] using hh

end Sys2Proof.Machine
end

