-- ==== Sys2Proof/Laws/Drain.lean ====
section
/-! SUPPORT. The laws of the transmit operations: what one turn of the drain can do, what the drain and the
assembly never touch, and what a stamped frame reads as. -/

namespace Sys2Proof.Machine

/-! ## What the transmit operations touch -/

/-- What a transmit operation touches: the pool's buffers, the queue, the sequence counter, the draws and the
events. -/
def TransmitFrame (s t : State) : Prop :=
  t = { s with
    pool := t.pool, txq := t.txq, txSeq := t.txSeq, draws := t.draws, freeDraws := t.freeDraws
    events := t.events } ∧ t.pool.length = s.pool.length

theorem TransmitFrame.refl (s : State) : TransmitFrame s s := ⟨rfl, rfl⟩

theorem TransmitFrame.trans {s t u : State} (h : TransmitFrame s t) (k : TransmitFrame t u) : TransmitFrame s u := by
  obtain ⟨h1, h2⟩ := h
  obtain ⟨k1, k2⟩ := k
  refine ⟨?_, k2.trans h2⟩
  rw [k1, h1]

theorem DispatchFrame.transmitFrame {s t : State} (h : DispatchFrame s t) : TransmitFrame s t := by
  obtain ⟨h1, h2⟩ := h
  refine ⟨?_, h2⟩
  rw [h1]

theorem TransmitFrame.sides {s t : State} (h : TransmitFrame s t) :
    SameReceiveSide s t ∧ SameConfiguration s t ∧ t.resp = s.resp := by
  obtain ⟨h1, -⟩ := h
  refine ⟨⟨?_, ?_, ?_, ?_, ?_, ?_⟩, ⟨?_, ?_, ?_, ?_, ?_, ?_⟩, ?_⟩ <;> rw [h1]

theorem TransmitFrame.params {s t : State} (h : TransmitFrame s t) : t.params = s.params := by rw [h.1]
theorem TransmitFrame.life {s t : State} (h : TransmitFrame s t) : t.life = s.life := by rw [h.1]
theorem TransmitFrame.gran {s t : State} (h : TransmitFrame s t) : t.gran = s.gran := by rw [h.1]
theorem TransmitFrame.chan {s t : State} (h : TransmitFrame s t) : t.chan = s.chan := by rw [h.1]
theorem TransmitFrame.session {s t : State} (h : TransmitFrame s t) : t.session = s.session := by rw [h.1]

theorem TransmitFrame.qEnq (h : Handle) (s : State) : TransmitFrame s (qEnq h s).2 := by
  have := qEnq_frame h s
  refine ⟨?_, ?_⟩ <;> rw [this]

theorem TransmitFrame.qDeq (s : State) : TransmitFrame s (qDeq s).2 := by
  have := qDeq_frame s
  refine ⟨?_, ?_⟩ <;> rw [this]

theorem TransmitFrame.afterDraw (s : State) : TransmitFrame s s.afterDraw := by
  unfold State.afterDraw
  split <;> exact ⟨rfl, rfl⟩

theorem TransmitFrame.sendFrame (s : State) (h : Handle) (fl : Nat) : TransmitFrame s (s.sendFrame h fl) := by
  have e : (s.sendFrame h fl) =
      match s.nextAnswer with
      | .ok => { s.afterDraw.emit (.txBytes fl (s.readRange h 0 fl) s.nextAnswer) with txSeq := s.txSeq + 1 }
      | .fail => (s.afterDraw.emit (.txBytes fl (s.readRange h 0 fl) s.nextAnswer)).emit .transmitFailed := by
    unfold State.sendFrame
    cases s.nextAnswer <;> simp
  have f := TransmitFrame.afterDraw s
  rw [e]
  cases s.nextAnswer
  · exact f.trans ⟨rfl, rfl⟩
  · exact f.trans ⟨rfl, rfl⟩

/-! ## Sending one frame (R206, R207) -/

/-- What a send leaves in the buffers: nothing new. -/
@[simp] theorem sendFrame_pool (s : State) (h : Handle) (fl : Nat) : (s.sendFrame h fl).pool = s.pool := by
  unfold State.sendFrame
  cases s.nextAnswer <;> simp

@[simp] theorem sendFrame_txq (s : State) (h : Handle) (fl : Nat) : (s.sendFrame h fl).txq = s.txq := by
  unfold State.sendFrame
  cases s.nextAnswer <;> simp

@[simp] theorem sendFrame_draws (s : State) (h : Handle) (fl : Nat) :
    (s.sendFrame h fl).draws = s.afterDraw.draws := by
  unfold State.sendFrame
  cases s.nextAnswer <;> simp

@[simp] theorem sendFrame_freeDraws (s : State) (h : Handle) (fl : Nat) :
    (s.sendFrame h fl).freeDraws = s.afterDraw.freeDraws := by
  unfold State.sendFrame
  cases s.nextAnswer <;> simp

/-- The sequence counter advances only on success (R207). -/
theorem sendFrame_txSeq (s : State) (h : Handle) (fl : Nat) :
    (s.sendFrame h fl).txSeq = if s.nextAnswer = .ok then s.txSeq + 1 else s.txSeq := by
  unfold State.sendFrame
  cases s.nextAnswer <;> simp

/-- The events of a send (R206). -/
theorem sendFrame_events (s : State) (h : Handle) (fl : Nat) :
    (s.sendFrame h fl).events = s.events ++ .txBytes fl (s.readRange h 0 fl) s.nextAnswer ::
      (if s.nextAnswer = .ok then [] else [.transmitFailed]) := by
  unfold State.sendFrame
  cases s.nextAnswer <;> simp

/-! ## Stamping (R206) -/

theorem stampFrame_frame (s : State) (h : Handle) (fl : Nat) : DispatchFrame s (s.stampFrame h fl) := by
  refine ⟨rfl, ?_⟩
  simp [State.stampFrame, State.writeData]

/-- The buffer after stamping: only its data changes. -/
theorem stampFrame_buf (s : State) {h : Handle} (fl : Nat) (hl : h.toNat < s.pool.length) :
    ∃ d, (s.stampFrame h fl).buf h = { s.buf h with data := d } := by
  refine ⟨?_, ?_⟩
  case refine_2 =>
    simp only [State.stampFrame, State.writeData]
    rw [State.buf_modifyBuf_self _ _ (by simpa using hl), State.buf_modifyBuf_self _ _ hl]

theorem stampFrame_other (s : State) {h k : Handle} (fl : Nat) (hk : h ≠ k) :
    (s.stampFrame h fl).buf k = s.buf k := by
  simp only [State.stampFrame, State.writeData]
  rw [State.buf_modifyBuf_other _ _ hk, State.buf_modifyBuf_other _ _ hk]

theorem readData_writeData (s : State) {h : Handle} (off : Nat) (v : Byte) (hl : h.toNat < s.pool.length) (o : Nat) :
    (s.writeData h off v).readData h o = if off = o then v else s.readData h o := by
  simp only [State.readData, State.writeData, State.buf_modifyBuf_self _ _ hl, Store.read?_write]
  split_ifs <;> simp

/-- What a stamped frame reads as (R206): the sequence bits in byte 1, the checksum in the last byte. -/
theorem stampFrame_read (s : State) {h : Handle} {fl : Nat} (hl : h.toNat < s.pool.length) (o : Nat) :
    (s.stampFrame h fl).readData h o =
      if fl - 1 = o then
        checksum ((s.writeData h 1 (stampSeq (s.readData h 1) s.txSeq)).readRange h 0 (fl - 1))
      else if 1 = o then stampSeq (s.readData h 1) s.txSeq
      else s.readData h o := by
  simp only [State.stampFrame]
  rw [readData_writeData _ _ _ (by simpa [State.writeData] using hl), readData_writeData _ _ _ hl]

theorem stampFrame_read_body (s : State) {h : Handle} {fl : Nat} (hl : h.toNat < s.pool.length) {o : Nat}
    (ho : o < fl - 1) :
    (s.stampFrame h fl).readData h o = if o = 1 then stampSeq (s.readData h 1) s.txSeq else s.readData h o := by
  rw [stampFrame_read s hl, if_neg (by omega)]
  simp only [eq_comm]

@[simp] theorem readRange_length (s : State) (h : Handle) (a n : Nat) : (s.readRange h a n).length = n := by
  simp [State.readRange]

theorem readRange_get (s : State) (h : Handle) (a n i : Nat) (hi : i < n) :
    (s.readRange h a n)[i]? = some (s.readData h (a + i)) := by
  simp [State.readRange, hi]

/-- A stamped frame of at least 3 bytes is its bytes but the last, and their checksum. -/
theorem stampFrame_range (s : State) {h : Handle} {fl : Nat} (hl : h.toNat < s.pool.length) (h3 : 3 ≤ fl) :
    (s.stampFrame h fl).readRange h 0 fl =
      (s.stampFrame h fl).readRange h 0 (fl - 1) ++
        [checksum ((s.stampFrame h fl).readRange h 0 (fl - 1))] := by
  obtain ⟨n, rfl⟩ : ∃ n, fl = n + 1 := ⟨fl - 1, by omega⟩
  have e : (s.stampFrame h (n + 1)).readRange h 0 n =
      (s.writeData h 1 (stampSeq (s.readData h 1) s.txSeq)).readRange h 0 n := by
    apply List.map_congr_left
    intro i hi
    rw [List.mem_range] at hi
    rw [stampFrame_read s hl, if_neg (by omega), readData_writeData s _ _ hl]
  have last : (s.stampFrame h (n + 1)).readData h n =
      checksum ((s.stampFrame h (n + 1)).readRange h 0 n) := by
    rw [stampFrame_read s hl, if_pos (by omega), Nat.add_sub_cancel, e]
  rw [Nat.add_sub_cancel, ← last]
  simp [State.readRange, List.range_succ]

/-! ## One turn of the drain (R206) -/

theorem drainOne_ok {h : Handle} {s t : State} (e : drainOne h s = .ok t) :
    minScan ≤ (s.buf h).frameLength.toNat ∧ (s.buf h).frameLength.toNat ≤ maxFrame ∧
      refDec h ((s.stampFrame h (s.buf h).frameLength.toNat).sendFrame h (s.buf h).frameLength.toNat) = .ok t := by
  unfold drainOne at e
  simp only at e
  split_ifs at e with hc
  exact ⟨by omega, by omega, e⟩

/-- A turn completes for a live buffer whose frame length is legal (R206; U4, U5). -/
theorem drainOne_completes {h : Handle} {s : State} (hr : (s.buf h).refcount ≠ 0)
    (h8 : minScan ≤ (s.buf h).frameLength.toNat) (hm : (s.buf h).frameLength.toNat ≤ maxFrame) :
    ∃ t, drainOne h s = .ok t := by
  have hl := State.lt_of_refcount hr
  obtain ⟨d, hd⟩ := stampFrame_buf s (s.buf h).frameLength.toNat hl
  unfold drainOne
  simp only
  rw [if_neg (by omega)]
  exact ⟨_, refDec_of_ne (by rw [State.buf_congr (sendFrame_pool _ _ _), hd]; exact hr)⟩

/-- What a turn does besides the buffer's data: one reference less, the send's events, sequence number and draw,
and nothing else. -/
theorem drainOne_spec {h : Handle} {s t : State} (e : drainOne h s = .ok t) (hl : h.toNat < s.pool.length) :
    TransmitFrame s t ∧ t.txq = s.txq ∧ t.draws = s.afterDraw.draws ∧ t.freeDraws = s.afterDraw.freeDraws ∧
    t.txSeq = (if s.nextAnswer = .ok then s.txSeq + 1 else s.txSeq) ∧
    t.events = s.events ++ .txBytes (s.buf h).frameLength.toNat
      ((s.stampFrame h (s.buf h).frameLength.toNat).readRange h 0 (s.buf h).frameLength.toNat) s.nextAnswer ::
      (if s.nextAnswer = .ok then [] else [.transmitFailed]) ∧
    (t.buf h).refcount + 1 = (s.buf h).refcount ∧ (t.buf h).frameLength = (s.buf h).frameLength ∧
    (t.buf h).payloadLength = (s.buf h).payloadLength ∧
    (t.buf h).data = (if (s.buf h).refcount = 1 then scrubbed s.params.scrubByte
      else ((s.stampFrame h (s.buf h).frameLength.toNat).buf h).data) ∧
    ∀ k, h ≠ k → t.buf k = s.buf k := by
  obtain ⟨h8, hm, hd⟩ := drainOne_ok e
  generalize (s.buf h).frameLength.toNat = fl at *
  have hf := refDec_frame hd
  have hb := refDec_buf hd
  obtain ⟨d, hdata⟩ := stampFrame_buf s fl hl
  have hpool : ∀ k, ((s.stampFrame h fl).sendFrame h fl).buf k = (s.stampFrame h fl).buf k :=
    fun k => State.buf_congr (sendFrame_pool _ _ _) k
  have hne := (refDec_ok hd).1
  rw [hpool, hdata] at hne
  have hself := hb h
  rw [if_pos rfl, hpool, hdata] at hself
  have fs := (stampFrame_frame s h fl).transmitFrame.trans (TransmitFrame.sendFrame (s.stampFrame h fl) h fl)
  refine ⟨fs.trans (DispatchFrame.refDec hd).transmitFrame, ?_, ?_, ?_, ?_, ?_, ?_, ?_, ?_, ?_, ?_⟩
  · rw [hf.1]; exact sendFrame_txq _ _ _
  · rw [hf.1]; simp
  · rw [hf.1]; simp; rfl
  · rw [hf.1]; exact sendFrame_txSeq (s.stampFrame h fl) h fl
  · rw [hf.1]; exact sendFrame_events (s.stampFrame h fl) h fl
  · rw [hself]
    show (s.buf h).refcount - 1 + 1 = (s.buf h).refcount
    have : (s.buf h).refcount ≠ 0 := hne
    omega
  · rw [hself]
  · rw [hself]
  · rw [hself, hdata, fs.params]
  · intro k hk
    rw [hb k, if_neg hk, hpool, stampFrame_other s fl hk]

theorem PoolAll.drainOne {p : Params} {P : Buf → Prop} (c : BufClosed p P) {s t : State} {h : Handle}
    (hs : s.params = p) (ha : PoolAll P s) (e : drainOne h s = .ok t) : PoolAll P t := by
  obtain ⟨h8, hm, hd⟩ := drainOne_ok e
  generalize (s.buf h).frameLength.toNat = fl at *
  have h1 : PoolAll P (s.writeData h 1 (stampSeq (s.readData h 1) s.txSeq)) :=
    ha.modifyBuf h _ (fun b hb => c.write b 1 [_] hb (by simp [maxFrame]))
  have h2 : PoolAll P (s.stampFrame h fl) :=
    h1.modifyBuf h _ (fun b hb => c.write b (fl - 1) [_] hb (by
      simp only [maxFrame, minScan, List.length_singleton] at *
      omega))
  have h3 : PoolAll P ((s.stampFrame h fl).sendFrame h fl) := h2.congr (sendFrame_pool _ _ _)
  exact h3.refDec c ((TransmitFrame.sendFrame (s.stampFrame h fl) h fl).params.trans hs) hd

/-! ## The drain loop -/

/-- One turn of the loop, where the queue is not empty. -/
theorem drainLoop_turn {fuel n : Nat} {s : State} (hne : s.txq.rd ≠ s.txq.wr) :
    drainLoop (fuel + 1) n s =
      match drainOne (s.slotAt (s.txq.rd % s.params.queueDepth)) (qDeq s).2 with
      | .error f => .error f
      | .ok u => drainLoop fuel (n + 1) u := by
  have h2 := qDeq_some hne
  rw [drainLoop, if_neg hne]
  cases hd : drainOne (s.slotAt (s.txq.rd % s.params.queueDepth)) (qDeq s).2 <;>
    (rw [h2] at hd; simp only [h2, hd])

theorem drainLoop_empty {fuel n : Nat} {s : State} (he : s.txq.rd = s.txq.wr) : drainLoop fuel n s = .ok (n, s) := by
  cases fuel with
  | zero => rfl
  | succ fuel => rw [drainLoop, if_pos he]

/-- A property that every dequeue and every turn keeps is kept by the loop. -/
theorem drainLoop_induct {P : State → Prop}
    (turn : ∀ {s u : State}, P s → s.txq.rd ≠ s.txq.wr →
      drainOne (s.slotAt (s.txq.rd % s.params.queueDepth)) (qDeq s).2 = .ok u → P u)
    {fuel n m : Nat} {s t : State} (h : P s) (e : drainLoop fuel n s = .ok (m, t)) : P t := by
  induction fuel generalizing n s with
  | zero => cases e; exact h
  | succ fuel ih =>
    by_cases hq : s.txq.rd = s.txq.wr
    · rw [drainLoop_empty hq] at e
      cases e
      exact h
    · rw [drainLoop_turn hq] at e
      cases hd : drainOne (s.slotAt (s.txq.rd % s.params.queueDepth)) (qDeq s).2 with
      | error f => rw [hd] at e; cases e
      | ok u =>
        rw [hd] at e
        exact ih (turn h hq hd) e

/-- A turn that completes was one of a live buffer. -/
theorem drainOne_live {h : Handle} {s t : State} (e : drainOne h s = .ok t) : h.toNat < s.pool.length := by
  obtain ⟨h8, -, -⟩ := drainOne_ok e
  by_contra hc
  have : (s.buf h).frameLength = 0 := by
    simp [State.buf, List.getD_eq_getElem?_getD, List.getElem?_eq_none (Nat.le_of_not_lt hc), Buf.absent]
  rw [this] at h8
  simp [minScan] at h8

/-- The drain touches only what a transmit operation touches. -/
theorem drainLoop_frame {fuel n m : Nat} {s t : State} (e : drainLoop fuel n s = .ok (m, t)) : TransmitFrame s t :=
  drainLoop_induct (P := TransmitFrame s)
    (fun h _ k => (h.trans (TransmitFrame.qDeq _)).trans (drainOne_spec k (drainOne_live k)).1)
    (.refl _) e

/-- What `DrainBody` can do (R206): nothing but a draw and a log event without the mutex, else the loop. -/
theorem drainBody_ok {s t : State} {r : DrainResult} (e : drainBody s = .ok (r, t)) :
    (s.nextAnswer = .fail ∧ r = { locked := false, count := 0 } ∧ t = s.afterDraw.emit .lockFailed) ∨
    (s.nextAnswer = .ok ∧ r.locked = true ∧ drainLoop maxTxPerDrain 0 s.afterDraw = .ok (r.count, t)) := by
  unfold drainBody at e
  split at e
  · rename_i ha
    cases e
    exact .inl ⟨ha, rfl, rfl⟩
  · rename_i ha
    split at e
    · cases e
    · rename_i n u hd
      cases e
      exact .inr ⟨ha, rfl, hd⟩

theorem drainBody_frame {s t : State} {r : DrainResult} (e : drainBody s = .ok (r, t)) : TransmitFrame s t := by
  rcases drainBody_ok e with ⟨-, -, rfl⟩ | ⟨-, -, hd⟩
  · exact (TransmitFrame.afterDraw s).trans ⟨rfl, rfl⟩
  · exact (TransmitFrame.afterDraw s).trans (drainLoop_frame hd)

/-! ## Assembly (R200 to R204) -/

theorem frameLen_spec (g : Gran) (l : Nat) :
    frameLen g l % g.bytes = 0 ∧ l + 4 ≤ frameLen g l ∧ frameLen g l < l + 4 + g.bytes := by
  cases g <;> simp only [frameLen, Gran.bytes] <;> omega

/-- The frame length of a payload that may be assembled is legal (R95). -/
theorem frameLen_bounds (g : Gran) {l : Nat} (h1 : 1 ≤ l) (h2 : l ≤ maxPayload) :
    8 ≤ frameLen g l ∧ frameLen g l ≤ maxFrame ∧ frameLen g l % 4 = 0 := by
  unfold maxPayload at h2
  cases g <;> simp only [frameLen, Gran.bytes, maxFrame] <;> omega

theorem writeFrameHead_frame (s : State) (h : Handle) (c pr : Byte) (l fl : Nat) :
    DispatchFrame s (s.writeFrameHead h c pr l fl) := by
  refine ⟨rfl, ?_⟩
  simp [State.writeFrameHead, State.writeRange, State.setFrameLength]

theorem writeFrameHead_buf (s : State) {h : Handle} (c pr : Byte) (l fl : Nat) (hl : h.toNat < s.pool.length) :
    (s.writeFrameHead h c pr l fl).buf h =
      { s.buf h with
        data := Store.writeList (Store.writeList (s.buf h).data 0 [sofByte, assembledByte1 fl, assembledByte2 c pr])
          (headerLen + l) (List.replicate (fl - 1 - (headerLen + l)) fillByte)
        frameLength := byteOf fl } := by
  simp only [State.writeFrameHead, State.setFrameLength, State.writeRange]
  rw [State.buf_modifyBuf_self _ _ (by simpa using hl), State.buf_modifyBuf_self _ _ (by simpa using hl),
    State.buf_modifyBuf_self _ _ hl]

theorem writeFrameHead_other (s : State) {h k : Handle} (c pr : Byte) (l fl : Nat) (hk : h ≠ k) :
    (s.writeFrameHead h c pr l fl).buf k = s.buf k := by
  simp only [State.writeFrameHead, State.setFrameLength, State.writeRange]
  rw [State.buf_modifyBuf_other _ _ hk, State.buf_modifyBuf_other _ _ hk, State.buf_modifyBuf_other _ _ hk]

/-- What an assembled buffer reads as (R202): header, payload, padding, and the bytes from the checksum on as
before. -/
theorem writeFrameHead_read (s : State) {h : Handle} (c pr : Byte) (l fl : Nat) (hl : h.toNat < s.pool.length)
    (o : Nat) :
    (s.writeFrameHead h c pr l fl).readData h o =
      if headerLen + l ≤ o ∧ o < fl - 1 then fillByte
      else if o = 0 then sofByte
      else if o = 1 then assembledByte1 fl
      else if o = 2 then assembledByte2 c pr
      else s.readData h o := by
  simp only [State.readData, writeFrameHead_buf s c pr l fl hl, Store.read?_writeList, List.length_replicate]
  by_cases hp : headerLen + l ≤ o ∧ o < fl - 1
  · rw [if_pos hp, if_pos (by omega), List.getElem?_replicate, if_pos (by omega)]
    rfl
  · rw [if_neg hp, if_neg (by omega)]
    match o with
    | 0 => rfl
    | 1 => rfl
    | 2 => rfl
    | o + 3 => simp

theorem PoolAll.writeFrameHead {p : Params} {P : Buf → Prop} (cl : BufClosed p P) {s : State} {h : Handle}
    (c pr : Byte) {l fl : Nat} (ha : PoolAll P s) (h8 : 8 ≤ fl) (hm : fl ≤ maxFrame) (h4 : fl % 4 = 0)
    (hfit : headerLen + l ≤ maxFrame) : PoolAll P (s.writeFrameHead h c pr l fl) := by
  have h1 : PoolAll P (s.writeRange h 0 [sofByte, assembledByte1 fl, assembledByte2 c pr]) :=
    ha.modifyBuf h _ (fun b hb => cl.write b 0 _ hb (by simp [maxFrame]))
  have h2 : PoolAll P ((s.writeRange h 0 [sofByte, assembledByte1 fl, assembledByte2 c pr]).writeRange h
      (headerLen + l) (List.replicate (fl - 1 - (headerLen + l)) fillByte)) :=
    h1.modifyBuf h _ (fun b hb => cl.write b (headerLen + l) _ hb (by
      simp only [maxFrame, List.length_replicate] at *
      omega))
  exact h2.modifyBuf h _ (fun b hb => cl.frameLength b fl hb h8 hm h4)

/-- What `EnqueueRef` can do (R203): the handle queued with a reference of its own, or a full queue and the
count as it was. -/
theorem enqueueRef_ok {h : Handle} {s t : State} {st : Status} (e : enqueueRef h s = .ok (st, t)) :
    ∃ u, refInc h s = .ok u ∧
      ((u.queueCount ≠ u.params.queueDepth ∧ st = .ok ∧ t = (qEnq h u).2) ∨
       (u.queueCount = u.params.queueDepth ∧ st = .resourceExhausted ∧ refDec h (u.emit .queueFull) = .ok t)) := by
  unfold enqueueRef at e
  cases hr : refInc h s with
  | error f => rw [hr] at e; cases e
  | ok u =>
    rw [hr] at e
    simp only [bind, Except.bind, pure, Except.pure] at e
    refine ⟨u, rfl, ?_⟩
    by_cases hq : u.queueCount = u.params.queueDepth
    · rw [qEnq_full hq] at e
      simp only at e
      cases hd : refDec h (u.emit .queueFull) with
      | error f => rw [hd] at e; cases e
      | ok v =>
        rw [hd] at e
        cases e
        exact .inr ⟨hq, rfl, rfl⟩
    · rw [qEnq_room hq] at e
      cases e
      exact .inl ⟨hq, rfl, by rw [qEnq_room hq]⟩

theorem enqueueRef_completes {h : Handle} {s : State} (hr : (s.buf h).refcount ≠ 0)
    (hm : (s.buf h).refcount < s.params.refMax) : ∃ st t, enqueueRef h s = .ok (st, t) := by
  have hl := State.lt_of_refcount hr
  have e := refInc_of_lt hm
  unfold enqueueRef
  rw [e]
  simp only [bind, Except.bind, pure, Except.pure]
  by_cases hq : (s.setRefcount h ((s.buf h).refcount + 1)).queueCount =
      (s.setRefcount h ((s.buf h).refcount + 1)).params.queueDepth
  · rw [qEnq_full hq]
    have hne : (((s.setRefcount h ((s.buf h).refcount + 1)).emit .queueFull).buf h).refcount ≠ 0 := by
      rw [State.emit_buf, refInc_buf e hl, if_pos rfl]
      simp
    simp only
    rw [refDec_of_ne hne]
    exact ⟨_, _, rfl⟩
  · rw [qEnq_room hq]
    exact ⟨_, _, rfl⟩

theorem enqueueRef_frame {h : Handle} {s t : State} {st : Status} (e : enqueueRef h s = .ok (st, t)) :
    TransmitFrame s t := by
  obtain ⟨u, hu, ⟨-, -, rfl⟩ | ⟨-, -, hd⟩⟩ := enqueueRef_ok e
  · exact (DispatchFrame.refInc hu).transmitFrame.trans (TransmitFrame.qEnq h u)
  · exact ((DispatchFrame.refInc hu).trans ((DispatchFrame.emit u _).trans (DispatchFrame.refDec hd))).transmitFrame

/-- The parts of an assembly, in their order (R200, R204). -/
theorem assembleBody_ok {c pr : Byte} {h : Handle} {s t : State} {st : Status}
    (e : assembleBody c pr h s = .ok (st, t)) :
    ∃ u r, enqueueRef h (s.writeFrameHead h c pr (s.buf h).payloadLength.toNat
        (frameLen s.gran (s.buf h).payloadLength.toNat)) = .ok (st, u) ∧ drainBody u = .ok (r, t) := by
  unfold assembleBody at e
  simp only [bind, Except.bind, pure, Except.pure] at e
  split at e
  · cases e
  · rename_i r hr
    split at e
    · cases e
    · rename_i d hd
      cases e
      exact ⟨r.2, d.1, hr, hd⟩

theorem assembleBody_of {c pr : Byte} {h : Handle} {s t u : State} {st : Status} {r : DrainResult}
    (e1 : enqueueRef h (s.writeFrameHead h c pr (s.buf h).payloadLength.toNat
        (frameLen s.gran (s.buf h).payloadLength.toNat)) = .ok (st, u)) (e2 : drainBody u = .ok (r, t)) :
    assembleBody c pr h s = .ok (st, t) := by
  unfold assembleBody
  simp only [bind, Except.bind, pure, Except.pure, e1, e2]

theorem assembleBody_frame {c pr : Byte} {h : Handle} {s t : State} {st : Status}
    (e : assembleBody c pr h s = .ok (st, t)) : TransmitFrame s t := by
  obtain ⟨u, r, h1, h2⟩ := assembleBody_ok e
  exact ((writeFrameHead_frame s h _ _ _ _).transmitFrame.trans (enqueueRef_frame h1)).trans (drainBody_frame h2)

/-! ## What the drain and the enqueue do not look at -/

/-- The state with events put before its own, and with another response. -/
def State.prefixed (es : List Event) (q : Option Response) (s : State) : State :=
  { s with events := es ++ s.events, resp := q }

theorem refDec_prefixed (es : List Event) (q : Option Response) (h : Handle) (s : State) :
    refDec h (s.prefixed es q) = (refDec h s).map (State.prefixed es q) := by
  unfold refDec
  simp only [show (s.prefixed es q).buf h = s.buf h from rfl]
  split_ifs <;> rfl

theorem nextAnswer_prefixed (es : List Event) (q : Option Response) (s : State) :
    (s.prefixed es q).nextAnswer = s.nextAnswer := rfl

theorem afterDraw_prefixed (es : List Event) (q : Option Response) (s : State) :
    (s.prefixed es q).afterDraw = s.afterDraw.prefixed es q := by
  unfold State.afterDraw
  simp only [show (s.prefixed es q).draws = s.draws from rfl]
  cases s.draws <;> rfl

theorem emit_prefixed (es : List Event) (q : Option Response) (s : State) (e : Event) :
    (s.prefixed es q).emit e = (s.emit e).prefixed es q := by
  simp [State.emit, State.prefixed]

theorem stampFrame_prefixed (es : List Event) (q : Option Response) (s : State) (h : Handle) (fl : Nat) :
    (s.prefixed es q).stampFrame h fl = (s.stampFrame h fl).prefixed es q := rfl

theorem sendFrame_prefixed (es : List Event) (q : Option Response) (s : State) (h : Handle) (fl : Nat) :
    (s.prefixed es q).sendFrame h fl = (s.sendFrame h fl).prefixed es q := by
  unfold State.sendFrame
  simp only [nextAnswer_prefixed, afterDraw_prefixed, emit_prefixed,
    show (s.prefixed es q).readRange h 0 fl = s.readRange h 0 fl from rfl]
  cases s.nextAnswer <;> rfl

theorem drainOne_prefixed (es : List Event) (q : Option Response) (h : Handle) (s : State) :
    drainOne h (s.prefixed es q) = (drainOne h s).map (State.prefixed es q) := by
  unfold drainOne
  simp only [show (s.prefixed es q).buf h = s.buf h from rfl]
  split_ifs
  · rfl
  · rw [stampFrame_prefixed, sendFrame_prefixed, refDec_prefixed]

theorem drainLoop_prefixed (es : List Event) (q : Option Response) (fuel n : Nat) (s : State) :
    drainLoop fuel n (s.prefixed es q) = (drainLoop fuel n s).map (fun r => (r.1, r.2.prefixed es q)) := by
  induction fuel generalizing n s with
  | zero => rfl
  | succ fuel ih =>
    by_cases he : s.txq.rd = s.txq.wr
    · rw [drainLoop_empty he, drainLoop_empty (s := s.prefixed es q) he]
      rfl
    · have he' : (s.prefixed es q).txq.rd ≠ (s.prefixed es q).txq.wr := he
      have hd : (qDeq (s.prefixed es q)).2 = (qDeq s).2.prefixed es q := by
        rw [qDeq_some he, qDeq_some he']
        rfl
      have hs : (s.prefixed es q).slotAt ((s.prefixed es q).txq.rd % (s.prefixed es q).params.queueDepth) =
          s.slotAt (s.txq.rd % s.params.queueDepth) := rfl
      rw [drainLoop_turn he, drainLoop_turn he', hd, hs, drainOne_prefixed]
      cases drainOne (s.slotAt (s.txq.rd % s.params.queueDepth)) (qDeq s).2 with
      | error f => rfl
      | ok u => exact ih _ _

/-- A drain does not look at the events before it, nor at the response (R206). -/
theorem drainBody_prefixed (es : List Event) (q : Option Response) (s : State) :
    drainBody (s.prefixed es q) = (drainBody s).map (fun r => (r.1, r.2.prefixed es q)) := by
  unfold drainBody
  rw [nextAnswer_prefixed, afterDraw_prefixed]
  cases s.nextAnswer with
  | fail => simp only [emit_prefixed]; rfl
  | ok =>
    simp only [drainLoop_prefixed]
    cases drainLoop maxTxPerDrain 0 s.afterDraw <;> rfl

/-- An enqueue does not look at the draws (R203). -/
theorem enqueueRef_draws (h : Handle) (s : State) (ds : List Answer) :
    enqueueRef h { s with draws := ds } = (enqueueRef h s).map (fun r => (r.1, { r.2 with draws := ds })) := by
  unfold enqueueRef refInc
  have hb : State.buf { s with draws := ds } h = s.buf h := rfl
  simp only [hb, bind, Except.bind]
  split_ifs with h1
  · rfl
  · simp only
    by_cases hq : (s.setRefcount h ((s.buf h).refcount + 1)).queueCount =
        (s.setRefcount h ((s.buf h).refcount + 1)).params.queueDepth
    · rw [qEnq_full hq, qEnq_full (s := State.setRefcount { s with draws := ds } h ((s.buf h).refcount + 1)) hq]
      have hb : ∀ k, ((State.setRefcount { s with draws := ds } h k).emit .queueFull).buf h =
          ((s.setRefcount h k).emit .queueFull).buf h := fun _ => rfl
      simp only [refDec, hb]
      split_ifs <;> rfl
    · rw [qEnq_room hq, qEnq_room (s := State.setRefcount { s with draws := ds } h ((s.buf h).refcount + 1)) hq]
      rfl

end Sys2Proof.Machine
end

