-- ==== Sys2Proof/Laws/Ownership.lean ====
section
/-! SUPPORT. The drain of a queue that owns its entries: it completes, one reference and one answer for each
entry it takes, and the queue goes on owning what is left. -/

namespace Sys2Proof.Machine

theorem poolInv_iff {s : State} : PoolInv s ↔ s.params.wf ∧ s.chan.length = maxChannels ∧
    (s.life = .active → s.pool.length = s.params.poolBlocks) ∧ PoolAll (BufLegal s.params) s := Iff.rfl

theorem PoolInv.refMax {s : State} (h : PoolInv s) : 4 ≤ s.params.refMax := h.1.2.2.2.2.1

/-- The legal values of a buffer are kept by every elementary change, in a legal build. -/
theorem PoolInv.closed {s : State} (h : PoolInv s) : BufClosed s.params (BufLegal s.params) :=
  bufLegal_closed (by have := h.refMax; omega)

/-- The pool stays legal where the buffers do and the configuration is the same. -/
theorem PoolInv.keep {s t : State} (h : PoolInv s) (f : SameConfiguration s t) (hl : t.pool.length = s.pool.length)
    (ha : PoolAll (BufLegal s.params) t) : PoolInv t := by
  obtain ⟨h1, h2, h3, -⟩ := h
  obtain ⟨f1, f2, -, f4, -⟩ := f
  refine poolInv_iff.2 ⟨by rw [f1]; exact h1, by rw [f4]; exact h2, ?_, by rw [f1]; exact ha⟩
  rw [f2, hl, f1]
  exact h3

theorem PoolInv.length {s : State} (h : PoolInv s) (ha : s.life = .active) : s.pool.length = s.params.poolBlocks :=
  h.2.2.1 ha

/-! ## The frames and the answers of a drain -/

/-- Stamping twice is stamping once: the sequence bits are replaced and the others kept (R206). -/
theorem stampSeq_stampSeq (b : Byte) (p q : BitVec 2) : stampSeq (stampSeq b p) q = stampSeq b q := by
  revert b p q
  decide

/-- The frame that a turn of the drain reads back is the stamped frame. -/
theorem stampFrame_stampedFrame (s : State) {h : Handle} (hl : h.toNat < s.pool.length)
    (h8 : minScan ≤ (s.buf h).frameLength.toNat) :
    (s.stampFrame h (s.buf h).frameLength.toNat).readRange h 0 (s.buf h).frameLength.toNat =
      s.stampedFrame h s.txSeq := by
  unfold minScan at h8
  unfold State.stampedFrame
  generalize (s.buf h).frameLength.toNat = fl at *
  rw [stampFrame_range s (fl := fl) hl (by omega)]
  have body : (s.stampFrame h fl).readRange h 0 (fl - 1) =
      [s.readData h 0, (s.readData h 1 &&& 0xFC) + s.txSeq.setWidth 8] ++ s.readRange h 2 (fl - 3) := by
    apply List.ext_getElem?
    intro i
    rcases Nat.lt_or_ge i (fl - 1) with g | g
    · rw [readRange_get _ _ _ _ _ g, Nat.zero_add, stampFrame_read_body s hl g]
      match i with
      | 0 => rw [if_neg (by omega)]; rfl
      | 1 => rw [if_pos rfl]; rfl
      | i + 2 =>
        rw [if_neg (by omega)]
        simp only [List.cons_append, List.nil_append, List.getElem?_cons_succ]
        rw [readRange_get _ _ _ _ _ (by omega), Nat.add_comm i 2]
    · rw [List.getElem?_eq_none (by simpa using g), List.getElem?_eq_none (by simp; omega)]
  rw [body]

/-- The frames of a drain depend on the buffers it sends alone. -/
theorem transmissions_congr {s t : State} {hs : List Handle}
    (hf : ∀ h ∈ hs, (t.buf h).frameLength = (s.buf h).frameLength ∧
      ∀ q, t.stampedFrame h q = s.stampedFrame h q) (q : BitVec 2) (as : List Answer) :
    t.transmissions q hs as = s.transmissions q hs as := by
  induction hs generalizing q as with
  | nil => cases as <;> rfl
  | cons h hs ih =>
    obtain ⟨h1, h2⟩ := hf h List.mem_cons_self
    have ih' := fun q as => ih (fun k hk => hf k (List.mem_cons_of_mem _ hk)) q as
    match as with
    | [] => rfl
    | .ok :: as => simp only [State.transmissions, h1, h2, ih']
    | .fail :: as => simp only [State.transmissions, h1, h2, ih']

/-- The next answers depend on the draws alone. -/
theorem nextAnswers_congr {s t : State} (hd : t.draws = s.draws) (hf : t.freeDraws = s.freeDraws) (n : Nat) :
    t.nextAnswers n = s.nextAnswers n := by
  induction n generalizing s t with
  | zero => rfl
  | succ n ih =>
    have h1 : t.nextAnswer = s.nextAnswer := by simp [State.nextAnswer, hd, hf]
    simp only [State.nextAnswers, h1]
    rw [ih (s := s.afterDraw) (t := t.afterDraw) (by simp [hd]) (by simp [hd, hf])]

/-! ## The drain -/

/-- Ownership looks at the pool, the queue and the configuration alone. -/
theorem QueueOwnsItsEntries.congr {s t : State} (h : QueueOwnsItsEntries s) (hp : t.pool = s.pool)
    (f : SameConfiguration s t) (hq : t.txq = s.txq) : QueueOwnsItsEntries t := by
  obtain ⟨h1, h2, h3⟩ := h
  have fs : t.session = s.session := f.2.2.2.2.2
  refine ⟨h1.keep f (by rw [hp]) (PoolAll.congr hp h1.2.2.2), h2.congr hq f.1, fun k => ?_⟩
  rw [queued_congr hq f.1 fs, State.buf_congr hp]
  exact h3 k

/-- What one turn of the drain does to a queue that owns its entries: `h` is the oldest entry, `a` the answer. -/
structure DrainTurn (s u : State) (h : Handle) (a : Answer) : Prop where
  owns : QueueOwnsItsEntries u
  queued : s.queued = h :: u.queued
  frame : TransmitFrame s u
  live : h.toNat < s.pool.length
  ref : ∀ k, (u.buf k).refcount + [h].count k = (s.buf k).refcount
  other : ∀ k, h ≠ k → u.buf k = s.buf k
  lengths : ∀ k, (u.buf k).frameLength = (s.buf k).frameLength ∧ (u.buf k).payloadLength = (s.buf k).payloadLength
  draws : u.draws = s.afterDraw.draws
  freeDraws : u.freeDraws = s.afterDraw.freeDraws
  txSeq : u.txSeq = if a = .ok then s.txSeq + 1 else s.txSeq
  events : u.events = s.events ++ s.transmissions s.txSeq [h] [a]
  kept : ∀ k, (u.buf k).refcount ≠ 0 → ∀ off, off ≠ 1 → off + 1 ≠ (s.buf k).frameLength.toNat →
    u.readData k off = s.readData k off
  stamped : ∀ k, (u.buf k).refcount ≠ 0 → ∀ q, u.stampedFrame k q = s.stampedFrame k q
  scrubbed : (u.buf h).refcount = 0 → ∀ off, off < 96 → u.readData h off = s.params.scrubByte

theorem drain_turn {s : State} (hs : QueueOwnsItsEntries s) (hne : s.txq.rd ≠ s.txq.wr) :
    ∃ u, drainOne (s.slotAt (s.txq.rd % s.params.queueDepth)) (qDeq s).2 = .ok u ∧
      DrainTurn s u (s.slotAt (s.txq.rd % s.params.queueDepth)) s.nextAnswer := by
  obtain ⟨hp, hq, ho⟩ := hs
  obtain ⟨hc, hqd⟩ := qDeq_queued hq hne
  have hi := qDeq_inv hq
  have hd := qDeq_some hne
  generalize s.slotAt (s.txq.rd % s.params.queueDepth) = h at *
  generalize ht : (qDeq s).2 = t at *
  have htb : ∀ k, t.buf k = s.buf k := fun k => by rw [← ht, hd]; rfl
  have hm : h ∈ s.queued := by rw [hqd]; exact List.mem_cons_self
  obtain ⟨h1, h2⟩ := ho h
  obtain ⟨h8, h96⟩ := h2 hm
  have hr : (s.buf h).refcount ≠ 0 := by
    have := List.count_pos_iff.2 hm
    omega
  obtain ⟨u, hu⟩ := drainOne_completes (s := t) (h := h) (by rw [htb]; exact hr) (by rw [htb]; exact h8)
    (by rw [htb]; exact h96)
  have hlu := drainOne_live hu
  obtain ⟨f, q, d1, d2, sq, ev, rf, fl, pl, da, ot⟩ := drainOne_spec hu hlu
  have ft : TransmitFrame s t := ht ▸ TransmitFrame.qDeq s
  have hna : t.nextAnswer = s.nextAnswer := by rw [← ht, hd]; rfl
  have href : ∀ k, (u.buf k).refcount + [h].count k = (s.buf k).refcount := by
    intro k
    by_cases hk : h = k
    · subst hk
      rw [← htb]
      simp [rf]
    · rw [ot k hk, htb]
      simp [hk]
  have hlen : ∀ k, (u.buf k).frameLength = (s.buf k).frameLength ∧
      (u.buf k).payloadLength = (s.buf k).payloadLength := by
    intro k
    by_cases hk : h = k
    · subst hk
      rw [← htb]
      exact ⟨fl, pl⟩
    · rw [ot k hk, htb]
      exact ⟨rfl, rfl⟩
  have huq : u.queued = t.queued := queued_congr q f.params f.session
  have hts : t.session = s.session := ft.session
  have htr : ∀ k o, t.readData k o = s.readData k o := fun k o => by simp only [State.readData, htb, hts]
  have hread : (u.buf h).refcount ≠ 0 → ∀ o, u.readData h o =
      (t.stampFrame h (t.buf h).frameLength.toNat).readData h o := by
    intro hne o
    have h1 : (t.buf h).refcount ≠ 1 := by omega
    simp only [State.readData, da, if_neg h1, f.session, (stampFrame_frame t h _).session]
  have hkept : ∀ k, (u.buf k).refcount ≠ 0 → ∀ off, off ≠ 1 → off + 1 ≠ (s.buf k).frameLength.toNat →
      u.readData k off = s.readData k off := by
    intro k hk off h1 h2
    by_cases hkk : h = k
    · subst hkk
      rw [hread hk, stampFrame_read t hlu, if_neg (by rw [htb]; unfold minScan at h8; omega), if_neg (by omega), htr]
    · simp only [State.readData, ot k hkk, htb, f.session, hts]
  have hone : (u.buf h).refcount ≠ 0 → u.readData h 1 = stampSeq (s.readData h 1) t.txSeq := by
    intro hk
    rw [hread hk, stampFrame_read t hlu, if_neg (by rw [htb]; unfold minScan at h8; omega), if_pos rfl, htr]
  refine ⟨u, hu, ⟨⟨?_, hi.congr q f.params, fun k => ?_⟩, by rw [hqd, huq], ft.trans f, ?_, href,
    fun k hk => by rw [ot k hk, htb], hlen, ?_, ?_, ?_, ?_, hkept, fun k hk q' => ?_, fun hz off ho => ?_⟩⟩
  · refine hp.keep (ft.trans f).sides.2.1 (ft.trans f).2 ?_
    exact PoolAll.drainOne hp.closed (s := t) ft.params (PoolAll.congr (s := s) (by rw [← ht, hd]) hp.2.2.2) hu
  · have hk := ho k
    have hrk := href k
    rw [huq]
    rw [hqd, List.count_cons] at hk
    refine ⟨?_, fun hm => ?_⟩
    · simp only [List.count_cons, List.count_nil] at hrk
      omega
    · rw [(hlen k).1]
      exact hk.2 (List.mem_cons_of_mem _ hm)
  · rw [← ft.2]
    exact drainOne_live hu
  · rw [d1, ← ht, hd]
    simp
  · rw [d2, ← ht, hd]
    simp
  · rw [sq, hna, ← ht, hd]
  · have h8t : minScan ≤ (t.buf h).frameLength.toNat := by rw [htb]; exact h8
    have e1 : t.events = s.events := by rw [← ht, hd]
    have e2 : t.stampedFrame h t.txSeq = s.stampedFrame h s.txSeq := by
      have : t.txSeq = s.txSeq := by rw [← ht, hd]
      simp only [State.stampedFrame, State.readRange, htr, htb, this]
    rw [ev, stampFrame_stampedFrame t hlu h8t, hna, e1, e2, htb]
    cases s.nextAnswer <;> simp [State.transmissions]
  · by_cases hkk : h = k
    · subst hkk
      unfold minScan at h8
      have g0 := hkept h hk 0 (by omega) (by omega)
      have gr : u.readRange h 2 ((s.buf h).frameLength.toNat - 3) =
          s.readRange h 2 ((s.buf h).frameLength.toNat - 3) := by
        apply List.map_congr_left
        intro i hi
        rw [List.mem_range] at hi
        exact hkept h hk _ (by omega) (by omega)
      have g1 := stampSeq_stampSeq (s.readData h 1) t.txSeq q'
      rw [← hone hk] at g1
      unfold stampSeq at g1
      simp only [State.stampedFrame, (hlen h).1, g0, g1, gr]
    · simp only [State.stampedFrame, State.readRange, State.readData, ot k hkk, htb, f.session, hts]
  · have h1 : (t.buf h).refcount = 1 := by omega
    simp only [State.readData, da, if_pos h1, ft.params]
    rw [scrubbed_read, if_pos ho]
    rfl

/-- What the drain of a queue that owns its entries does: `m` turns, one for each of the oldest entries, with the
answers `as`. -/
structure DrainTurns (fuel : Nat) (s t : State) (m : Nat) (as : List Answer) : Prop where
  turns : m = min fuel s.queued.length
  owns : QueueOwnsItsEntries t
  queued : t.queued = s.queued.drop m
  frame : TransmitFrame s t
  ref : ∀ k, (t.buf k).refcount + (s.queued.take m).count k = (s.buf k).refcount
  other : ∀ k, k ∉ s.queued.take m → t.buf k = s.buf k
  lengths : ∀ k, (t.buf k).frameLength = (s.buf k).frameLength ∧ (t.buf k).payloadLength = (s.buf k).payloadLength
  events : t.events = s.events ++ s.transmissions s.txSeq (s.queued.take m) as
  answers : as = s.nextAnswers m
  txSeq : t.txSeq = s.txSeq + BitVec.ofNat 2 (as.count .ok)
  draws : t.draws = s.draws.drop m
  freeDraws : t.freeDraws = s.freeDraws + (m - s.draws.length)
  kept : ∀ k, (t.buf k).refcount ≠ 0 → ∀ off, off ≠ 1 → off + 1 ≠ (s.buf k).frameLength.toNat →
    t.readData k off = s.readData k off
  scrubbed : ∀ k, k ∈ s.queued.take m → (t.buf k).refcount = 0 → ∀ off, off < 96 →
    t.readData k off = s.params.scrubByte

theorem drainTurns_none {s : State} (hs : QueueOwnsItsEntries s) {fuel : Nat} (h : fuel = 0 ∨ s.queued = []) :
    DrainTurns fuel s s 0 [] where
  turns := by rcases h with rfl | h <;> simp [*]
  owns := hs
  queued := rfl
  frame := .refl s
  ref := by simp
  other := fun _ _ => rfl
  lengths := fun _ => ⟨rfl, rfl⟩
  events := by simp [State.transmissions]
  answers := rfl
  txSeq := by simp
  draws := by simp
  freeDraws := by simp
  kept := fun _ _ _ _ _ => rfl
  scrubbed := by simp

theorem drainLoop_owned (fuel n : Nat) {s : State} (hs : QueueOwnsItsEntries s) :
    ∃ m t as, drainLoop fuel n s = .ok (n + m, t) ∧ DrainTurns fuel s t m as := by
  induction fuel generalizing n s with
  | zero => exact ⟨0, s, [], rfl, drainTurns_none hs (.inl rfl)⟩
  | succ fuel ih =>
    by_cases he : s.txq.rd = s.txq.wr
    · have hz := (queueCount_eq_zero hs.2.1.2.1 hs.2.1.2.2.1).2 he
      rw [← queued_length] at hz
      exact ⟨0, s, [], drainLoop_empty he, drainTurns_none hs (.inr (List.length_eq_zero_iff.1 hz))⟩
    · obtain ⟨u, hu, T⟩ := drain_turn hs he
      obtain ⟨m, t, as, e, D⟩ := ih (n + 1) T.owns
      have hlive : ∀ k, k ∈ u.queued → (u.buf k).refcount ≠ 0 := by
        intro k hk
        have := (T.owns.2.2 k).1
        have := List.count_pos_iff.2 hk
        omega
      have hle : ∀ k, (t.buf k).refcount ≤ (u.buf k).refcount := fun k => by have := D.ref k; omega
      refine ⟨m + 1, t, s.nextAnswer :: as, ?_, ⟨?_, D.owns, ?_, T.frame.trans D.frame, fun k => ?_, fun k hk => ?_,
        fun k => ?_, ?_, ?_, ?_, ?_, ?_, fun k hk off h1 h2 => ?_, fun k hk hz off ho => ?_⟩⟩
      · rw [drainLoop_turn he, hu]
        simp only [e]
        congr 2
        omega
      · have := D.turns
        rw [T.queued, List.length_cons]
        omega
      · rw [T.queued, List.drop_succ_cons, D.queued]
      · rw [T.queued, List.take_succ_cons, List.count_cons, ← T.ref k, ← D.ref k]
        simp only [List.count_cons, List.count_nil]
        omega
      · rw [T.queued, List.take_succ_cons] at hk
        simp only [List.mem_cons, not_or] at hk
        rw [D.other k hk.2, T.other k (Ne.symm hk.1)]
      · rw [(D.lengths k).1, (D.lengths k).2]
        exact T.lengths k
      · rw [D.events, T.events, T.queued, List.take_succ_cons, T.txSeq]
        rw [transmissions_congr (s := s) (t := u) (fun k hk =>
          ⟨(T.lengths k).1, T.stamped k (hlive k (List.mem_of_mem_take hk))⟩)]
        cases s.nextAnswer <;> simp [State.transmissions]
      · rw [D.answers, nextAnswers_congr (s := s.afterDraw) (t := u) T.draws T.freeDraws]
        rfl
      · rw [D.txSeq, T.txSeq, List.count_cons]
        cases s.nextAnswer
        · simp only [beq_self_eq_true, if_true, BitVec.ofNat_add]
          rw [BitVec.add_assoc, BitVec.add_comm 1]
          rfl
        · simp
      · rw [D.draws, T.draws]
        cases hds : s.draws <;> simp [hds]
      · rw [D.freeDraws, T.freeDraws, T.draws]
        cases hds : s.draws with
        | nil =>
          simp [hds]
          omega
        | cons a ds => simp [hds]
      · have hku : (u.buf k).refcount ≠ 0 := by have := hle k; omega
        rw [D.kept k hk off h1 (by rw [(T.lengths k).1]; exact h2), T.kept k hku off h1 h2]
      · rw [T.queued, List.take_succ_cons] at hk
        by_cases hm : k ∈ u.queued.take m
        · rw [D.scrubbed k hm hz off ho, T.frame.params]
        · have hkh : k = s.slotAt (s.txq.rd % s.params.queueDepth) := by
            rcases List.mem_cons.1 hk with g | g
            · exact g
            · exact absurd g hm
          subst hkh
          have hb := D.other _ hm
          rw [hb] at hz
          rw [← T.scrubbed hz off ho]
          simp only [State.readData, hb, D.frame.session]

/-- `DrainBody` completes where the queue owns its entries, and the queue goes on owning what is left
(R206). -/
theorem drainBody_owned {s : State} (hs : QueueOwnsItsEntries s) :
    ∃ r t, drainBody s = .ok (r, t) ∧ QueueOwnsItsEntries t ∧ TransmitFrame s t ∧
      (∀ k, (t.buf k).refcount ≤ (s.buf k).refcount ∧
        (s.buf k).refcount - s.queued.count k = (t.buf k).refcount - t.queued.count k) := by
  have fa := TransmitFrame.afterDraw s
  have ha : QueueOwnsItsEntries s.afterDraw := hs.congr (by simp) fa.sides.2.1 (by simp)
  have hq : s.afterDraw.queued = s.queued := queued_congr (by simp) (by simp) (by simp)
  have hb : ∀ k, s.afterDraw.buf k = s.buf k := fun k => State.buf_congr (by simp) k
  unfold drainBody
  cases s.nextAnswer with
  | fail =>
    refine ⟨_, _, rfl, ha.congr rfl ⟨rfl, rfl, rfl, rfl, rfl, rfl⟩ rfl, fa.trans ⟨rfl, rfl⟩, fun k => ?_⟩
    have hq' : (s.afterDraw.emit .lockFailed).queued = s.queued := by
      rw [← hq]
      exact queued_congr rfl rfl rfl
    rw [State.emit_buf, hb, hq']
    exact ⟨Nat.le_refl _, rfl⟩
  | ok =>
    obtain ⟨m, t, as, e, D⟩ := drainLoop_owned maxTxPerDrain 0 ha
    rw [e]
    refine ⟨_, _, rfl, D.owns, fa.trans D.frame, fun k => ?_⟩
    have h1 := D.ref k
    have h2 := D.queued
    have h3 : (s.queued.take m).count k + (s.queued.drop m).count k = s.queued.count k := by
      rw [← List.count_append, List.take_append_drop]
    rw [hq] at h1 h2
    rw [hb] at h1
    rw [h2]
    omega

end Sys2Proof.Machine
end

