-- ==== Sys2Proof/Laws/Exec.lean ====
section
/-! SUPPORT. One inversion lemma for each meaning: what it can do, said once. Where a meaning answers a next
state, that state is the refused one or the one its rule gives. -/

namespace Sys2Proof.Machine

theorem complete_next {r : Except Fault State} {t : State} (e : complete r = .next t) : r = .ok t := by
  cases r with
  | error f => cases e
  | ok u => cases e; rfl

theorem complete_fault {r : Except Fault State} {f : Fault} (e : complete r = .fault f) : r = .error f := by
  cases r with
  | error g => cases e; rfl
  | ok u => cases e

/-- A computation and a reply: the reply of what the computation answers. -/
theorem then_reply {α : Type} {r : Except Fault α} {f : α → State} {t : State}
    (e : (do let x ← r; pure (f x)) = Except.ok t) : ∃ x, r = .ok x ∧ t = f x := by
  cases r with
  | error g => cases e
  | ok x => cases e; exact ⟨x, rfl, rfl⟩

theorem refuse_next {s t : State} (e : refuse s = .next t) : t = s.refused := by
  cases e
  rfl

/-- The refused state as a record update (R264). -/
theorem refused_eq (s : State) :
    s.refused = { s with events := [], resp := some { status := .invalidParameter, result := .none } } := rfl

/-- A meaning that refuses is what `Refuses` says (R264, R285). -/
theorem refuses_of {i : Instr} {s : State} (e : exec i s = refuse s) : Refuses i s := e

theorem execInit_next {g : Byte} {s t : State} (e : execInit g s = .next t) :
    t = s.refused ∨ (s.life ≠ .active ∧ ∃ gr, Gran.ofByte? g = some gr ∧
      t = (s.startOp.initSession gr).reply .ok .none) := by
  unfold execInit at e
  split_ifs at e with ha
  · exact .inl (refuse_next e)
  · split at e
    · exact .inl (refuse_next e)
    · rename_i gr hg
      cases e
      exact .inr ⟨ha, gr, hg, rfl⟩

theorem execFreepool_next {s t : State} (e : execFreepool s = .next t) :
    t = s.refused ∨
    (s.life = .active ∧ s.outstanding = [] ∧ t = { s.startOp with life := .closed }.reply .ok (.freed true)) ∨
    (s.life = .active ∧ s.outstanding ≠ [] ∧
      t = (s.startOp.emit (.poolOutstanding s.outstanding)).reply .ok (.freed false)) := by
  unfold execFreepool at e
  split_ifs at e with ha ho
  · cases e
    exact .inr (.inl ⟨ha, ho, rfl⟩)
  · cases e
    exact .inr (.inr ⟨ha, ho, rfl⟩)
  · exact .inl (refuse_next e)

theorem execCscalc_next {data : List Byte} {s t : State} (e : execCscalc data s = .next t) :
    t = s.refused ∨ t = s.startOp.reply .ok (.checksum (checksum data)) := by
  unfold execCscalc at e
  split_ifs at e
  · exact .inl (refuse_next e)
  · cases e
    exact .inr rfl

theorem execCscheck_next {x : Byte} {data : List Byte} {s t : State} (e : execCscheck x data s = .next t) :
    t = s.refused ∨
      t = s.startOp.reply (if checksum data = x then .ok else .checksumMismatch) (.computed (checksum data)) := by
  unfold execCscheck at e
  split_ifs at e with h1 h2
  · exact .inl (refuse_next e)
  · cases e
    exact .inr (by rw [if_pos h2])
  · cases e
    exact .inr (by rw [if_neg h2])

theorem execAlloc_next {s t : State} (e : execAlloc s = .next t) :
    t = s.refused ∨
    (s.life = .active ∧ ∃ h, s.firstFree = some h ∧ t = (s.startOp.takeBuf h).reply .ok (.handle h)) ∨
    (s.life = .active ∧ s.firstFree = none ∧ t = s.startOp.reply .resourceExhausted .none) := by
  unfold execAlloc at e
  split_ifs at e with ha
  · split at e
    · rename_i h hf
      cases e
      exact .inr (.inl ⟨ha, h, hf, rfl⟩)
    · rename_i hf
      cases e
      exact .inr (.inr ⟨ha, hf, rfl⟩)
  · exact .inl (refuse_next e)

theorem execRefinc_next {h : Handle} {s t : State} (e : execRefinc h s = .next t) :
    t = s.refused ∨ (s.life = .active ∧ s.handleLive h ∧ (s.buf h).refcount < s.params.refMax ∧
      ∃ u, refInc h s.startOp = .ok u ∧ t = u.reply .ok .none) := by
  unfold execRefinc at e
  split_ifs at e with hc
  · exact .inr ⟨hc.1, hc.2.1, hc.2.2, then_reply (complete_next e)⟩
  · exact .inl (refuse_next e)

theorem execRelease_next {h : Handle} {s t : State} (e : execRelease h s = .next t) :
    t = s.refused ∨ (s.life = .active ∧ s.handleLive h ∧
      ∃ u, refDec h s.startOp = .ok u ∧ t = u.reply .ok .none) := by
  unfold execRelease at e
  split_ifs at e with hc
  · exact .inr ⟨hc.1, hc.2, then_reply (complete_next e)⟩
  · exact .inl (refuse_next e)

theorem execBufwr_next {off val : Byte} {h : Handle} {s t : State} (e : execBufwr off val h s = .next t) :
    t = s.refused ∨ (s.life = .active ∧ s.handleLive h ∧ offsetOk off ∧
      t = (s.startOp.writeData h off.toNat val).reply .ok .none) := by
  unfold execBufwr at e
  split_ifs at e with hc
  · cases e
    exact .inr ⟨hc.1, hc.2.1, hc.2.2, rfl⟩
  · exact .inl (refuse_next e)

theorem execBufrd_next {off : Byte} {h : Handle} {s t : State} (e : execBufrd off h s = .next t) :
    t = s.refused ∨ (s.life = .active ∧ s.handleLive h ∧ offsetOk off ∧
      t = s.startOp.reply .ok (.value (s.readData h off.toNat))) := by
  unfold execBufrd at e
  split_ifs at e with hc
  · cases e
    exact .inr ⟨hc.1, hc.2.1, hc.2.2, rfl⟩
  · exact .inl (refuse_next e)

theorem execSetlen_next {len : Byte} {h : Handle} {s t : State} (e : execSetlen len h s = .next t) :
    t = s.refused ∨ (s.life = .active ∧ s.handleLive h ∧ lengthOk len ∧
      t = (s.startOp.setPayloadLength h len).reply .ok .none) := by
  unfold execSetlen at e
  split_ifs at e with hc
  · cases e
    exact .inr ⟨hc.1, hc.2.1, hc.2.2, rfl⟩
  · exact .inl (refuse_next e)

theorem execBufinfo_next {h : Handle} {s t : State} (e : execBufinfo h s = .next t) :
    t = s.refused ∨ (s.life = .active ∧ s.handleLive h ∧
      t = s.startOp.reply .ok (.info (s.buf h).frameLength (s.buf h).payloadLength (s.buf h).refcount)) := by
  unfold execBufinfo at e
  split_ifs at e with hc
  · cases e
    exact .inr ⟨hc.1, hc.2, rfl⟩
  · exact .inl (refuse_next e)

theorem execRxpush_next {data : List Byte} {s t : State} (e : execRxpush data s = .next t) :
    t = s.refused ∨ (s.life = .active ∧
      t = (s.startOp.ringPush data).2.reply .ok (.accepted (s.startOp.ringPush data).1)) := by
  unfold execRxpush at e
  split_ifs at e with ha
  · cases e
    exact .inr ⟨ha, rfl⟩
  · exact .inl (refuse_next e)

theorem execRxscan_next {s t : State} (e : execRxscan s = .next t) :
    t = s.refused ∨ (s.life = .active ∧ ∃ u, scan s.startOp = .ok u ∧ t = u.reply .ok .none) := by
  unfold execRxscan at e
  split_ifs at e with ha
  · exact .inr ⟨ha, then_reply (complete_next e)⟩
  · exact .inl (refuse_next e)

theorem rxArrive_next {data : List Byte} {s t : State} (e : rxArrive data s = .next t) :
    t = s.refused ∨ (s.life = .active ∧ ∃ u, scan (s.startOp.ringPush data).2 = .ok u ∧
      t = u.reply .ok (.accepted (s.startOp.ringPush data).1)) := by
  unfold rxArrive at e
  split_ifs at e with ha
  · exact .inr ⟨ha, then_reply (complete_next e)⟩
  · exact .inl (refuse_next e)

theorem execDrain_next {s t : State} (e : execDrain s = .next t) :
    t = s.refused ∨ (s.life = .active ∧ ∃ r, drainBody s.startOp = .ok r ∧
      t = r.2.reply (if r.1.locked then .ok else .lockNotAcquired) (.sent r.1.count)) := by
  unfold execDrain at e
  split_ifs at e with ha
  · exact .inr ⟨ha, then_reply (complete_next e)⟩
  · exact .inl (refuse_next e)

/-- The checks of `ASSEMBLE` (R200). -/
abbrev State.assembleOk (s : State) (channel priority : Byte) (h : Handle) : Prop :=
  s.isActive ∧ s.handleLive h ∧ (s.buf h).refcount < s.params.refMax ∧ channelOk channel ∧
    priorityOk priority ∧ payloadOk (s.buf h).payloadLength

theorem execAssemble_next {channel priority : Byte} {h : Handle} {s t : State}
    (e : execAssemble channel priority h s = .next t) :
    t = s.refused ∨ (s.assembleOk channel priority h ∧
      ∃ r, assembleBody channel priority h s.startOp = .ok r ∧ t = r.2.reply r.1 .none) := by
  unfold execAssemble at e
  split_ifs at e with hc
  · exact .inr ⟨hc, then_reply (complete_next e)⟩
  · exact .inl (refuse_next e)

/-- The checks of `TRANSMIT` (R235). -/
abbrev State.transmitOk (s : State) (channel : Byte) (h : Handle) : Prop :=
  s.isActive ∧ s.handleLive h ∧ (s.buf h).refcount + 3 ≤ s.params.refMax ∧ channelOk channel ∧
    payloadOk (s.buf h).payloadLength

theorem execTransmit_next {channel : Byte} {h : Handle} {s t : State} (e : execTransmit channel h s = .next t) :
    t = s.refused ∨ (s.transmitOk channel h ∧
      ∃ u r v w, refInc h s.startOp = .ok u ∧
        assembleBody channel ((u.chanAt channel.toNat).prio.setWidth 8) h u = .ok r ∧
        mirror s.params.debugOut h r.2 = .ok v ∧ refDec h v = .ok w ∧ t = w.reply r.1 .none) := by
  unfold execTransmit at e
  split_ifs at e with hc
  · refine .inr ⟨hc, ?_⟩
    have e := complete_next e
    simp only [bind, Except.bind, pure, Except.pure] at e
    split at e
    · cases e
    · rename_i u hu
      split at e
      · cases e
      · rename_i r hr
        split at e
        · cases e
        · rename_i v hv
          split at e
          · cases e
          · rename_i w hw
            cases e
            exact ⟨u, r, v, w, hu, hr, hv, hw, rfl⟩
  · exact .inl (refuse_next e)

theorem execConfig_next {c : Byte} {pr : BitVec 3} {k : BitVec 2} {x : Ctx} {s t : State}
    (e : execConfig c pr k x s = .next t) :
    t = s.refused ∨ (channelOk c ∧ ∃ kind, Kind.ofCode? k = some kind ∧
      t = (s.startOp.modifyChan c.toNat (fun _ => { prio := pr, kind := kind, ctx := x })).reply .ok .none) := by
  unfold execConfig at e
  split_ifs at e with hc
  · split at e
    · exact .inl (refuse_next e)
    · rename_i kind hk
      cases e
      exact .inr ⟨hc, kind, hk, rfl⟩
  · exact .inl (refuse_next e)

theorem execSetprio_next {c v : Byte} {s t : State} (e : execSetprio c v s = .next t) :
    t = s.refused ∨ (channelOk c ∧ priorityOk v ∧
      t = (s.startOp.modifyChan c.toNat (fun d => { d with prio := v.setWidth 3 })).reply .ok .none) := by
  unfold execSetprio at e
  split_ifs at e with hc
  · cases e
    exact .inr ⟨hc.1, hc.2, rfl⟩
  · exact .inl (refuse_next e)

theorem execGetprio_next {c : Byte} {s t : State} (e : execGetprio c s = .next t) :
    t = s.refused ∨ (channelOk c ∧ t = s.startOp.reply .ok (.priority (s.chanAt c.toNat).prio)) := by
  unfold execGetprio at e
  split_ifs at e with hc
  · cases e
    exact .inr ⟨hc, rfl⟩
  · exact .inl (refuse_next e)

end Sys2Proof.Machine
end

