-- ==== Sys2Proof/Laws/Assemble.lean ====
section
/-! SUPPORT. The assembly that sends its own frame (the queue was empty, the mutex is acquired, the transport
accepts), and the one whose drain is skipped. Used for `ASSEMBLE` and for the inner assembly of `TRANSMIT`. -/

namespace Sys2Proof.Machine

/-- A list with its checksum sums to 0 (R130). -/
theorem checksum_sum (p : List Byte) : ((p ++ [checksum p]).map BitVec.toNat).sum % 256 = 0 := by
  have : ∀ p : List Byte, ((p.map (fun b => (0x100 - b.toNat) % 256)).sum + (p.map BitVec.toNat).sum) % 256 = 0 := by
    intro p
    induction p with
    | nil => rfl
    | cons b p ih => have := b.isLt; simp only [List.map_cons, List.sum_cons]; omega
  have := this p
  simp [checksum, byteOf]; omega

/-- What an assembly that finds the queue empty, the mutex free and the transport willing does: `f` is the frame
it sends (R200 to R207). -/
structure AssemblySent (s t : State) (c pr : Byte) (h : Handle) (f : List Byte) : Prop where
  events : t.events = s.events ++ [.txBytes f.length f .ok]
  carries : CarriesPayload f c.toNat pr.toNat s.txSeq (s.payload h)
  least : LeastFrameLength f.length s.gran.bytes (s.payload h).length
  reads : t.readRange h 0 f.length = f
  above : ∀ off, f.length ≤ off → t.readData h off = s.readData h off
  fl : (t.buf h).frameLength.toNat = f.length
  pl : (t.buf h).payloadLength = (s.buf h).payloadLength
  rc : (t.buf h).refcount = (s.buf h).refcount
  other : ∀ k, h ≠ k → t.buf k = s.buf k
  seq : t.txSeq = s.txSeq + 1
  q : t.txq.rd = t.txq.wr
  d : t.draws = s.afterDraw.afterDraw.draws
  fd : t.freeDraws = s.afterDraw.afterDraw.freeDraws
  frame : TransmitFrame s t

/-- Stamping replaces the two zero sequence bits that assembly left (R202, R206). -/
theorem stampSeq_assembled {fl : Nat} (hm : fl ≤ maxFrame) (q : BitVec 2) :
    stampSeq (assembledByte1 fl) q = byteOf ((fl / 4 - 2) * 4 + q.toNat) := by
  have hlt : fl / 4 - 2 < 23 := by unfold maxFrame at hm; omega
  have : ∀ n, n < 23 → ∀ q : BitVec 2,
      (byteOf (n * 4) &&& 0xFC) + q.setWidth 8 = byteOf (n * 4 + q.toNat) := by decide
  exact this _ hlt q

theorem assembledByte2_eq (c pr : Byte) : assembledByte2 c pr = byteOf (c.toNat * 8 + pr.toNat) := by
  apply BitVec.eq_of_toNat_eq
  simp [assembledByte2, byteOf, BitVec.toNat_add, BitVec.toNat_mul]

/-- A stamped frame is the header, the payload, the padding and the checksum (R90, R206). -/
theorem stampFrame_carries (s : State) {h : Handle} {fl : Nat} {c pr : Byte} {pay : List Byte}
    (hl : h.toNat < s.pool.length) (h8 : 8 ≤ fl) (hm : fl ≤ maxFrame) (hfit : pay.length + 4 ≤ fl)
    (h0 : s.readData h 0 = sofByte) (h1 : s.readData h 1 = assembledByte1 fl)
    (h2 : s.readData h 2 = assembledByte2 c pr)
    (hp : ∀ i, i < pay.length → pay[i]? = some (s.readData h (3 + i)))
    (hpad : ∀ o, 3 + pay.length ≤ o → o < fl - 1 → s.readData h o = fillByte) :
    CarriesPayload ((s.stampFrame h fl).readRange h 0 fl) c.toNat pr.toNat s.txSeq pay := by
  have hr := stampFrame_range s (fl := fl) hl (by omega)
  refine ⟨checksum ((s.stampFrame h fl).readRange h 0 (fl - 1)), ?_, by rw [hr]; exact checksum_sum _⟩
  rw [readRange_length]
  conv_lhs => rw [hr]
  congr 1
  apply List.ext_getElem?
  intro i
  rcases Nat.lt_or_ge i (fl - 1) with g | g
  · rw [readRange_get _ _ _ _ _ g, Nat.zero_add, stampFrame_read_body s hl g]
    match i with
    | 0 => rw [if_neg (by omega), h0]; rfl
    | 1 => rw [if_pos rfl, h1, stampSeq_assembled hm]; rfl
    | 2 => rw [if_neg (by omega), h2, assembledByte2_eq]; rfl
    | i + 3 =>
      rw [if_neg (by omega)]
      simp only [List.cons_append, List.nil_append, List.getElem?_cons_succ]
      rcases Nat.lt_or_ge i pay.length with g' | g'
      · rw [List.getElem?_append_left g', hp i g', Nat.add_comm]
      · rw [List.getElem?_append_right g', List.getElem?_replicate, if_pos (by omega),
          hpad (i + 3) (by omega) g]
  · rw [List.getElem?_eq_none (by simpa using g),
      List.getElem?_eq_none (by simp only [List.length_append, List.length_cons, List.length_nil,
        List.length_replicate]; omega)]

/-- The assembly of a live buffer into an empty queue, drained at once (R200 to R207). -/
theorem assembleBody_sends {s : State} (c pr : Byte) {h : Handle} (hw : s.params.wf)
    (hr : (s.buf h).refcount ≠ 0) (hm : (s.buf h).refcount < s.params.refMax)
    (hl1 : 1 ≤ (s.buf h).payloadLength.toNat) (hl2 : (s.buf h).payloadLength.toNat ≤ 92)
    (hq : s.txq.rd = s.txq.wr) (a1 : s.nextAnswer = .ok) (a2 : s.afterDraw.nextAnswer = .ok) :
    ∃ f t, assembleBody c pr h s = .ok (.ok, t) ∧ AssemblySent s t c pr h f := by
  have hl := State.lt_of_refcount hr
  generalize hL : (s.buf h).payloadLength.toNat = L at *
  obtain ⟨fl, hfl⟩ : ∃ fl, fl = frameLen s.gran L := ⟨_, rfl⟩
  have hspec := frameLen_spec s.gran L
  have hbd := frameLen_bounds s.gran hl1 hl2
  rw [← hfl] at hspec hbd
  -- `v`: the frame head is written
  obtain ⟨v, hv⟩ : ∃ v, v = s.writeFrameHead h c pr L fl := ⟨_, rfl⟩
  have hvb := writeFrameHead_buf s c pr L fl hl
  have hvo := fun {k} hk => writeFrameHead_other s (h := h) (k := k) c pr L fl hk
  have hvr := writeFrameHead_read s c pr L fl hl
  have hvf := writeFrameHead_frame s h c pr L fl
  rw [← hv] at hvb hvo hvr hvf
  have hve : v.events = s.events := by rw [hv]; rfl
  have hvl : h.toNat < v.pool.length := by rw [hvf.2]; exact hl
  -- `x`: one more reference; `y`: the handle is queued
  have hx := refInc_of_lt (h := h) (s := v) (by rw [hvb, hvf.params]; exact hm)
  obtain ⟨x, hxx⟩ : ∃ x, x = v.setRefcount h ((v.buf h).refcount + 1) := ⟨_, rfl⟩
  rw [← hxx] at hx
  have hxb := refInc_buf hx hvl
  have hxf := DispatchFrame.refInc hx
  have hxe : x.events = s.events := by rw [(refInc_frame hx).1]; exact hve
  have hxq : x.txq = s.txq := by rw [hxf.txq, hvf.txq]
  have hxp : x.params = s.params := by rw [hxf.params, hvf.params]
  have hW := Nat.two_pow_pos s.params.idxW
  have hcount : x.queueCount = 0 := by
    unfold State.queueCount; rw [hxq, hxp, hq, Nat.add_sub_cancel_left]; exact Nat.mod_self _
  have hD := depth_pos hw
  have hDW := depth_lt hw
  have hne0 : x.queueCount ≠ x.params.queueDepth := by rw [hcount, hxp]; omega
  have hen := qEnq_room (h := h) hne0
  obtain ⟨y, hy⟩ : ∃ y, y = (qEnq h x).2 := ⟨_, rfl⟩
  have hst : enqueueRef h v = .ok (.ok, y) := by
    unfold enqueueRef; simp only [hx, bind, Except.bind]; rw [hen] ; simp [hy, hen, pure, Except.pure]
  have hyb : ∀ k, y.buf k = x.buf k := fun k => by rw [hy, hen]; rfl
  have hyf : TransmitFrame s y := (hvf.trans hxf).transmitFrame.trans (hy ▸ TransmitFrame.qEnq h x)
  have hye : y.events = s.events := by rw [hy, hen]; exact hxe
  have hyrd : y.txq.rd = s.txq.rd := by rw [hy, hen]; show x.txq.rd = _; rw [hxq]
  have hywr : y.txq.wr = (s.txq.wr + 1) % 2 ^ s.params.idxW := by
    rw [hy, hen]; show x.idxNext x.txq.wr = _; rw [State.idxNext, hxq, hxp]
  have hyslot : y.slotAt (y.txq.rd % y.params.queueDepth) = h := by
    rw [hyrd, hyf.params, hq]
    unfold State.slotAt
    have : y.txq.slot = Store.write x.txq.slot (x.txq.wr % x.params.queueDepth) h := by rw [hy, hen]
    rw [this, hxq, hxp, Store.read?_write_self]; rfl
  have hyd : y.draws = s.draws ∧ y.freeDraws = s.freeDraws ∧ y.txSeq = s.txSeq := by
    rw [hy, hen]; rw [hxx, hv]; exact ⟨rfl, rfl, rfl⟩
  have hyn : y.nextAnswer = s.nextAnswer := by unfold State.nextAnswer; rw [hyd.1, hyd.2.1]
  have hne : y.txq.rd ≠ y.txq.wr := by
    rw [hyrd, hywr, ← hq]
    intro e
    rcases Nat.lt_or_ge (s.txq.rd + 1) (2 ^ s.params.idxW) with g | g
    · rw [Nat.mod_eq_of_lt g] at e; omega
    · have := Nat.mod_lt (s.txq.rd + 1) hW
      have : s.txq.rd + 1 = 2 ^ s.params.idxW := by omega
      rw [this, Nat.mod_self] at e; omega
  -- `z`: the mutex is acquired and the handle dequeued; `w`: the frame is sent
  have hzt : y.afterDraw.txq = y.txq := by simp
  have hdq := qDeq_some (s := y.afterDraw) (by rw [hzt]; exact hne)
  obtain ⟨z, hz⟩ : ∃ z, z = (qDeq y.afterDraw).2 := ⟨_, rfl⟩
  have hzb : ∀ k, z.buf k = x.buf k := fun k => by
    rw [hz, hdq, ← hyb]; exact State.buf_congr (s := y) (by simp) k
  have hzf : TransmitFrame s z := hyf.trans ((TransmitFrame.afterDraw y).trans (hz ▸ TransmitFrame.qDeq _))
  have hbh : z.buf h = { v.buf h with refcount := (s.buf h).refcount + 1 } := by rw [hzb, hxb, if_pos rfl, hvb]
  have hflz : (z.buf h).frameLength.toNat = fl := by
    rw [hbh, hvb]; simp only [byteOf, BitVec.toNat_ofNat, maxFrame] at *; omega
  obtain ⟨w, hw'⟩ := drainOne_completes (s := z) (h := h) (by rw [hbh]; simp)
    (by rw [hflz]; exact hbd.1) (by rw [hflz]; exact hbd.2.1)
  have hzl : h.toNat < z.pool.length := by rw [hzf.2]; exact hl
  obtain ⟨d1, d2, d3, d4, d5, d6, d7, d8, d9, d10, d11⟩ := drainOne_spec hw' hzl
  rw [hflz] at d6 d10
  have hzr : ∀ o, z.readData h o = v.readData h o := fun o => by
    simp only [State.readData, hbh, hzf.session, hvf.session]
  have hze : z.events = s.events := by rw [hz, hdq]; show y.afterDraw.events = _; rw [← hye]; simp
  have hzn : z.nextAnswer = .ok := by
    rw [← a2]; rw [hz, hdq]
    show (y.afterDraw).nextAnswer = _
    unfold State.nextAnswer; simp [hyd]
  have hzs : z.txSeq = s.txSeq := by rw [hz, hdq]; show y.afterDraw.txSeq = _; rw [← hyd.2.2]; simp
  have hzq : z.txq.rd = z.txq.wr := by
    rw [hz, hdq]; show y.afterDraw.idxNext y.afterDraw.txq.rd = y.afterDraw.txq.wr
    rw [hzt, hywr, State.idxNext, hyrd, hq]; simp [hyf.params]
  have hdb : drainBody y = .ok (⟨true, 1⟩, w) := by
    unfold drainBody
    rw [hyn, a1]
    simp only
    have : drainLoop maxTxPerDrain 0 y.afterDraw = .ok (1, w) := by
      show drainLoop (49 + 1) 0 y.afterDraw = _
      rw [drainLoop_turn (by rw [hzt]; exact hne)]
      have e : y.afterDraw.slotAt (y.afterDraw.txq.rd % y.afterDraw.params.queueDepth) = h := by
        rw [← hyslot]; simp [State.slotAt]
      rw [e, ← hz, hw']
      exact drainLoop_empty (by rw [d2]; exact hzq)
    rw [this]
  obtain ⟨f, hf⟩ : ∃ f, f = (z.stampFrame h fl).readRange h 0 fl := ⟨_, rfl⟩
  have hflen : f.length = fl := by rw [hf]; simp
  have hwr : ∀ o, w.readData h o = (z.stampFrame h fl).readData h o := by
    intro o
    have h1 : (z.buf h).refcount ≠ 1 := by rw [hbh]; simpa using hr
    simp only [State.readData, d10, if_neg h1, d1.session, (stampFrame_frame z h fl).session]
  have hpay : (s.payload h).length = L := by simp [State.payload, hL]
  refine ⟨f, w, assembleBody_of (u := y) (r := ⟨true, 1⟩) (by rw [hL, ← hfl, ← hv]; exact hst) hdb, ?_⟩
  refine ⟨?_, ?_, ?_, ?_, ?_, ?_, ?_, ?_, ?_, ?_, ?_, ?_, ?_, ?_⟩
  · rw [d6, hzn, hflen, hf, hze]; rfl
  · rw [hf, ← hzs]
    refine stampFrame_carries z hzl hbd.1 hbd.2.1 (by omega) ?_ ?_ ?_ (fun i hi => ?_) (fun o h1 h2 => ?_)
    · rw [hzr, hvr, if_neg (by unfold headerLen; omega), if_pos rfl]
    · rw [hzr, hvr, if_neg (by unfold headerLen; omega)]; rfl
    · rw [hzr, hvr, if_neg (by unfold headerLen; omega)]; rfl
    · rw [State.payload, readRange_get _ _ _ _ _ (by omega), hzr, hvr, if_neg (by unfold headerLen; omega),
        if_neg (by omega), if_neg (by omega), if_neg (by omega)]
    · rw [hzr, hvr, if_pos ⟨by unfold headerLen; omega, h2⟩]
  · rw [hflen, hpay]; exact ⟨hspec.1, hspec.2.1, hspec.2.2⟩
  · rw [hflen, hf]
    simp only [State.readRange, hwr]
  · intro off ho
    rw [hwr, stampFrame_read z hzl, if_neg (by omega), if_neg (by omega), hzr, hvr, if_neg (by omega),
      if_neg (by omega), if_neg (by omega), if_neg (by omega)]
  · rw [d8, hflz, hflen]
  · rw [d9, hbh, hvb]
  · have := d7; rw [hbh] at this; simpa using this
  · intro k hk
    rw [d11 k hk, hzb, hxb, if_neg hk, hvo hk]
  · rw [d5, hzn, hzs]; simp
  · rw [d2]; exact hzq
  · rw [d3, hz, hdq]; simp [hyd]
  · rw [d4, hz, hdq]; simp [hyd]
  · exact hzf.trans d1

/-! ## The drain is skipped -/

/-- What an assembly whose drain is skipped does: `n` is the frame length, `st` the status of the enqueue
(R202 to R204, R206). -/
structure AssemblyQueued (s t : State) (c pr : Byte) (h : Handle) (n : Nat) (st : Status) : Prop where
  least : LeastFrameLength n s.gran.bytes (s.payload h).length
  head : t.readRange h 0 (n - 1) = assembledHead n c.toNat pr.toNat (s.payload h)
  above : ∀ off, n - 1 ≤ off → t.readData h off = s.readData h off
  fl : (t.buf h).frameLength.toNat = n
  pl : (t.buf h).payloadLength = (s.buf h).payloadLength
  room : s.queued.length < s.params.queueDepth → st = .ok ∧ t.events = s.events ++ [.lockFailed] ∧
    t.queued = s.queued ++ [h] ∧ (t.buf h).refcount = (s.buf h).refcount + 1
  full : s.queued.length = s.params.queueDepth → st = .resourceExhausted ∧
    t.events = s.events ++ [.queueFull, .lockFailed] ∧ t.txq = s.txq ∧ (t.buf h).refcount = (s.buf h).refcount
  other : ∀ k, h ≠ k → t.buf k = s.buf k
  seq : t.txSeq = s.txSeq
  d : t.draws = s.afterDraw.draws
  fd : t.freeDraws = s.afterDraw.freeDraws
  frame : TransmitFrame s t

/-- What an assembled buffer reads as up to its checksum (R202). -/
theorem writeFrameHead_head (s : State) {h : Handle} (c pr : Byte) {fl : Nat} (hl : h.toNat < s.pool.length)
    (hfit : (s.payload h).length + 4 ≤ fl) :
    (s.writeFrameHead h c pr (s.payload h).length fl).readRange h 0 (fl - 1) =
      assembledHead fl c.toNat pr.toNat (s.payload h) := by
  apply List.ext_getElem?
  intro i
  unfold assembledHead
  rcases Nat.lt_or_ge i (fl - 1) with g | g
  · rw [readRange_get _ _ _ _ _ g, Nat.zero_add, writeFrameHead_read s c pr _ fl hl]
    unfold headerLen
    match i with
    | 0 => rw [if_neg (by omega)]; rfl
    | 1 => rw [if_neg (by omega)]; rfl
    | 2 => rw [if_neg (by omega), if_neg (by omega), if_neg (by omega), if_pos rfl, assembledByte2_eq]; rfl
    | i + 3 =>
      simp only [List.cons_append, List.nil_append, List.getElem?_cons_succ]
      rcases Nat.lt_or_ge i (s.payload h).length with g' | g'
      · rw [if_neg (by omega), if_neg (by omega), if_neg (by omega), if_neg (by omega),
          List.getElem?_append_left g']
        simp only [State.payload, readRange_length] at g' ⊢
        rw [readRange_get _ _ _ _ _ g', Nat.add_comm]
      · rw [if_pos (by omega), List.getElem?_append_right g', List.getElem?_replicate, if_pos (by omega)]
  · rw [List.getElem?_eq_none (by simpa using g), List.getElem?_eq_none (by
      simp only [List.length_append, List.length_cons, List.length_nil, List.length_replicate]; omega)]

/-- The assembly of a live buffer whose drain is skipped (R200 to R204, R206). -/
theorem assembleBody_queues {s : State} (c pr : Byte) {h : Handle} (hq : QueueInv s)
    (hr : (s.buf h).refcount ≠ 0) (hm : (s.buf h).refcount < s.params.refMax)
    (hl1 : 1 ≤ (s.buf h).payloadLength.toNat) (hl2 : (s.buf h).payloadLength.toNat ≤ 92)
    (a1 : s.nextAnswer = .fail) :
    ∃ n st t, assembleBody c pr h s = .ok (st, t) ∧ AssemblyQueued s t c pr h n st := by
  have hl := State.lt_of_refcount hr
  have hL : (s.payload h).length = (s.buf h).payloadLength.toNat := by simp [State.payload]
  rw [← hL] at hl1 hl2
  obtain ⟨fl, hfl⟩ : ∃ fl, fl = frameLen s.gran (s.payload h).length := ⟨_, rfl⟩
  have hspec := frameLen_spec s.gran (s.payload h).length
  have hbd := frameLen_bounds s.gran hl1 hl2
  rw [← hfl] at hspec hbd
  -- `v`: the frame head is written
  obtain ⟨v, hv⟩ : ∃ v, v = s.writeFrameHead h c pr (s.payload h).length fl := ⟨_, rfl⟩
  have hvb := writeFrameHead_buf s c pr (s.payload h).length fl hl
  have hvo := fun {k} hk => writeFrameHead_other s (h := h) (k := k) c pr (s.payload h).length fl hk
  have hvr := writeFrameHead_read s c pr (s.payload h).length fl hl
  have hvf := writeFrameHead_frame s h c pr (s.payload h).length fl
  have hvh := writeFrameHead_head s c pr hl hspec.2.1
  rw [← hv] at hvb hvo hvr hvf hvh
  have hve : v.events = s.events ∧ v.txSeq = s.txSeq ∧ v.draws = s.draws ∧ v.freeDraws = s.freeDraws := by
    rw [hv]
    exact ⟨rfl, rfl, rfl, rfl⟩
  have hvl : h.toNat < v.pool.length := by rw [hvf.2]; exact hl
  -- `y`: the enqueue
  obtain ⟨st, y, he⟩ := enqueueRef_completes (h := h) (s := v) (by rw [hvb]; exact hr)
    (by rw [hvb, hvf.params]; exact hm)
  obtain ⟨x, hx, hy⟩ := enqueueRef_ok he
  have hxb := refInc_buf hx hvl
  have hxf := hvf.trans (DispatchFrame.refInc hx)
  have hxe : x.events = s.events ∧ x.txSeq = s.txSeq ∧ x.draws = s.draws ∧ x.freeDraws = s.freeDraws := by
    rw [(refInc_frame hx).1]
    exact hve
  have hxq := queued_congr hxf.txq hxf.params hxf.session
  have hcx := queueCount_congr hxf.txq hxf.params
  have hyd : y.txSeq = s.txSeq ∧ y.draws = s.draws ∧ y.freeDraws = s.freeDraws := by
    rcases hy with ⟨hne, -, rfl⟩ | ⟨-, -, hd⟩
    · rw [qEnq_room hne]; exact hxe.2
    · rw [(refDec_frame hd).1]; exact hxe.2
  have hyf := hvf.transmitFrame.trans (enqueueRef_frame he)
  have hyb : ∀ k, h ≠ k → y.buf k = s.buf k := by
    intro k hk
    rcases hy with ⟨hne, -, rfl⟩ | ⟨-, -, hd⟩
    · rw [qEnq_room hne]
      show x.buf k = _
      rw [hxb, if_neg hk, hvo hk]
    · rw [refDec_buf hd, if_neg hk, State.emit_buf, hxb, if_neg hk, hvo hk]
  have hyh : ∃ rc, y.buf h = { v.buf h with refcount := rc } := by
    rcases hy with ⟨hne, -, rfl⟩ | ⟨-, -, hd⟩
    · rw [qEnq_room hne]
      exact ⟨_, (hxb h).trans (if_pos rfl)⟩
    · have h1 : ((x.emit .queueFull).buf h).refcount ≠ 1 := by
        rw [State.emit_buf, hxb, if_pos rfl, hvb]
        simpa using hr
      rw [refDec_buf hd, if_pos rfl, if_neg h1, State.emit_buf, hxb, if_pos rfl]
      exact ⟨_, rfl⟩
  obtain ⟨rc, hyh⟩ := hyh
  have hna : y.nextAnswer = .fail := by
    rw [← a1]
    simp only [State.nextAnswer, hyd]
  have hdb : drainBody y = .ok (⟨false, 0⟩, y.afterDraw.emit .lockFailed) := by
    unfold drainBody
    rw [hna]
  have htb : ∀ k, (y.afterDraw.emit .lockFailed).buf k = y.buf k := fun k => State.buf_congr (by simp) k
  have hts : (y.afterDraw.emit .lockFailed).session = s.session := by simpa using hyf.session
  have htr : ∀ o, (y.afterDraw.emit .lockFailed).readData h o = v.readData h o := fun o => by
    simp only [State.readData, htb, hyh, hts, hvf.session]
  refine ⟨fl, st, y.afterDraw.emit .lockFailed,
    assembleBody_of (u := y) (r := ⟨false, 0⟩) (by rw [← hL, ← hfl, ← hv]; exact he) hdb,
    ⟨hspec, ?_, fun o ho => ?_, ?_, ?_, fun hlt => ?_, fun hfull => ?_, fun k hk => ?_, ?_, ?_, ?_, ?_⟩⟩
  · rw [← hvh]
    simp only [State.readRange, htr]
  · rw [htr, hvr, if_neg (by omega), if_neg (by omega), if_neg (by omega), if_neg (by omega)]
  · rw [htb, hyh, hvb]
    simp only [byteOf, BitVec.toNat_ofNat, maxFrame] at *
    omega
  · rw [htb, hyh, hvb]
  · rw [queued_length, ← hcx, ← hxf.params] at hlt
    rcases hy with ⟨hne, hst, rfl⟩ | ⟨heq, -, -⟩
    · refine ⟨hst, ?_, ?_, ?_⟩
      · have : (qEnq h x).2.events = s.events := by rw [qEnq_room hne]; exact hxe.1
        simp [this]
      · rw [← hxq, ← (qEnq_room_queued (hq.congr hxf.txq hxf.params) hne).2]
        exact queued_congr (by simp) (by simp) (by simp)
      · rw [htb, qEnq_room hne]
        show (x.buf h).refcount = _
        rw [hxb, if_pos rfl, hvb]
    · omega
  · rw [queued_length, ← hcx, ← hxf.params] at hfull
    rcases hy with ⟨hne, -, -⟩ | ⟨-, hst, hd⟩
    · exact absurd hfull hne
    · refine ⟨hst, ?_, ?_, ?_⟩
      · have : y.events = s.events ++ [.queueFull] := by
          rw [(refDec_frame hd).1]
          simp [hxe.1]
        simp [this]
      · have : y.txq = s.txq := by
          rw [(refDec_frame hd).1]
          exact hxf.txq
        simpa using this
      · rw [htb, refDec_buf hd, if_pos rfl, State.emit_buf, hxb, if_pos rfl, hvb]
        rfl
  · rw [htb, hyb k hk]
  · simp [hyd]
  · simp [hyd]
  · simp [hyd]
  · exact hyf.trans ((TransmitFrame.afterDraw y).trans ⟨rfl, rfl⟩)

end Sys2Proof.Machine
end

