-- ==== Sys2Proof/Laws/ExecPool.lean ====
section
/-! SUPPORT. A property of single buffers that the pool's elementary changes keep is kept by every operation. -/

namespace Sys2Proof.Machine

variable {p : Params} {P : Buf → Prop}

theorem PoolAll.drainLoop (c : BufClosed p P) {fuel n m : Nat} {s t : State} (hs : s.params = p)
    (ha : PoolAll P s) (e : drainLoop fuel n s = .ok (m, t)) : PoolAll P t := by
  refine (drainLoop_induct (P := fun u => u.params = p ∧ PoolAll P u) ?_ ⟨hs, ha⟩ e).2
  intro s u h hne k
  have f1 := TransmitFrame.qDeq s
  have f2 := (drainOne_spec k (drainOne_live k)).1
  have hq : PoolAll P (qDeq s).2 := PoolAll.congr (s := s) (by rw [qDeq_some hne]) h.2
  exact ⟨(f1.trans f2).params.trans h.1, hq.drainOne c (f1.params.trans h.1) k⟩

theorem PoolAll.drainBody (c : BufClosed p P) {s t : State} {r : DrainResult} (hs : s.params = p)
    (ha : PoolAll P s) (e : drainBody s = .ok (r, t)) : PoolAll P t := by
  have ha' : PoolAll P s.afterDraw := ha.congr (by simp)
  rcases drainBody_ok e with ⟨-, -, rfl⟩ | ⟨-, -, h⟩
  · exact ha'
  · exact ha'.drainLoop c (by simpa using hs) h

theorem PoolAll.enqueueRef (c : BufClosed p P) {h : Handle} {s t : State} {st : Status} (hs : s.params = p)
    (ha : PoolAll P s) (e : enqueueRef h s = .ok (st, t)) : PoolAll P t := by
  obtain ⟨x, hx, ⟨hne, -, rfl⟩ | ⟨-, -, hd⟩⟩ := enqueueRef_ok e
  · have hax : PoolAll P x := ha.refInc c hs hx
    exact hax.congr (by rw [qEnq_room hne])
  · have hax : PoolAll P x := ha.refInc c hs hx
    exact PoolAll.refDec c (s := x.emit .queueFull) ((DispatchFrame.refInc hx).params.trans hs) hax hd

theorem PoolAll.assembleBody (c : BufClosed p P) {ch pr : Byte} {h : Handle} {s t : State} {st : Status}
    (hs : s.params = p) (ha : PoolAll P s) (hp : payloadOk (s.buf h).payloadLength)
    (e : assembleBody ch pr h s = .ok (st, t)) : PoolAll P t := by
  obtain ⟨u, r, h1, h2⟩ := assembleBody_ok e
  have hb := frameLen_bounds s.gran hp.1 hp.2
  have w := PoolAll.writeFrameHead c (s := s) (h := h) ch pr (l := (s.buf h).payloadLength.toNat) ha hb.1 hb.2.1
    hb.2.2 (by have := hp.2; unfold maxPayload at this; unfold headerLen maxFrame; omega)
  have wf := (writeFrameHead_frame s h ch pr (s.buf h).payloadLength.toNat
    (frameLen s.gran (s.buf h).payloadLength.toNat)).params
  have hu : PoolAll P u := w.enqueueRef c (wf.trans hs) h1
  exact hu.drainBody c ((enqueueRef_frame h1).params.trans (wf.trans hs)) h2

/-- Every operation keeps a closed property of every buffer. -/
theorem PoolAll.exec (c : BufClosed p P) (i : Instr) {s t : State} (hs : s.params = p) (ha : PoolAll P s)
    (e : exec i s = .next t) : PoolAll P t := by
  have arr : ∀ data, rxArrive data s = .next t → PoolAll P t := by
    intro data e
    rcases rxArrive_next e with rfl | ⟨-, u, hu, rfl⟩
    · exact ha
    · have hf := (ringPush_frame s.startOp data).1
      have : PoolAll P u := PoolAll.scan c (by rw [hf]; exact hs) (ha.congr (by rw [hf]; rfl)) hu
      exact this
  cases i with
  | init g =>
    rcases execInit_next e with rfl | ⟨-, gr, -, rfl⟩
    · exact ha
    · intro b hb
      rw [List.eq_of_mem_replicate hb]
      exact c.fresh
  | freepool => rcases execFreepool_next e with rfl | ⟨-, -, rfl⟩ | ⟨-, -, rfl⟩ <;> exact ha
  | cscalc d => rcases execCscalc_next e with rfl | rfl <;> exact ha
  | cscheck x d => rcases execCscheck_next e with rfl | rfl <;> exact ha
  | alloc =>
    rcases execAlloc_next e with rfl | ⟨-, k, -, rfl⟩ | ⟨-, -, rfl⟩
    · exact ha
    · exact PoolAll.modifyBuf (s := s.startOp) ha k _ (fun b hb => c.take b hb)
    · exact ha
  | refinc k =>
    rcases execRefinc_next e with rfl | ⟨-, -, -, u, hu, rfl⟩
    · exact ha
    · have : PoolAll P u := PoolAll.refInc c (s := s.startOp) hs ha hu
      exact this
  | release k =>
    rcases execRelease_next e with rfl | ⟨-, -, u, hu, rfl⟩
    · exact ha
    · have : PoolAll P u := PoolAll.refDec c (s := s.startOp) hs ha hu
      exact this
  | bufwr a b k =>
    rcases execBufwr_next e with rfl | ⟨-, -, ho, rfl⟩
    · exact ha
    · exact PoolAll.modifyBuf (s := s.startOp) ha k _ (fun b hb => c.write b _ [_] hb ho)
  | bufrd a k => rcases execBufrd_next e with rfl | ⟨-, -, -, rfl⟩ <;> exact ha
  | setlen a k =>
    rcases execSetlen_next e with rfl | ⟨-, -, ho, rfl⟩
    · exact ha
    · exact PoolAll.modifyBuf (s := s.startOp) ha k _ (fun b hb => c.payloadLength b _ hb ho)
  | bufinfo k => rcases execBufinfo_next e with rfl | ⟨-, -, rfl⟩ <;> exact ha
  | rxpush d =>
    rcases execRxpush_next e with rfl | ⟨-, rfl⟩
    · exact ha
    · exact ha.congr (by rw [(ringPush_frame s.startOp d).1]; rfl)
  | rxscan =>
    rcases execRxscan_next e with rfl | ⟨-, u, hu, rfl⟩
    · exact ha
    · have : PoolAll P u := PoolAll.scan c (s := s.startOp) hs ha hu
      exact this
  | assemble ch pr k =>
    rcases execAssemble_next e with rfl | ⟨ho, r, hr, rfl⟩
    · exact ha
    · have : PoolAll P r.2 := PoolAll.assembleBody c (s := s.startOp) (st := r.1) hs ha ho.2.2.2.2.2 hr
      exact this
  | drain =>
    rcases execDrain_next e with rfl | ⟨-, r, hr, rfl⟩
    · exact ha
    · have : PoolAll P r.2 := PoolAll.drainBody c (s := s.startOp) (r := r.1) hs ha hr
      exact this
  | transmit ch k =>
    rcases execTransmit_next e with rfl | ⟨ho, u, r, v, w, h1, h2, h3, h4, rfl⟩
    · exact ha
    · have f1 := DispatchFrame.refInc h1
      have f2 := assembleBody_frame (st := r.1) (t := r.2) h2
      have hl : k.toNat < s.pool.length := State.lt_of_refcount ho.2.1.2
      have f3 := (deliver_ok (by rw [f2.2, f1.2]; exact hl) h3).1
      have hu : u.params = p := f1.params.trans hs
      have a1 : PoolAll P u := PoolAll.refInc c (s := s.startOp) hs ha h1
      have a2 : PoolAll P r.2 := PoolAll.assembleBody c (st := r.1) hu a1
        (by rw [refInc_buf h1 hl, if_pos rfl]; exact ho.2.2.2.2) h2
      have a3 : PoolAll P v := a2.deliver c (f2.params.trans hu) h3
      have : PoolAll P w := a3.refDec c (f3.params.trans (f2.params.trans hu)) h4
      exact this
  | config c p k x => rcases execConfig_next e with rfl | ⟨-, kd, -, rfl⟩ <;> exact ha
  | setprio c p => rcases execSetprio_next e with rfl | ⟨-, -, rfl⟩ <;> exact ha
  | getprio c => rcases execGetprio_next e with rfl | ⟨-, rfl⟩ <;> exact ha
  | rxbytes d => exact arr d e
  | frameHeader => exact arr _ e
  | frameSof => exact arr _ e
  | frameLenSeq => exact arr _ e
  | frameChanPrio => exact arr _ e
  | framePayload => exact arr _ e
  | frameChecksum => exact arr _ e

end Sys2Proof.Machine
end

