-- ==== Sys2Proof/Laws/Fields.lean ====
section
/-! SUPPORT. The fields of a command word written as one number (R100). -/

namespace Sys2Proof.Machine

theorem digits_op (o a b h x : Nat) (h1 : o < 256) :
    (o + a * 256 + b * 65536 + h * 16777216 + x * 1099511627776) % 256 = o := by omega

theorem digits_a (o a b h x : Nat) (h1 : o < 256) (h2 : a < 256) :
    (o + a * 256 + b * 65536 + h * 16777216 + x * 1099511627776) / 256 % 256 = a := by omega

theorem digits_b (o a b h x : Nat) (h1 : o < 256) (h2 : a < 256) (h3 : b < 256) :
    (o + a * 256 + b * 65536 + h * 16777216 + x * 1099511627776) / 65536 % 256 = b := by omega

theorem digits_h (o a b h x : Nat) (h1 : o < 256) (h2 : a < 256) (h3 : b < 256) (h4 : h < 65536) :
    (o + a * 256 + b * 65536 + h * 16777216 + x * 1099511627776) / 16777216 % 65536 = h := by omega

theorem digits_x (o a b h x : Nat) (h1 : o < 256) (h2 : a < 256) (h3 : b < 256) (h4 : h < 65536)
    (h5 : x < 16777216) :
    (o + a * 256 + b * 65536 + h * 16777216 + x * 1099511627776) / 1099511627776 % 16777216 = x := by omega

theorem digits_fit (o a b h x : Nat) (h1 : o < 256) (h2 : a < 256) (h3 : b < 256) (h4 : h < 65536)
    (h5 : x < 16777216) :
    (o + a * 256 + b * 65536 + h * 16777216 + x * 1099511627776) % 18446744073709551616 =
      o + a * 256 + b * 65536 + h * 16777216 + x * 1099511627776 := by omega

theorem fieldsWord_toNat (op a b : Byte) (h : Handle) (x : Ctx) :
    (fieldsWord op.toNat a.toNat b.toNat h.toNat x.toNat).toNat =
      op.toNat + a.toNat * 256 + b.toNat * 65536 + h.toNat * 16777216 + x.toNat * 1099511627776 := by
  rw [fieldsWord, BitVec.toNat_ofNat]
  exact digits_fit _ _ _ _ _ op.isLt a.isLt b.isLt h.isLt x.isLt

/-- The decoder cuts a word back into the fields it was made of. -/
theorem fieldsOf_fieldsWord (op a b : Byte) (h : Handle) (x : Ctx) :
    fieldsOf (fieldsWord op.toNat a.toNat b.toNat h.toNat x.toNat) = ⟨op, a, b, h, x⟩ := by
  have e := fieldsWord_toNat op a b h x
  generalize fieldsWord op.toNat a.toNat b.toNat h.toNat x.toNat = w at *
  simp only [fieldsOf, Fields.mk.injEq]
  refine ⟨?_, ?_, ?_, ?_, ?_⟩ <;> apply BitVec.eq_of_toNat_eq <;>
    rw [BitVec.extractLsb'_toNat, e, Nat.shiftRight_eq_div_pow]
  · rw [Nat.pow_zero, Nat.div_one]
    exact digits_op _ _ _ _ _ op.isLt
  · exact digits_a _ _ _ _ _ op.isLt a.isLt
  · exact digits_b _ _ _ _ _ op.isLt a.isLt b.isLt
  · exact digits_h _ _ _ _ _ op.isLt a.isLt b.isLt h.isLt
  · exact digits_x _ _ _ _ _ op.isLt a.isLt b.isLt h.isLt x.isLt

end Sys2Proof.Machine
end

