-- ==== Sys2Proof/Laws/PerInstr.lean ====
section
/-! SUPPORT. The per-instruction family `EncodedOp`: the request that issues an operation is of the kind its row of
spec/opcode_table.json has, a command word with the row's `OP` (R100, R110) or the row's part of a frame (R90).
One lemma for each constructor. -/

namespace Sys2Proof.Laws.EncodedOp

/-- How the table tells a row from the others: by its `OP`, or by its place in a frame. -/
inductive Row where
  | op (code : Byte)
  | part (p : FramePart)
deriving DecidableEq, Repr

/-- The row of a constructor. -/
def rowOf : Instr → Row
  | .init _ => .op 0x01
  | .freepool => .op 0x02
  | .cscalc _ => .op 0x10
  | .cscheck _ _ => .op 0x11
  | .alloc => .op 0x20
  | .refinc _ => .op 0x21
  | .release _ => .op 0x22
  | .bufwr _ _ _ => .op 0x23
  | .bufrd _ _ => .op 0x24
  | .setlen _ _ => .op 0x25
  | .bufinfo _ => .op 0x26
  | .rxpush _ => .op 0x30
  | .rxscan => .op 0x31
  | .rxbytes _ => .op 0x32
  | .assemble _ _ _ => .op 0x40
  | .drain => .op 0x41
  | .transmit _ _ => .op 0x42
  | .config _ _ _ _ => .op 0x50
  | .setprio _ _ => .op 0x51
  | .getprio _ => .op 0x52
  | .frameHeader _ _ _ _ _ => .part .header
  | .frameSof => .part .sof
  | .frameLenSeq _ _ _ => .part .lenSeq
  | .frameChanPrio _ _ => .part .chanPrio
  | .framePayload _ => .part .payload
  | .frameChecksum _ => .part .checksum

/-- The row that a request belongs to. -/
def rowOfRequest : Request → Row
  | .command w _ => .op (w.extractLsb' 0 8)
  | .wire p _ => .part p

/-- The encoder writes an operation as its own row. -/
def Statement (i : Instr) : Prop := rowOfRequest (encode i) = rowOf i

/-- The `OP` field of a word put together from its fields (R100). -/
theorem op_of (op a b : Byte) (h : Handle) (x : Ctx) : (commandWord op a b h x).extractLsb' 0 8 = op :=
  congrArg Fields.op (fieldsOf_wordOf ⟨op, a, b, h, x⟩)

theorem command_row (op a b : Byte) (h : Handle) (x : Ctx) (data : List Byte) :
    rowOfRequest (.command (commandWord op a b h x) data) = .op op := congrArg Row.op (op_of op a b h x)

theorem init (g : Byte) : Statement (.init g) := command_row _ _ _ _ _ _
theorem freepool : Statement .freepool := command_row _ _ _ _ _ _
theorem cscalc (data : List Byte) : Statement (.cscalc data) := command_row _ _ _ _ _ _
theorem cscheck (expected : Byte) (data : List Byte) : Statement (.cscheck expected data) := command_row _ _ _ _ _ _
theorem alloc : Statement .alloc := command_row _ _ _ _ _ _
theorem refinc (h : Handle) : Statement (.refinc h) := command_row _ _ _ _ _ _
theorem release (h : Handle) : Statement (.release h) := command_row _ _ _ _ _ _
theorem bufwr (off val : Byte) (h : Handle) : Statement (.bufwr off val h) := command_row _ _ _ _ _ _
theorem bufrd (off : Byte) (h : Handle) : Statement (.bufrd off h) := command_row _ _ _ _ _ _
theorem setlen (len : Byte) (h : Handle) : Statement (.setlen len h) := command_row _ _ _ _ _ _
theorem bufinfo (h : Handle) : Statement (.bufinfo h) := command_row _ _ _ _ _ _
theorem rxpush (data : List Byte) : Statement (.rxpush data) := command_row _ _ _ _ _ _
theorem rxscan : Statement .rxscan := command_row _ _ _ _ _ _
theorem rxbytes (data : List Byte) : Statement (.rxbytes data) := command_row _ _ _ _ _ _
theorem assemble (channel priority : Byte) (h : Handle) : Statement (.assemble channel priority h) :=
  command_row _ _ _ _ _ _
theorem drain : Statement .drain := command_row _ _ _ _ _ _
theorem transmit (channel : Byte) (h : Handle) : Statement (.transmit channel h) := command_row _ _ _ _ _ _
theorem config (channel : Byte) (priority : BitVec 3) (kind : BitVec 2) (ctx : Ctx) :
    Statement (.config channel priority kind ctx) := command_row _ _ _ _ _ _
theorem setprio (channel value : Byte) : Statement (.setprio channel value) := command_row _ _ _ _ _ _
theorem getprio (channel : Byte) : Statement (.getprio channel) := command_row _ _ _ _ _ _
theorem frameHeader (x : BitVec 1) (service : BitVec 5) (seq : BitVec 2) (channel : BitVec 5) (priority : BitVec 3) :
    Statement (.frameHeader x service seq channel priority) := rfl
theorem frameSof : Statement .frameSof := rfl
theorem frameLenSeq (x : BitVec 1) (service : BitVec 5) (seq : BitVec 2) : Statement (.frameLenSeq x service seq) := rfl
theorem frameChanPrio (channel : BitVec 5) (priority : BitVec 3) : Statement (.frameChanPrio channel priority) := rfl
theorem framePayload (d : Byte) : Statement (.framePayload d) := rfl
theorem frameChecksum (k : Byte) : Statement (.frameChecksum k) := rfl

end Sys2Proof.Laws.EncodedOp
end

