-- ==== Sys2Proof/Tests/Slice0.lean ====
section
/-! SUPPORT. The model's own tests. Words and expected values are those of spec/95_test_vectors.md (its parts 1
and 2, by the vector's name) or counted out by hand from the rule named. The last part shows, for every
obligation with hypotheses, a concrete state and operands that meet them. -/

open Sys2Proof Sys2Proof.Machine

namespace Sys2Proof.Tests

/-! ## Small states -/

/-- The next state, where there is one. -/
def nextOf (o : Host.Outcome State Fault Refusal) : Option State :=
  match o with
  | .next t => some t
  | .fault _ => none
  | .refused _ => none

/-- The fault a run ends in, where it does. -/
def faultOf (o : Host.Outcome State Fault Refusal) : Option Fault :=
  match o with
  | .next _ => none
  | .fault f => some f
  | .refused _ => none

/-- The state an operation leads to (the state itself where it does not). -/
def after (i : Instr) (s : State) : State := (nextOf (exec i s)).getD s

/-- The response and the events of an operation. -/
def answer (i : Instr) (s : State) : Option (Option Response × List Event) :=
  (nextOf (exec i s)).map (fun t => (t.resp, t.events))

/-- What an operation is expected to answer. -/
def gives (st : Status) (r : Result) (es : List Event) : Option (Option Response × List Event) :=
  some (some ⟨st, r⟩, es)

/-- After `INIT G=4`. -/
def ready : State := State.reset.initSession .g4

/-- A buffer with its first bytes written. -/
def buf (rc : Nat) (fl pl : BitVec 8) (data : List Byte) : Buf := ⟨Store.writeList [] 0 data, fl, pl, rc⟩

/-- A session whose buffer 0 is the given one. -/
def holding (b : Buf) : State := { ready with pool := [b, Buf.fresh, Buf.fresh, Buf.fresh] }

/-- A session with the given unread bytes. -/
def heard (bs : List Byte) : State := (ready.ringPush bs).2

/-- The same with a receiver on a channel. -/
def receiver (c : Nat) (k : Kind) (x : Ctx) (s : State) : State := s.modifyChan c (fun d => { d with kind := k, ctx := x })

/-- A session in which buffer 0 is queued once. -/
def queuedOne (b : Buf) : State := (qEnq 0 (holding b)).2

/-- The frame of channel 1 that the vectors use. -/
def f12 : List Byte := [0x05, 0x04, 0x0A, 0x11, 0x22, 0x33, 0x44, 0x55, 0x66, 0x77, 0xFF, 0x12]

/-- The frame of channel 7 that the vectors use. -/
def f8 : List Byte := [0x05, 0x01, 0x3B, 0x01, 0x02, 0x03, 0xFF, 0xBA]

/-! ## Well-formedness -/

theorem dataFits_replicate (n : Nat) : dataFits (List.replicate n 0) = decide (n ≤ 255) := by simp [dataFits]

theorem test_wf_cscalc : (Instr.cscalc (List.replicate 256 0)).wellFormed = false :=
  (dataFits_replicate 256).trans (by decide)
theorem test_wf_cscheck : (Instr.cscheck 0 (List.replicate 256 0)).wellFormed = false :=
  (dataFits_replicate 256).trans (by decide)
theorem test_wf_rxpush : (Instr.rxpush (List.replicate 256 0)).wellFormed = false :=
  (dataFits_replicate 256).trans (by decide)
theorem test_wf_rxbytes : (Instr.rxbytes (List.replicate 256 0)).wellFormed = false :=
  (dataFits_replicate 256).trans (by decide)
theorem test_wf_longest : (Instr.rxbytes (List.replicate 255 0)).wellFormed = true :=
  (dataFits_replicate 255).trans (by decide)

/-! ## Decoding: the words of part 2.10, and the header bytes of part 2.2 -/

theorem test_decode_init : decode (.command 0x0000000000000801 []) = .ok (.init 8) := by decide
theorem test_decode_freepool : decode (.command 0x0000000000000002 []) = .ok .freepool := by decide
theorem test_decode_cscalc : decode (.command 0x0000000000000310 [1, 2, 3]) = .ok (.cscalc [1, 2, 3]) := by decide
theorem test_decode_cscheck :
    decode (.command 0x0000000000BB0711 [5, 0, 0x3B, 1, 2, 3, 0xFF]) =
      .ok (.cscheck 0xBB [5, 0, 0x3B, 1, 2, 3, 0xFF]) := by decide
theorem test_decode_alloc : decode (.command 0x0000000000000020 []) = .ok .alloc := by decide
theorem test_decode_refinc : decode (.command 0x0000000002000021 []) = .ok (.refinc 2) := by decide
theorem test_decode_release : decode (.command 0x0000000002000022 []) = .ok (.release 2) := by decide
theorem test_decode_bufwr : decode (.command 0x0000000000DE0323 []) = .ok (.bufwr 3 0xDE 0) := by decide
theorem test_decode_bufrd : decode (.command 0x0000000001000324 []) = .ok (.bufrd 3 1) := by decide
theorem test_decode_setlen : decode (.command 0x0000000000000525 []) = .ok (.setlen 5 0) := by decide
theorem test_decode_bufinfo : decode (.command 0x0000000001000026 []) = .ok (.bufinfo 1) := by decide
theorem test_decode_rxpush : decode (.command 0x0000000000000C30 f12) = .ok (.rxpush f12) := by decide
theorem test_decode_rxscan : decode (.command 0x0000000000000031 []) = .ok .rxscan := by decide
theorem test_decode_rxbytes : decode (.command 0x0000000000001032 (f8 ++ f8)) = .ok (.rxbytes (f8 ++ f8)) := by decide
theorem test_decode_assemble : decode (.command 0x0000000001010240 []) = .ok (.assemble 2 1 1) := by decide
theorem test_decode_drain : decode (.command 0x0000000000000041 []) = .ok .drain := by decide
theorem test_decode_transmit : decode (.command 0x0000000000000742 []) = .ok (.transmit 7 0) := by decide
theorem test_decode_config_bytes :
    decode (.command 0x0000C70000230750 []) = .ok (.config 7 3 2 0x0000C7) := by decide
theorem test_decode_config_buffer :
    decode (.command 0xABCDEF0000171450 []) = .ok (.config 20 7 1 0xABCDEF) := by decide
theorem test_decode_setprio : decode (.command 0x0000000000050751 []) = .ok (.setprio 7 5) := by decide
theorem test_decode_getprio : decode (.command 0x0000000000000752 []) = .ok (.getprio 7) := by decide
theorem test_decode_header : decode (.wire .header [0x05, 0x07, 0x3B]) = .ok (.frameHeader 0 1 3 7 3) := by decide
theorem test_decode_sof : decode (.wire .sof [0x05]) = .ok .frameSof := by decide
theorem test_decode_sof_other : decode (.wire .sof [0x06]) = .error .notThisPart := by decide
theorem test_decode_lenSeq : decode (.wire .lenSeq [0x5B]) = .ok (.frameLenSeq 0 22 3) := by decide
theorem test_decode_lenSeq_spare : decode (.wire .lenSeq [0x84]) = .ok (.frameLenSeq 1 1 0) := by decide
theorem test_decode_chanPrio : decode (.wire .chanPrio [0xA7]) = .ok (.frameChanPrio 20 7) := by decide
theorem test_decode_payload : decode (.wire .payload [0x77]) = .ok (.framePayload 0x77) := by decide
theorem test_decode_checksum : decode (.wire .checksum [0x12]) = .ok (.frameChecksum 0x12) := by decide

/-! Refused words (S3, M2, R101). -/

theorem test_decode_reserved : decode (.command 0xFF []) = .error .reservedOp := by decide
theorem test_decode_alloc_a : decode (.command 0x0000000000000120 []) = .error .unusedField := by decide
theorem test_decode_alloc_x : decode (.command 0x0000010000000020 []) = .error .unusedField := by decide
theorem test_decode_init_b : decode (.command 0x0000000000010801 []) = .error .unusedField := by decide
theorem test_decode_config_bit3 : decode (.command 0x0000000000280750 []) = .error .unusedField := by decide
theorem test_decode_config_bit6 : decode (.command 0x0000000000600750 []) = .error .unusedField := by decide
theorem test_decode_short_data : decode (.command 0x0000000000000310 [1, 2]) = .error .dataLength := by decide

/-! The table's numbering (notes/assumptions/17.md, 18.md). -/

theorem test_table_command : decodeTableWord 64 0x0000000000DE0323 = some (.bufwr 3 0xDE 0) := by decide
theorem test_table_data : decodeTableWord 64 0x0000000000000210 = some (.cscalc [0, 0]) := by decide
theorem test_table_header : decodeTableWord 24 0x05073B = some (.frameHeader 0 1 3 7 3) := by decide
theorem test_table_sof : decodeTableWord 8 0x05 = some .frameSof := by decide

/-- A placed word is the next operation run (notes/assumptions/12.md). -/
theorem test_placed_word_runs :
    (nextOf (step (State.reset.withFetchWord 64 0x0000000000000801))).map (fun t => (t.life, t.gran)) =
      some (.active, .g8) := by decide

/-! Pseudo-operations (R114, notes/assumptions/29.md). -/

theorem test_pseudo_send :
    pseudoSend 7 2 [0xA1, 0xA2] =
      some [.alloc, .bufwr 3 0xA1 2, .bufwr 4 0xA2 2, .setlen 2 2, .transmit 7 2, .release 2] := by decide
theorem test_pseudo_fill_longest :
    (pseudoFill 0 (List.replicate 253 0)).isSome = true ∧ pseudoFill 0 (List.replicate 254 0) = none := by
  unfold pseudoFill
  rw [List.length_replicate, List.length_replicate, if_pos (Nat.le_refl _), if_neg (by omega)]
  exact ⟨rfl, rfl⟩

/-! ## Session -/

theorem test_init_bad_gran : answer (.init 5) State.reset = gives .invalidParameter .none [] := by decide
theorem test_init_twice : answer (.init 8) ready = gives .invalidParameter .none [] := by decide
theorem test_freepool_held :
    answer .freepool { ready with pool := [Buf.fresh, buf 1 0 0 [], Buf.fresh, buf 1 0 0 []] } =
      gives .ok (.freed false) [.poolOutstanding [1, 3]] := by decide
theorem test_freepool_free : (after .freepool ready).life = .closed := by decide

/-! ## Checksum (K8, K14, K17) -/

theorem test_cscalc : answer (.cscalc [0x34, 0x12]) State.reset = gives .ok (.checksum 0xBA) [] := by decide
theorem test_cscalc_frame : answer (.cscalc (f12.take 11)) State.reset = gives .ok (.checksum 0x12) [] := by decide
theorem test_cscheck_right :
    answer (.cscheck 0xBB [5, 0, 0x3B, 1, 2, 3, 0xFF]) State.reset = gives .ok (.computed 0xBB) [] := by decide
theorem test_cscheck_wrong :
    answer (.cscheck 0xBA [5, 0, 0x3B, 1, 2, 3, 0xFF]) State.reset =
      gives .checksumMismatch (.computed 0xBB) [] := by decide

/-! ## Pool (B1 to B5) -/

theorem test_alloc_lowest :
    answer .alloc { ready with pool := [buf 1 0 0 [], Buf.fresh, buf 1 0 0 [], Buf.fresh] } =
      gives .ok (.handle 1) [] := by decide
theorem test_alloc_exhausted :
    answer .alloc { ready with pool := List.replicate 4 (buf 1 0 0 []) } =
      gives .resourceExhausted .none [] := by decide
theorem test_refinc : ((after (.refinc 0) (holding (buf 1 0 0 []))).buf 0).refcount = 2 := by decide
theorem test_refinc_free : answer (.refinc 1) (holding (buf 1 0 0 [])) = gives .invalidParameter .none [] := by decide
theorem test_release_scrubs :
    (after (.release 0) (holding (buf 1 8 4 [1, 2, 3]))).readData 0 1 = 0 := by decide
theorem test_release_keeps :
    (after (.release 0) (holding (buf 2 8 4 [1, 2, 3]))).readData 0 1 = 2 := by decide
theorem test_bufwr : (after (.bufwr 95 0x5A 0) (holding (buf 1 0 0 []))).readData 0 95 = 0x5A := by decide
theorem test_bufwr_beyond : answer (.bufwr 96 0 0) (holding (buf 1 0 0 [])) = gives .invalidParameter .none [] := by
  decide
theorem test_bufrd : answer (.bufrd 2 0) (holding (buf 1 0 0 [7, 8, 9])) = gives .ok (.value 9) [] := by decide
theorem test_setlen : ((after (.setlen 92 0) (holding (buf 1 0 0 []))).buf 0).payloadLength = 92 := by decide
theorem test_setlen_93 : answer (.setlen 93 0) (holding (buf 1 0 0 [])) = gives .invalidParameter .none [] := by decide
theorem test_bufinfo : answer (.bufinfo 0) (holding (buf 3 8 4 [])) = gives .ok (.info 8 4 3) [] := by decide

/-! ## Receive (E5, X3, X4, X6, X10, M6) -/

theorem test_rxpush : answer (.rxpush f12) ready = gives .ok (.accepted 12) [] := by decide
theorem test_rxpush_full :
    answer (.rxpush [1, 2]) { ready with ring := { buf := [], current := 0, next := 254 } } =
      gives .ok (.accepted 1) [] := by decide
theorem test_rxscan :
    answer .rxscan (receiver 1 .bytes 0x11 (heard ([0xAA, 0xAA] ++ f12))) =
      gives .ok .none [.skippedBytes 2, .deliverBytes 1 0x11 [0x11, 0x22, 0x33, 0x44, 0x55, 0x66, 0x77, 0xFF]] := by
  decide
theorem test_rxbytes_extra_sof :
    answer (.rxbytes ([0xAA, 0xAA, 0x05] ++ f12)) (receiver 1 .bytes 0x11 ready) =
      gives .ok (.accepted 15) [.skippedBytes 2, .checksumMismatch 0xFF 0x0C,
        .deliverBytes 1 0x11 [0x11, 0x22, 0x33, 0x44, 0x55, 0x66, 0x77, 0xFF]] := by decide
theorem test_rxbytes_buffer :
    answer (.rxbytes [0x05, 0x00, 0xA0, 0x09, 0xFF, 0xFF, 0xFF, 0x55]) (receiver 20 .buffer 0x20 ready) =
      gives .ok (.accepted 8) [.deliverBuffer 20 0x20 0, .deliverBuffer 20 0x20 0] := by decide
/-! The parts of `F8` arrive one by one: the last byte completes it. -/

theorem test_wire_header : (after (.frameHeader 0 0 1 7 3) ready).unread = [0x05, 0x01, 0x3B] := by decide
theorem test_wire_sof : (after .frameSof ready).unread = [0x05] := by decide
theorem test_wire_lenSeq : (after (.frameLenSeq 0 0 1) (heard [0x05])).unread = [0x05, 0x01] := by decide
theorem test_wire_chanPrio : (after (.frameChanPrio 7 3) (heard [0x05, 0x01])).unread = [0x05, 0x01, 0x3B] := by decide
theorem test_wire_payload : (after (.framePayload 1) (heard [0x05, 0x01, 0x3B])).avail = 4 := by decide
theorem test_wire_checksum :
    answer (.frameChecksum 0xBA) (receiver 7 .bytes 0 (heard (f8.take 7))) =
      gives .ok (.accepted 1) [.sequenceMismatch 0 1, .deliverBytes 7 0 [0x01, 0x02, 0x03, 0xFF]] := by decide

/-! ## Transmit (T1, T6, F1, M5, Q4) -/

/-- A held buffer with the payload `01 02 03`. -/
def three : Buf := buf 1 0 3 [0, 0, 0, 1, 2, 3]

theorem test_assemble :
    answer (.assemble 7 3 0) { holding three with draws := [.ok, .ok] } =
      gives .ok .none [.txBytes 8 [0x05, 0x00, 0x3B, 0x01, 0x02, 0x03, 0xFF, 0xBB] .ok] := by decide
theorem test_assemble_g16 :
    answer (.assemble 0 0 0) { holding (buf 1 0 5 [0, 0, 0, 5, 5, 5, 5, 5]) with
        gran := .g16, txSeq := 2, draws := [.ok, .ok] } =
      gives .ok .none [.txBytes 16 [0x05, 0x0A, 0x00, 0x05, 0x05, 0x05, 0x05, 0x05, 0xFF, 0xFF, 0xFF, 0xFF, 0xFF, 0xFF,
        0xFF, 0xDF] .ok] := by decide
theorem test_drain_fails :
    answer .drain { queuedOne (buf 2 8 1 [0x05, 0x00, 0x11, 0x09, 0xFF, 0xFF, 0xFF]) with draws := [.ok, .fail] } =
      gives .ok (.sent 1) [.txBytes 8 [0x05, 0x00, 0x11, 0x09, 0xFF, 0xFF, 0xFF, 0xE4] .fail, .transmitFailed] := by
  decide
theorem test_transmit_mirrors :
    answer (.transmit 3 0) (receiver 19 .bytes 0x19
        { holding (buf 1 0 2 [0, 0, 0, 0xA1, 0xA2]) with draws := [.fail] }) =
      gives .ok .none [.lockFailed, .deliverBytes 19 0x19 [0xA1, 0xA2]] := by decide
theorem test_transmit_table_priority :
    answer (.transmit 5 0) { after (.setprio 5 6) (holding (buf 1 0 2 [0, 0, 0, 0x10, 0x20])) with
        draws := [.ok, .ok] } =
      gives .ok .none [.txBytes 8 [0x05, 0x00, 0x2E, 0x10, 0x20, 0xFF, 0xFF, 0x9F] .ok] := by decide

/-! ## Channel table (M1, M2) -/

theorem test_config : (after (.config 7 3 2 0xC7) State.reset).chanAt 7 = ⟨3, .bytes, 0xC7⟩ := by decide
theorem test_config_kind3 : answer (.config 7 3 3 0) State.reset = gives .invalidParameter .none [] := by decide
theorem test_setprio_8 : answer (.setprio 7 8) State.reset = gives .invalidParameter .none [] := by decide
theorem test_getprio : answer (.getprio 7) (after (.setprio 7 5) State.reset) = gives .ok (.priority 5) [] := by decide
theorem test_getprio_21 : answer (.getprio 21) State.reset = gives .invalidParameter .none [] := by decide

/-! ## Faults of the run (R272) -/

/-- A drain of a buffer that was never assembled (U5). -/
theorem test_drain_faults :
    faultOf (exec .drain { queuedOne (buf 2 0 1 []) with draws := [.ok] }) = some .drainFrameLength := by decide

/-! ## Witnesses: the hypotheses of the obligations can be met -/

theorem witness_DecodeInvertsEncode : (Instr.rxbytes (List.replicate 255 0)).wellFormed = true := test_wf_longest

theorem witness_EncodeInvertsDecode : decode (.command 0xABCDEF0000171450 []) = .ok (.config 20 7 1 0xABCDEF) := by decide

/-- A session with one request issued. -/
def issued (r : Request) : State := { ready with pending := [r] }

theorem witness_ReservedOp :
    (issued (.command 0xFF [])).pending = .command 0xFF [] :: [] ∧
    ((0xFF : CommandWord).extractLsb' 0 8).toNat ∉ [0x01, 0x02, 0x10, 0x11, 0x20, 0x21, 0x22, 0x23, 0x24, 0x25, 0x26,
      0x30, 0x31, 0x32, 0x40, 0x41, 0x42, 0x50, 0x51, 0x52] := by decide

theorem witness_UnusedField :
    (issued (.command 0x8000000000000002 [])).pending = .command 0x8000000000000002 [] :: [] ∧
    ((0x02, 0xFFFFFFFFFFFFFF00) : Byte × CommandWord) ∈ mustBeZero ∧
    (0x8000000000000002 : CommandWord).extractLsb' 0 8 = 0x02 ∧
    (0x8000000000000002 : CommandWord) &&& 0xFFFFFFFFFFFFFF00 ≠ 0 := by decide

theorem witness_StepRuns :
    (issued (.command 0x20 [])).pending = .command 0x20 [] :: [] ∧ decode (.command 0x20 []) = .ok .alloc := by decide

theorem witness_StepHolds : State.reset.pending = [] := rfl

/-- Both clauses: an empty operand, and one of a single byte. -/
theorem witness_Cscalc : ([] : List Byte) = [] ∧ [0x00] ≠ ([] : List Byte) := by decide

/-- The second clause with a computed value that equals the expected one, and one that does not. -/
theorem witness_Cscheck :
    [0x01] ≠ ([] : List Byte) ∧ checksum [0x01] = 0xFF ∧ checksum [0x01] ≠ 0x00 := by decide

theorem witness_ChecksumIsTwosComplementSum :
    ([0x34, 0x12] : List Byte).Perm [0x12, 0x34] ∧ (0x33 : Byte) ≠ 0x32 := by decide

/-- The least and the greatest data operand. -/
theorem witness_EveryRow :
    ([] : List Byte).length = (0 : Byte).toNat ∧ (List.replicate 255 (0 : Byte)).length = (255 : Byte).toNat :=
  ⟨rfl, List.length_replicate⟩

theorem witness_Reset : Params.reference.wf ∧ 20 < 21 := by decide

/-- Both clauses, the granularities at both ends. -/
theorem witness_Init :
    ready.life = .active ∧ ((64 : Byte) ≠ 4 ∧ (64 : Byte) ≠ 8 ∧ (64 : Byte) ≠ 16 ∧ (64 : Byte) ≠ 32) ∧
    State.reset.life ≠ .active ∧ ((4 : Byte) = 4 ∨ (4 : Byte) = 8 ∨ (4 : Byte) = 16 ∨ (4 : Byte) = 32) ∧
    ((32 : Byte) = 4 ∨ (32 : Byte) = 8 ∨ (32 : Byte) = 16 ∨ (32 : Byte) = 32) := by decide

theorem ready_pool : PoolInv ready := by
  unfold PoolInv
  decide

theorem holding_pool {rc : Nat} (h : rc ≤ 255) (data : List Byte) : PoolInv (holding (buf rc 8 4 data)) := by
  obtain ⟨h1, h2, -, h4⟩ := ready_pool
  refine ⟨h1, h2, fun _ => rfl, fun b hb => ?_⟩
  rcases List.mem_cons.1 hb with rfl | hb
  · exact ⟨h, (by decide : (4 : BitVec 8).toNat ≤ maxPayload),
      .inr (by decide : 8 ≤ (8 : BitVec 8).toNat ∧ (8 : BitVec 8).toNat ≤ maxFrame ∧ (8 : BitVec 8).toNat % 4 = 0)⟩
  · exact h4 b (List.mem_cons_of_mem _ hb)

/-- The three clauses: outside a session, an untouched pool, a pool with one held buffer. -/
theorem witness_Freepool :
    PoolInv State.reset ∧ State.reset.life ≠ .active ∧
    PoolInv ready ∧ ready.life = .active ∧ (∀ b ∈ ready.pool, b.refcount = 0) ∧
    PoolInv (holding (buf 1 8 4 [])) ∧ (holding (buf 1 8 4 [])).life = .active ∧
    ((0 : Handle).toNat < (holding (buf 1 8 4 [])).params.poolBlocks ∧
      ((holding (buf 1 8 4 [])).buf 0).refcount ≠ 0) :=
  ⟨by unfold PoolInv; decide, by decide, ready_pool, rfl, by decide, holding_pool (by decide) [], rfl, by decide⟩

theorem witness_SessionOperations : needsSession .alloc = true ∧ State.reset.life ≠ .active := by decide

/-- The two changes of `life` happen. -/
theorem witness_LifeChanges :
    PoolInv State.reset ∧ (nextOf (exec (.init 4) State.reset)).map State.life = some .active ∧
    State.reset.life ≠ .active ∧ ((4 : Byte) = 4 ∨ (4 : Byte) = 8 ∨ (4 : Byte) = 16 ∨ (4 : Byte) = 32) ∧
    PoolInv ready ∧ ready.life = .active ∧ (nextOf (exec .freepool ready)).map State.life = some .closed ∧
    PoolInv (holding (buf 1 8 4 [])) ∧ (holding (buf 1 8 4 [])).life = .active ∧
    (nextOf (exec .freepool (holding (buf 1 8 4 [])))).map State.life = some .active :=
  ⟨by unfold PoolInv; decide, by decide, by decide, by decide, ready_pool, rfl, by decide,
    holding_pool (by decide) [], rfl, by decide⟩

/-- The handle just out of range, and the last one in range, which is free. -/
theorem witness_HandleCheck :
    namedHandle (.refinc 4) = some 4 ∧ ready.params.poolBlocks ≤ (4 : Handle).toNat ∧
    namedHandle (.transmit 7 3) = some 3 ∧ (ready.buf 3).refcount = 0 := by decide

/-- A pool with only its last buffer free, and one with none. -/
theorem witness_Alloc :
    PoolInv { ready with pool := [buf 1 0 0 [], buf 1 0 0 [], buf 1 0 0 [], Buf.fresh] } ∧
    (State.buf { ready with pool := [buf 1 0 0 [], buf 1 0 0 [], buf 1 0 0 [], Buf.fresh] } 3).refcount = 0 ∧
    (∀ k : Fin 3, (State.buf { ready with pool := [buf 1 0 0 [], buf 1 0 0 [], buf 1 0 0 [], Buf.fresh] }
      (BitVec.ofNat 16 k)).refcount ≠ 0) ∧
    PoolInv { ready with pool := List.replicate 4 (buf 1 0 0 []) } ∧
    (∀ k : Fin 4, (State.buf { ready with pool := List.replicate 4 (buf 1 0 0 []) }
      (BitVec.ofNat 16 k)).refcount ≠ 0) :=
  ⟨by unfold PoolInv; decide, by decide, by decide, by unfold PoolInv; decide, by decide⟩

/-- The last count that may grow, and `REF_MAX`. -/
theorem witness_Refinc :
    (holding (buf 254 0 0 [])).life = .active ∧ (0 : Handle).toNat < (holding (buf 254 0 0 [])).params.poolBlocks ∧
    ((holding (buf 254 0 0 [])).buf 0).refcount ≠ 0 ∧
    ((holding (buf 254 0 0 [])).buf 0).refcount < (holding (buf 254 0 0 [])).params.refMax ∧
    ((holding (buf 255 0 0 [])).buf 0).refcount = (holding (buf 255 0 0 [])).params.refMax := by decide

/-- The last reference, and one of two. -/
theorem witness_Release :
    (holding (buf 1 8 4 [])).life = .active ∧ ((holding (buf 1 8 4 [])).buf 0).refcount = 1 ∧
    ((holding (buf 2 8 4 [])).buf 0).refcount = 2 ∧ (0 : Handle).toNat < (holding (buf 2 8 4 [])).params.poolBlocks := by
  decide

/-- A held buffer, for `BUFWR`, `BUFRD`, `SETLEN` and `BUFINFO`, with the operands on both sides of each bound. -/
theorem witness_heldBuffer :
    (holding three).life = .active ∧ (0 : Handle).toNat < (holding three).params.poolBlocks ∧
    ((holding three).buf 0).refcount ≠ 0 ∧
    (95 : Byte).toNat ≤ 95 ∧ 95 < (96 : Byte).toNat ∧ (92 : Byte).toNat ≤ 92 ∧ 92 < (93 : Byte).toNat := by decide

theorem ready_queue : QueueInv ready :=
  ⟨by decide, by decide, by decide, by decide, fun i hi => absurd hi (by rw [show ready.queueCount = 0 from by decide]; omega)⟩

/-- A queue filled to its capacity. -/
def queueFull : State := (qEnq 3 (qEnq 2 (qEnq 1 (qEnq 0 ready).2).2).2).2

/-- An empty queue, one with room and an entry, and a full one. -/
theorem witness_QueueIsFifo :
    QueueInv ready ∧ ready.queued = [] ∧ ready.queued.length < ready.params.queueDepth ∧
    QueueInv (qEnq 0 ready).2 ∧ (qEnq 0 ready).2.queued = [0] ∧
    QueueInv queueFull ∧ queueFull.queued.length = queueFull.params.queueDepth ∧ queueFull.queued = [0, 1, 2, 3] :=
  ⟨ready_queue, by decide, by decide, qEnq_inv ready_queue (by decide), by decide,
    qEnq_inv (qEnq_inv (qEnq_inv (qEnq_inv ready_queue (by decide)) (by decide)) (by decide)) (by decide),
    by decide, by decide⟩

/-- More bytes than the ring takes, and a ring that is already full. -/
theorem witness_Rxpush :
    ready.life = .active ∧ 255 = min (List.replicate 256 (0 : Byte)).length (255 - ready.avail) ∧
    0 = min [(0 : Byte)].length (255 - State.avail { ready with ring := { buf := [], current := 0, next := 255 } }) :=
  ⟨rfl, by rw [List.length_replicate]; decide, by decide⟩

/-- Seven bytes; and eight, of which more are awaited. -/
theorem witness_ScanWaits :
    (heard (f12.take 7)).avail < 8 ∧
    State.avail { heard (f12.take 8) with expected := 12 } <
      (State.expected { heard (f12.take 8) with expected := 12 }).toNat := by decide

/-- Eight bytes that begin with none. -/
theorem witness_ScanSkips :
    8 ≤ (heard (0xAA :: f12.take 7)).avail ∧
    (heard (0xAA :: f12.take 7)).expected.toNat ≤ (heard (0xAA :: f12.take 7)).avail ∧
    (heard (0xAA :: f12.take 7)).ringRead 0 ≠ 0x05 := by decide

/-- The least illegal length, 100. -/
theorem witness_ScanTooLong :
    8 ≤ (heard [5, 0x5C, 0, 0, 0, 0, 0, 0]).avail ∧
    (heard [5, 0x5C, 0, 0, 0, 0, 0, 0]).expected.toNat ≤ (heard [5, 0x5C, 0, 0, 0, 0, 0, 0]).avail ∧
    (heard [5, 0x5C, 0, 0, 0, 0, 0, 0]).ringRead 0 = 0x05 ∧
    100 = ((serviceLenOf ((heard [5, 0x5C, 0, 0, 0, 0, 0, 0]).ringRead 1)).toNat + 2) * 4 ∧ 96 < 100 := by decide

/-- The last byte of a frame is missing. -/
theorem witness_ScanSuspends :
    8 ≤ (heard (f12.take 11)).avail ∧ (heard (f12.take 11)).expected.toNat ≤ (heard (f12.take 11)).avail ∧
    (heard (f12.take 11)).ringRead 0 = 0x05 ∧
    12 = ((serviceLenOf ((heard (f12.take 11)).ringRead 1)).toNat + 2) * 4 ∧ 12 ≤ 96 ∧
    (heard (f12.take 11)).avail < 12 := by decide

/-- The checksum of the frame is one off. -/
theorem witness_ScanCorrupt :
    8 ≤ (heard (f8.take 7 ++ [0xBB])).avail ∧
    (heard (f8.take 7 ++ [0xBB])).expected.toNat ≤ (heard (f8.take 7 ++ [0xBB])).avail ∧
    (heard (f8.take 7 ++ [0xBB])).ringRead 0 = 0x05 ∧
    8 = ((serviceLenOf ((heard (f8.take 7 ++ [0xBB])).ringRead 1)).toNat + 2) * 4 ∧ 8 ≤ 96 ∧
    8 ≤ (heard (f8.take 7 ++ [0xBB])).avail ∧
    checksum ((heard (f8.take 7 ++ [0xBB])).ringRange 0 7) ≠ (heard (f8.take 7 ++ [0xBB])).ringRead 7 := by decide

theorem heard_pool (c : Nat) (k : Kind) : PoolInv (receiver c k 0 (heard f8)) := by
  obtain ⟨h1, h2, -, h4⟩ := ready_pool
  exact ⟨h1, (by simp [receiver, State.modifyChan]; exact h2), fun _ => rfl, h4⟩

/-- Buffer 0 is the lowest-numbered free one of an untouched pool. -/
theorem lowestFree_zero {s : State} (h : 0 < s.params.poolBlocks) (hz : (s.buf 0).refcount = 0) : LowestFree s 0 :=
  ⟨h, hz, fun k hk => absurd hk (by simp)⟩

theorem witness_ScanDeliversBytes :
    PoolInv (receiver 7 .bytes 0 (heard f8)) ∧ (receiver 7 .bytes 0 (heard f8)).life = .active ∧
    FrameAtHead (receiver 7 .bytes 0 (heard f8)) 8 ∧
    (7 : BitVec 5) = channelOf ((receiver 7 .bytes 0 (heard f8)).ringRead 2) ∧
    (1 : BitVec 2) = seqOf ((receiver 7 .bytes 0 (heard f8)).ringRead 1) ∧
    ((receiver 7 .bytes 0 (heard f8)).chanAt 7).kind = .bytes ∧ LowestFree (receiver 7 .bytes 0 (heard f8)) 0 :=
  ⟨heard_pool _ _, rfl, by unfold FrameAtHead; decide, by decide, by decide, by decide,
    lowestFree_zero (by decide) (by decide)⟩

theorem witness_ScanDeliversBuffer :
    PoolInv (receiver 7 .buffer 0 (heard f8)) ∧ (receiver 7 .buffer 0 (heard f8)).life = .active ∧
    FrameAtHead (receiver 7 .buffer 0 (heard f8)) 8 ∧
    (7 : BitVec 5) = channelOf ((receiver 7 .buffer 0 (heard f8)).ringRead 2) ∧
    ((receiver 7 .buffer 0 (heard f8)).chanAt 7).kind = .buffer ∧ LowestFree (receiver 7 .buffer 0 (heard f8)) 0 :=
  ⟨heard_pool _ _, rfl, by unfold FrameAtHead; decide, by decide, by decide, lowestFree_zero (by decide) (by decide)⟩

/-- No free buffer; a channel beyond the table and a channel without a receiver, each with a free buffer. -/
theorem witness_ScanDrops :
    PoolInv { heard f8 with pool := List.replicate 4 (buf 1 0 0 []) } ∧
    FrameAtHead { heard f8 with pool := List.replicate 4 (buf 1 0 0 []) } 8 ∧
    (∀ b ∈ List.replicate 4 (buf 1 0 0 []), b.refcount ≠ 0) ∧
    PoolInv (heard [0x05, 0x00, 0xA8, 0x01, 0x02, 0x03, 0x04, 0x49]) ∧
    FrameAtHead (heard [0x05, 0x00, 0xA8, 0x01, 0x02, 0x03, 0x04, 0x49]) 8 ∧
    21 ≤ (channelOf ((heard [0x05, 0x00, 0xA8, 0x01, 0x02, 0x03, 0x04, 0x49]).ringRead 2)).toNat ∧
    LowestFree (heard [0x05, 0x00, 0xA8, 0x01, 0x02, 0x03, 0x04, 0x49]) 0 ∧
    PoolInv (heard f8) ∧ FrameAtHead (heard f8) 8 ∧ ((heard f8).chanAt 7).kind = .none ∧
    LowestFree (heard f8) 0 ∧ (heard f8).life = .active :=
  ⟨by unfold PoolInv; decide, by unfold FrameAtHead; decide, by decide, ready_pool, by unfold FrameAtHead; decide,
    by decide, lowestFree_zero (by decide) (by decide), ready_pool, by unfold FrameAtHead; decide, by decide,
    lowestFree_zero (by decide) (by decide), rfl⟩

theorem witness_Arrival :
    arrivingBytes .rxscan = some [] ∧ arrivingBytes (.rxbytes f12) = some f12 ∧
    arrivingBytes (.frameHeader 0 1 0 1 2) = some [0x05, 0x04, 0x0A] ∧ ready.params.wf ∧ ready.life = .active := by
  decide

theorem witness_RxscanTwice : (nextOf (exec .rxscan (heard f12))).isSome = true := by decide

theorem witness_RxbytesIsRxpushThenRxscan :
    ready.life = .active ∧ (nextOf (exec (.rxpush f12) ready)).isSome = true ∧
    (nextOf (exec .rxscan (after (.rxpush f12) ready))).isSome = true := by decide

theorem f8_valid : ValidFrame f8 := ⟨0x01, [0x3B, 0x01, 0x02, 0x03, 0xFF], 0xBA, by decide, by decide, by decide, by decide⟩

theorem ready_receiver_pool (c : Nat) (k : Kind) : PoolInv (receiver c k 0 ready) := by
  obtain ⟨h1, h2, -, h4⟩ := ready_pool
  exact ⟨h1, (by simp [receiver, State.modifyChan]; exact h2), fun _ => rfl, h4⟩

theorem witness_Garbage :
    PoolInv (receiver 7 .bytes 0 ready) ∧ (receiver 7 .bytes 0 ready).life = .active ∧
    ReceiveIdle (receiver 7 .bytes 0 ready) ∧ (receiver 7 .bytes 0 ready).lastValid = false ∧
    [(0xAA : Byte)] ≠ [] ∧ (∀ b ∈ [(0xAA : Byte)], b ≠ 0x05) ∧ ValidFrame f8 ∧ [(0xAA : Byte)].length + f8.length ≤ 255 ∧
    (7 : BitVec 5) = channelOf (f8.getD 2 0) ∧ ((receiver 7 .bytes 0 ready).chanAt 7).kind = .bytes ∧
    (∃ b ∈ (receiver 7 .bytes 0 ready).pool, b.refcount = 0) :=
  ⟨ready_receiver_pool _ _, rfl, by unfold ReceiveIdle; decide, rfl, by decide, by decide, f8_valid, by decide,
    by decide, by decide, by decide⟩

/-- A session that holds a payload of the greatest length, on the greatest channel and priority. -/
def mayAssemble (as : List Answer) : State := { holding (buf 1 0 92 []) with draws := as }

theorem mayAssemble_ok (as : List Answer) : MayAssemble (mayAssemble as) 20 7 0 :=
  ⟨rfl, (by decide : (0 : Handle).toNat < 4), (by decide : (1 : Nat) ≠ 0), (by decide : (1 : Nat) < 255),
    by decide, by decide, (by decide : 1 ≤ (92 : BitVec 8).toNat), (by decide : (92 : BitVec 8).toNat ≤ 92)⟩

/-- The refused operands just beyond each bound, and a transmission that passes. -/
theorem witness_AssembleSends :
    ((holding (buf 255 0 92 [])).buf 0).refcount = (holding (buf 255 0 92 [])).params.refMax ∧
    21 ≤ (21 : Byte).toNat ∧ 7 < (8 : Byte).toNat ∧ ((holding (buf 1 0 0 [])).buf 0).payloadLength = 0 ∧
    92 < ((holding (buf 1 0 93 [])).buf 0).payloadLength.toNat ∧
    (mayAssemble [.ok, .ok]).params.wf ∧ MayAssemble (mayAssemble [.ok, .ok]) 20 7 0 ∧
    (mayAssemble [.ok, .ok]).txq.rd = (mayAssemble [.ok, .ok]).txq.wr ∧
    (mayAssemble [.ok, .ok]).nextAnswer = .ok ∧ (mayAssemble [.ok, .ok]).afterDraw.nextAnswer = .ok :=
  ⟨by decide, by decide, by decide, by decide, by decide, by decide, mayAssemble_ok _, rfl, rfl, rfl⟩

/-- An assembly without the mutex, and the drain after it: the second clause. -/
theorem witness_AssembleThenDrain :
    MayAssemble (mayAssemble [.ok, .fail]) 20 7 0 ∧
    (nextOf (exec (.assemble 20 7 0) (mayAssemble [.fail, .ok, .fail]))).isSome = true ∧
    (nextOf (exec .drain (after (.assemble 20 7 0) (mayAssemble [.fail, .ok, .fail])))).isSome = true :=
  ⟨mayAssemble_ok _, by decide, by decide⟩

/-- An empty queue, and a full one. -/
theorem witness_AssembleQueues :
    QueueInv (mayAssemble [.fail]) ∧ MayAssemble (mayAssemble [.fail]) 20 7 0 ∧ (mayAssemble [.fail]).nextAnswer = .fail ∧
    (mayAssemble [.fail]).queued.length < (mayAssemble [.fail]).params.queueDepth ∧
    QueueInv { mayAssemble [.fail] with txq := queueFull.txq } ∧
    MayAssemble { mayAssemble [.fail] with txq := queueFull.txq } 20 7 0 ∧
    State.nextAnswer { mayAssemble [.fail] with txq := queueFull.txq } = .fail ∧
    (State.queued { mayAssemble [.fail] with txq := queueFull.txq }).length =
      (mayAssemble [.fail]).params.queueDepth :=
  ⟨ready_queue.congr rfl rfl, mayAssemble_ok _, rfl, by decide,
    witness_QueueIsFifo.2.2.2.2.2.1.congr rfl rfl, mayAssemble_ok [.fail], rfl, by decide⟩

theorem witness_DrainSkipped :
    State.life { ready with draws := [.fail] } = .active ∧ State.nextAnswer { ready with draws := [.fail] } = .fail := by
  decide

/-- Buffer 0 held once by the caller and once by the queue. -/
theorem queuedOne_owns (as : List Answer) :
    QueueOwnsItsEntries { queuedOne (buf 2 8 4 [0x05, 0x00, 0x11]) with draws := as } := by
  have hq : State.queued { queuedOne (buf 2 8 4 [0x05, 0x00, 0x11]) with draws := as } = [0] := by
    show (queuedOne (buf 2 8 4 [0x05, 0x00, 0x11])).queued = [0]
    decide
  refine ⟨holding_pool (rc := 2) (by decide) _, (qEnq_inv (ready_queue.congr rfl rfl) (by decide)).congr rfl rfl,
    fun h => ?_⟩
  rw [hq]
  by_cases hz : h = 0
  · subst hz
    exact ⟨(by decide : 1 ≤ 2), fun _ => ⟨(by decide : 8 ≤ (8 : BitVec 8).toNat), (by decide : (8 : BitVec 8).toNat ≤ 96)⟩⟩
  · have h0 : [(0 : Handle)].count h = 0 := List.count_eq_zero.2 (by simpa using hz)
    exact ⟨by rw [h0]; exact Nat.zero_le _, fun hm => absurd (List.mem_singleton.1 hm) hz⟩

/-- One queued frame; the transport accepts it, or does not. -/
theorem witness_DrainSendsOne :
    QueueOwnsItsEntries { queuedOne (buf 2 8 4 [0x05, 0x00, 0x11]) with draws := [.ok, .ok] } ∧
    QueueOwnsItsEntries { queuedOne (buf 2 8 4 [0x05, 0x00, 0x11]) with draws := [.ok, .fail] } ∧
    (queuedOne (buf 2 8 4 [0x05, 0x00, 0x11])).life = .active ∧
    (queuedOne (buf 2 8 4 [0x05, 0x00, 0x11])).queued = [0] ∧
    ((queuedOne (buf 2 8 4 [0x05, 0x00, 0x11])).buf 0).frameLength.toNat = 8 ∧
    State.nextAnswer { ready with draws := [.ok, .fail] } = .ok ∧
    (State.afterDraw { ready with draws := [.ok, .ok] }).nextAnswer = .ok ∧
    (State.afterDraw { ready with draws := [.ok, .fail] }).nextAnswer = .fail :=
  ⟨queuedOne_owns _, queuedOne_owns _, rfl, by decide, by decide, rfl, rfl, rfl⟩

/-- A build with a deeper queue, in which buffer 0 is queued 51 times and held once more. -/
def queuedMany : State :=
  { holding (buf 52 8 4 []) with
    params := { Params.reference with queueDepth := 64 }
    txq := { slot := (List.range 51).map (fun i => (i, 0)), rd := 0, wr := 51 }
    draws := [.ok] }

theorem queuedMany_owns : QueueOwnsItsEntries queuedMany := by
  have hq : queuedMany.queued = List.replicate 51 0 := by decide
  have hs : ∀ i < 51, ∃ h, Store.read? queuedMany.txq.slot ((queuedMany.txq.rd + i) % queuedMany.params.queueDepth) =
      some h ∧ h.toNat < queuedMany.params.poolBlocks := fun i hi =>
    ⟨0, (by decide : ∀ i < 51, Store.read? queuedMany.txq.slot
      ((queuedMany.txq.rd + i) % queuedMany.params.queueDepth) = some 0) i hi, by decide⟩
  obtain ⟨-, h2, -, h4⟩ := holding_pool (rc := 52) (by decide) []
  refine ⟨⟨by decide, h2, fun _ => rfl, h4⟩, ⟨by decide, by decide, by decide, by decide, hs⟩, fun h => ?_⟩
  rw [hq, List.count_replicate]
  by_cases hz : h = 0
  · subst hz
    exact ⟨by decide, fun _ => by decide⟩
  · exact ⟨by rw [if_neg (by simpa using Ne.symm hz)]; exact Nat.zero_le _,
      fun hm => absurd (List.eq_of_mem_replicate hm) hz⟩

/-- A queue of one, whose send is accepted or is not; and more entries than one drain takes. -/
theorem witness_DrainEmpties :
    QueueOwnsItsEntries { queuedOne (buf 2 8 4 [0x05, 0x00, 0x11]) with draws := [.ok, .fail] } ∧
    1 = min 50 (queuedOne (buf 2 8 4 [0x05, 0x00, 0x11])).queued.length ∧
    [Answer.fail] = State.nextAnswers 1 (State.afterDraw { ready with draws := [.ok, .fail] }) ∧
    QueueOwnsItsEntries queuedMany ∧ queuedMany.life = .active ∧ queuedMany.nextAnswer = .ok ∧
    50 = min 50 queuedMany.queued.length ∧ queuedMany.queued.length = 51 :=
  ⟨queuedOne_owns _, by decide, by decide, queuedMany_owns, rfl, rfl, by decide, by decide⟩

/-- The greatest count that may be transmitted. -/
def mayTransmit (as : List Answer) : State := { holding (buf 252 0 92 []) with draws := as }

theorem mayTransmit_ok (as : List Answer) : MayTransmit (mayTransmit as) 20 0 :=
  ⟨rfl, (by decide : (0 : Handle).toNat < 4), (by decide : (252 : Nat) ≠ 0), (by decide : (252 : Nat) + 3 ≤ 255),
    by decide, (by decide : 1 ≤ (92 : BitVec 8).toNat), (by decide : (92 : BitVec 8).toNat ≤ 92)⟩

/-- The refused operands just beyond each bound, and a transmission that passes: the frame is sent, with each kind of
debug-output receiver; the mutex is not acquired, with room in the queue and with a full one. -/
theorem witness_Transmit :
    (holding (buf 253 0 92 [])).params.refMax < ((holding (buf 253 0 92 [])).buf 0).refcount + 3 ∧
    21 ≤ (21 : Byte).toNat ∧ ((holding (buf 1 0 0 [])).buf 0).payloadLength = 0 ∧
    92 < ((holding (buf 1 0 93 [])).buf 0).payloadLength.toNat ∧
    MayTransmit (mayTransmit [.ok, .ok]) 20 0 ∧ (mayTransmit [.ok, .ok]).params.wf ∧
    (mayTransmit [.ok, .ok]).txq.rd = (mayTransmit [.ok, .ok]).txq.wr ∧ (mayTransmit [.ok, .ok]).nextAnswer = .ok ∧
    (mayTransmit [.ok, .ok]).afterDraw.nextAnswer = .ok ∧ ((mayTransmit [.ok, .ok]).chanAt 19).kind = .none ∧
    ((receiver 19 .bytes 0 (mayTransmit [.ok, .ok])).chanAt 19).kind = .bytes ∧
    ((receiver 19 .buffer 0 (mayTransmit [.ok, .ok])).chanAt 19).kind = .buffer ∧
    QueueInv (mayTransmit [.fail]) ∧ (mayTransmit [.fail]).nextAnswer = .fail ∧
    (mayTransmit [.fail]).queued.length < (mayTransmit [.fail]).params.queueDepth ∧
    QueueInv { mayTransmit [.fail] with txq := queueFull.txq } ∧
    MayTransmit { mayTransmit [.fail] with txq := queueFull.txq } 20 0 ∧
    (State.queued { mayTransmit [.fail] with txq := queueFull.txq }).length = (mayTransmit [.fail]).params.queueDepth :=
  ⟨by decide, by decide, by decide, by decide, mayTransmit_ok _, by decide, rfl, rfl, rfl, by decide, by decide,
    by decide, ready_queue.congr rfl rfl, rfl, by decide, witness_QueueIsFifo.2.2.2.2.2.1.congr rfl rfl,
    mayTransmit_ok [.fail], by decide⟩

/-- The parts of a transmission, one after the other: the composition clause. -/
def transmitParts : State := receiver 19 .buffer 0 (mayTransmit [.fail])

theorem witness_TransmitParts :
    MayTransmit transmitParts 20 0 ∧ (transmitParts.chanAt 20).prio.setWidth 8 = (0 : Byte) ∧
    (nextOf (exec (.refinc 0) transmitParts)).isSome = true ∧
    (nextOf (exec (.assemble 20 0 0) (after (.refinc 0) transmitParts))).isSome = true ∧
    ((mirror 19 0 (after (.assemble 20 0 0) (after (.refinc 0) transmitParts))).toOption.map
      (fun c => ((c.buf 0).refcount, (nextOf (exec (.release 0) c)).isSome))) = some (255, true) :=
  ⟨mayTransmit_ok [.fail], by decide, by decide, by decide, by decide⟩

theorem witness_AssembledFrameIsReceived :
    (mayAssemble [.ok, .ok]).params.wf ∧ MayAssemble (mayAssemble [.ok, .ok]) 20 7 0 ∧
    (mayAssemble [.ok, .ok]).txq.rd = (mayAssemble [.ok, .ok]).txq.wr ∧
    (mayAssemble [.ok, .ok]).nextAnswer = .ok ∧ (mayAssemble [.ok, .ok]).afterDraw.nextAnswer = .ok ∧
    PoolInv (receiver 20 .bytes 0 ready) ∧ (receiver 20 .bytes 0 ready).life = .active ∧
    ReceiveIdle (receiver 20 .bytes 0 ready) ∧ ((receiver 20 .bytes 0 ready).chanAt 20).kind = .bytes ∧
    (∃ b ∈ (receiver 20 .bytes 0 ready).pool, b.refcount = 0) :=
  ⟨by decide, mayAssemble_ok _, rfl, rfl, rfl, ready_receiver_pool _ _, rfl, by unfold ReceiveIdle; decide, by decide, by decide⟩

/-- The last channel and the first beyond the table; every kind; the greatest priority and the first beyond. -/
theorem witness_channelOperands :
    State.reset.chan.length = 21 ∧ (20 : Byte).toNat < 21 ∧ 21 ≤ (21 : Byte).toNat ∧ (7 : Byte).toNat ≤ 7 ∧
    7 < (8 : Byte).toNat ∧ ((2 : BitVec 2) = 1 ∨ (2 : BitVec 2) = 2) := by decide

/-- An operation that answers a next state, for the rules over all of them. -/
theorem witness_anyOperation :
    (nextOf (exec .alloc ready)).isSome = true ∧ writesChannels .alloc = false ∧ isTransmit .alloc = false ∧
    (∀ g, Instr.alloc ≠ .init g) ∧ ready.params.wf ∧ isTransmit .drain = true ∧
    (nextOf (exec .drain { ready with draws := [.ok] })).isSome = true :=
  ⟨by decide, rfl, rfl, fun _ => by simp, by decide, rfl, by decide⟩

theorem witness_OwnedReferences :
    QueueOwnsItsEntries { queuedOne (buf 2 8 4 [0x05, 0x00, 0x11]) with draws := [] } ∧
    ReleasesWhatItHolds (.release 0) { queuedOne (buf 2 8 4 [0x05, 0x00, 0x11]) with draws := [] } := by
  refine ⟨queuedOne_owns _, fun h e _ => ?_⟩
  cases e
  decide

theorem witness_ResetMeets : Params.reference.wf := by decide

/-- A state with every kind of storage in use, one request issued, and the step it takes. -/
def busy (r : Request) : State := { queuedOne (buf 2 8 4 [0x05, 0x00, 0x11]) with ring := (heard f8).ring, pending := [r] }

theorem witness_StepKeepsStorage :
    StorageInv (busy (.command 0x31 [])) ∧ (nextOf (step (busy (.command 0x31 [])))).isSome = true :=
  ⟨by unfold StorageInv; decide, by decide⟩

theorem witness_StepKeepsPool :
    PoolInv (busy (.command 0x31 [])) ∧ (nextOf (step (busy (.command 0x31 [])))).isSome = true :=
  ⟨holding_pool (rc := 2) (by decide) _, by decide⟩

theorem witness_StepKeepsQueue :
    QueueInv (busy (.command 0x31 [])) ∧ (nextOf (step (busy (.command 0x31 [])))).isSome = true :=
  ⟨(qEnq_inv (h := 0) (s := holding (buf 2 8 4 [0x05, 0x00, 0x11])) (ready_queue.congr rfl rfl) (by decide)).congr rfl rfl,
    by decide⟩

theorem witness_StepKeepsRing :
    RingInv (busy (.command 0x31 [])) ∧ (nextOf (step (busy (.command 0x31 [])))).isSome = true :=
  ⟨by unfold RingInv; decide, by decide⟩

end Sys2Proof.Tests
end

/-! ## The step: what is fetched, and what then runs -/

namespace Sys2Proof.Machine

/-- The oldest issued request is fetched, and only the request list changes (notes/assumptions/12.md). -/
theorem State.fetch_of_pending_cons {s : State} {r : Request} {rest : List Request} (hp : s.pending = r :: rest) :
    s.fetch = some (r, { s with pending := rest }) := by
  simp only [State.fetch, hp]

/-- A fetched request that names an operation runs it, at the state the fetch leaves (R10, R74). -/
theorem step_of_fetch_decode_ok {s t : State} {r : Request} {i : Instr}
    (hf : s.fetch = some (r, t)) (hd : decode r = .ok i) : step s = exec i t := by
  simp only [step, hf, hd]

/-- Settles O5: the fetch takes the head of the request list, and the step runs what it decodes to. -/
theorem stepRunsDecodedOperation : Obligations.StepRunsDecodedOperation := by
  intro s r rest i hp hd
  exact step_of_fetch_decode_ok (State.fetch_of_pending_cons hp) hd

end Sys2Proof.Machine

/-! ## What an operation does, by the part of the state it touches

Each operation either is refused, opens or closes the session, changes the pool, changes one entry of the channel
table, receives, or transmits. The rules over all operations (R35, R40, R223, R290) and the invariants are read off
these seven effects. -/

namespace Sys2Proof.Machine

/-- The effect of an operation that answers `t` in `s`. -/
inductive ExecEffect (i : Instr) (s t : State) : Prop where
  /-- A failing check: nothing changed (R264, R270). -/
  | refused (et : t = s.refused)
  /-- `INIT` builds a session (R250). -/
  | opened (g : Byte) (gr : Gran) (ei : i = .init g) (et : t = (s.startOp.initSession gr).reply .ok .none)
  /-- `FREEPOOL` ends the session (R145). -/
  | closed (ei : i = .freepool) (et : t = { s.startOp with life := .closed }.reply .ok (.freed true))
  /-- Only buffers of the pool change, or nothing but the response and the events. -/
  | pooled (u : State) (st : Status) (r : Result) (hi : isTransmit i = false) (f : DispatchFrame s.startOp u)
      (et : t = u.reply st r)
  /-- `CONFIG` and `SETPRIO` change one entry of the channel table (R220, R221). -/
  | channel (c : Nat) (f : Chan → Chan) (hi : isTransmit i = false) (hw : writesChannels i = true)
      (et : t = (s.startOp.modifyChan c f).reply .ok .none)
  /-- Bytes are appended and then scanned; `RXPUSH` takes no scan step and `RXSCAN` appends no byte
  (R171, R175, R186). -/
  | received (data : List Byte) (n : Nat) (u : State) (r : Result) (hi : isTransmit i = false)
      (hu : scanLoop n (s.startOp.ringPush data).2 = .ok u) (et : t = u.reply .ok r)
  /-- A transmit operation passes its checks (R200, R205, R235). -/
  | transmitted (u : State) (st : Status) (r : Result) (hi : isTransmit i = true) (f : TransmitFrame s.startOp u)
      (et : t = u.reply st r)

/-- An arrival is refused, or appends its bytes and scans (R186). -/
theorem rxArrive_effect {i : Instr} {data : List Byte} {s t : State} (hi : isTransmit i = false)
    (e : rxArrive data s = .next t) : ExecEffect i s t := by
  rcases rxArrive_next e with h | ⟨-, u, hu, et⟩
  · exact .refused h
  · exact .received data 256 u _ hi hu et

/-- What the parts of a `TRANSMIT` touch (R235): its assembly stands between two that touch only the pool and the
events. -/
theorem transmitParts_frame {c pr : Byte} {d : Nat} {h : Handle} {s u v w : State} {r : Status × State}
    (h1 : refInc h s = .ok u) (h2 : assembleBody c pr h u = .ok r) (h3 : mirror d h r.2 = .ok v)
    (h4 : refDec h v = .ok w) (hl : h.toNat < s.pool.length) :
    DispatchFrame s u ∧ TransmitFrame u r.2 ∧ DispatchFrame r.2 w := by
  have f1 := DispatchFrame.refInc h1
  have f2 := assembleBody_frame (st := r.1) (t := r.2) h2
  have f3 := (deliver_ok (by rw [f2.2, f1.2]; exact hl) h3).1
  exact ⟨f1, f2, f3.trans (.refDec h4)⟩

/-- Every operation has one of the seven effects. -/
theorem exec_effect {i : Instr} {s t : State} (e : exec i s = .next t) : ExecEffect i s t := by
  cases i with
  | init g =>
    rcases execInit_next e with h | ⟨-, gr, -, et⟩
    · exact .refused h
    · exact .opened g gr rfl et
  | freepool =>
    rcases execFreepool_next e with h | ⟨-, -, et⟩ | ⟨-, -, et⟩
    · exact .refused h
    · exact .closed rfl et
    · exact .pooled _ _ _ rfl (.emit _ _) et
  | cscalc d =>
    rcases execCscalc_next e with h | et
    · exact .refused h
    · exact .pooled _ _ _ rfl (.refl _) et
  | cscheck x d =>
    rcases execCscheck_next e with h | et
    · exact .refused h
    · exact .pooled _ _ _ rfl (.refl _) et
  | alloc =>
    rcases execAlloc_next e with h | ⟨-, k, -, et⟩ | ⟨-, -, et⟩
    · exact .refused h
    · exact .pooled _ _ _ rfl (.modifyBuf _ k _) et
    · exact .pooled _ _ _ rfl (.refl _) et
  | refinc k =>
    rcases execRefinc_next e with h | ⟨-, -, -, u, hu, et⟩
    · exact .refused h
    · exact .pooled _ _ _ rfl (.refInc hu) et
  | release k =>
    rcases execRelease_next e with h | ⟨-, -, u, hu, et⟩
    · exact .refused h
    · exact .pooled _ _ _ rfl (.refDec hu) et
  | bufwr off val k =>
    rcases execBufwr_next e with h | ⟨-, -, -, et⟩
    · exact .refused h
    · exact .pooled _ _ _ rfl (.modifyBuf _ k _) et
  | bufrd off k =>
    rcases execBufrd_next e with h | ⟨-, -, -, et⟩
    · exact .refused h
    · exact .pooled _ _ _ rfl (.refl _) et
  | setlen len k =>
    rcases execSetlen_next e with h | ⟨-, -, -, et⟩
    · exact .refused h
    · exact .pooled _ _ _ rfl (.modifyBuf _ k _) et
  | bufinfo k =>
    rcases execBufinfo_next e with h | ⟨-, -, et⟩
    · exact .refused h
    · exact .pooled _ _ _ rfl (.refl _) et
  | rxpush d =>
    rcases execRxpush_next e with h | ⟨-, et⟩
    · exact .refused h
    · exact .received d 0 _ _ rfl rfl et
  | rxscan =>
    rcases execRxscan_next e with h | ⟨-, u, hu, et⟩
    · exact .refused h
    · exact .received [] 256 u _ rfl hu et
  | rxbytes d => exact rxArrive_effect rfl e
  | assemble c pr k =>
    rcases execAssemble_next e with h | ⟨-, r, hr, et⟩
    · exact .refused h
    · exact .transmitted _ _ _ rfl (assembleBody_frame (st := r.1) (t := r.2) hr) et
  | drain =>
    rcases execDrain_next e with h | ⟨-, r, hr, et⟩
    · exact .refused h
    · exact .transmitted _ _ _ rfl (drainBody_frame (r := r.1) (t := r.2) hr) et
  | transmit c k =>
    rcases execTransmit_next e with h | ⟨ho, u, r, v, w, h1, h2, h3, h4, et⟩
    · exact .refused h
    · obtain ⟨-, ⟨-, hne⟩, -⟩ := ho
      obtain ⟨f1, f2, f3⟩ := transmitParts_frame (s := s.startOp) h1 h2 h3 h4 (State.lt_of_refcount hne)
      exact .transmitted _ _ _ rfl ((f1.transmitFrame.trans f2).trans f3.transmitFrame) et
  | config c pr k x =>
    rcases execConfig_next e with h | ⟨-, kind, -, et⟩
    · exact .refused h
    · exact .channel _ _ rfl rfl et
  | setprio c v =>
    rcases execSetprio_next e with h | ⟨-, -, et⟩
    · exact .refused h
    · exact .channel _ _ rfl rfl et
  | getprio c =>
    rcases execGetprio_next e with h | ⟨-, et⟩
    · exact .refused h
    · exact .pooled _ _ _ rfl (.refl _) et
  | frameHeader => exact rxArrive_effect rfl e
  | frameSof => exact rxArrive_effect rfl e
  | frameLenSeq => exact rxArrive_effect rfl e
  | frameChanPrio => exact rxArrive_effect rfl e
  | framePayload => exact rxArrive_effect rfl e
  | frameChecksum => exact rxArrive_effect rfl e

/-! ## What each effect leaves unchanged -/

section Frames

variable {s u : State}

theorem DispatchFrame.sides (f : DispatchFrame s u) :
    SameReceiveSide s u ∧ SameTransmitSide s u ∧ SameConfiguration s u :=
  ⟨f.transmitFrame.sides.1, f.scanFrame.sides.1, f.scanFrame.sides.2.1⟩

/-- A push leaves the pool, the transmit side and the configuration alone (R171). -/
theorem ringPush_sides (s : State) (data : List Byte) :
    (s.ringPush data).2.pool = s.pool ∧ SameTransmitSide s (s.ringPush data).2 ∧
      SameConfiguration s (s.ringPush data).2 := by
  obtain ⟨hf, -⟩ := ringPush_frame s data
  generalize (s.ringPush data).2 = t at hf ⊢
  rw [hf]
  exact ⟨rfl, ⟨rfl, rfl, rfl, rfl⟩, ⟨rfl, rfl, rfl, rfl, rfl, rfl⟩⟩

theorem SameTransmitSide.trans {t : State} (h : SameTransmitSide s t) (k : SameTransmitSide t u) :
    SameTransmitSide s u := by
  obtain ⟨h1, h2, h3, h4⟩ := h
  obtain ⟨k1, k2, k3, k4⟩ := k
  exact ⟨k1.trans h1, k2.trans h2, k3.trans h3, k4.trans h4⟩

theorem SameConfiguration.trans {t : State} (h : SameConfiguration s t) (k : SameConfiguration t u) :
    SameConfiguration s u := by
  obtain ⟨h1, h2, h3, h4, h5, h6⟩ := h
  obtain ⟨k1, k2, k3, k4, k5, k6⟩ := k
  exact ⟨k1.trans h1, k2.trans h2, k3.trans h3, k4.trans h4, k5.trans h5, k6.trans h6⟩

/-- An arrival leaves the pool's size, the transmit side and the configuration alone (R290). -/
theorem received_sides {data : List Byte} {n : Nat} (hu : scanLoop n (s.ringPush data).2 = .ok u) :
    u.pool.length = s.pool.length ∧ SameTransmitSide s u ∧ SameConfiguration s u := by
  obtain ⟨p1, p2, p3⟩ := ringPush_sides s data
  have f := scanLoop_frame hu
  obtain ⟨f2, f3, -⟩ := f.sides
  exact ⟨by rw [f.2.1, p1], p2.trans f2, p3.trans f3⟩

end Frames

/-- Settles O50: of the seven effects only that of `CONFIG` and `SETPRIO` touches the table. -/
theorem channelTableChangedOnlyByItsOperations : Obligations.ChannelTableChangedOnlyByItsOperations := by
  intro i s t e hw
  cases exec_effect e with
  | refused et => rw [et]; rfl
  | opened g gr ei et => rw [et]; rfl
  | closed ei et => rw [et]; rfl
  | pooled u st r hi f et => rw [et]; exact f.chan
  | channel c f hi hw' et => rw [hw] at hw'; cases hw'
  | received data n u r hi hu et =>
    obtain ⟨-, -, -, -, -, hc, -⟩ := received_sides hu
    rw [et]; exact hc
  | transmitted u st r hi f et => rw [et]; exact f.chan

/-- Settles O52: the effects of the transmit operations are `refused` and `transmitted`, and the other effects leave
the transmit side alone, but for that of `INIT`. -/
theorem receiveAndTransmitSidesAreIndependent : Obligations.ReceiveAndTransmitSidesAreIndependent := by
  intro i s t e
  cases exec_effect e with
  | refused et => subst et; exact ⟨fun _ => ⟨rfl, rfl, rfl, rfl, rfl, rfl⟩, fun _ _ => ⟨rfl, rfl, rfl, rfl⟩⟩
  | opened g gr ei et => subst ei; exact ⟨nofun, fun _ hn => absurd rfl (hn g)⟩
  | closed ei et => subst ei et; exact ⟨nofun, fun _ _ => ⟨rfl, rfl, rfl, rfl⟩⟩
  | pooled u st r hi f et =>
    subst et
    exact ⟨fun h => absurd h (by simp [hi]), fun _ _ => f.sides.2.1⟩
  | channel c f hi hw et =>
    subst et
    exact ⟨fun h => absurd h (by simp [hi]), fun _ _ => ⟨rfl, rfl, rfl, rfl⟩⟩
  | received data n u r hi hu et =>
    subst et
    exact ⟨fun h => absurd h (by simp [hi]), fun _ _ => (received_sides hu).2.1⟩
  | transmitted u st r hi f et =>
    subst et
    exact ⟨fun _ => f.sides.1, fun h => absurd h (by simp [hi])⟩

/-! ## What a step keeps -/

/-- A property that the removal of a request from the list, a refusal and every operation keep is kept by every
step (R3, R10, R100). -/
theorem step_keeps {P : State → Prop} (fetched : ∀ s rest, P s → P { s with pending := rest })
    (refused : ∀ s, P s → P s.refused) (operation : ∀ i s t, P s → exec i s = .next t → P t)
    {s t : State} (h : P s) (e : step s = .next t) : P t := by
  cases hp : s.pending with
  | nil =>
    simp only [step, State.fetch, hp] at e
    cases e
    exact h
  | cons r rest =>
    have hf := State.fetch_of_pending_cons hp
    cases hd : decode r with
    | ok i =>
      rw [step_of_fetch_decode_ok hf hd] at e
      exact operation i _ t (fetched s rest h) e
    | error x =>
      simp only [step, hf, hd] at e
      rw [refuse_next e]
      exact refused _ (fetched s rest h)

/-! ## The pool -/

/-- Every operation keeps the pool legal: `PoolAll.exec` for the buffers' fields, the effect for the sizes. -/
theorem PoolInv.exec (i : Instr) (s t : State) (h : PoolInv s) (e : exec i s = .next t) : PoolInv t := by
  have ha : PoolAll (BufLegal s.params) t := PoolAll.exec h.closed i rfl h.2.2.2 e
  cases exec_effect e with
  | refused et => subst et; exact h
  | opened g gr ei et =>
    subst et
    exact poolInv_iff.2 ⟨h.1, h.2.1, fun _ => List.length_replicate, ha⟩
  | closed ei et =>
    subst et
    exact poolInv_iff.2 ⟨h.1, h.2.1, nofun, ha⟩
  | pooled u st r hi f et => subst et; exact h.keep f.sides.2.2 f.2 ha
  | channel c f hi hw et =>
    subst et
    exact poolInv_iff.2 ⟨h.1, (List.length_modify ..).trans h.2.1, h.2.2.1, ha⟩
  | received data n u r hi hu et =>
    subst et
    obtain ⟨hl, -, hc⟩ := received_sides hu
    exact h.keep hc hl ha
  | transmitted u st r hi f et => subst et; exact h.keep f.sides.2.1 f.2 ha

/-- Settles O58, by `PoolInv.exec` at the operation that the step runs. -/
theorem stepKeepsPoolLegal : Obligations.StepKeepsPoolLegal := by
  intro s t h e
  exact step_keeps (P := PoolInv) (fun _ _ h => h) (fun _ h => h) PoolInv.exec h e

/-! ## The transmit queue -/

/-- The empty queue is legal in every legal build (R250). -/
theorem queueInv_of_empty {s : State} (hp : s.params.wf) (hr : s.txq.rd = 0) (hw : s.txq.wr = 0) : QueueInv s := by
  have hpos : 0 < 2 ^ s.params.idxW := Nat.two_pow_pos _
  have hc : s.queueCount = 0 := queueCount_of (by omega) hpos (by rw [hr, hw, Nat.zero_mod])
  refine ⟨hp, by omega, by omega, by omega, fun i hi => ?_⟩
  rw [hc] at hi
  cases hi

theorem QueueInv.dispatch {s t : State} (h : QueueInv s) (f : DispatchFrame s t) : QueueInv t :=
  h.congr f.txq f.params

/-- A turn of the drain takes no entry but the one already dequeued (R206). -/
theorem QueueInv.drainOne {k : Handle} {s t : State} (h : QueueInv s) (e : drainOne k s = .ok t) : QueueInv t := by
  obtain ⟨f, hq, -⟩ := drainOne_spec e (drainOne_live e)
  exact h.congr hq f.params

theorem QueueInv.drainBody {s t : State} {r : DrainResult} (h : QueueInv s) (e : drainBody s = .ok (r, t)) :
    QueueInv t := by
  have ha : QueueInv s.afterDraw := h.congr (by simp) (by simp)
  rcases drainBody_ok e with ⟨-, -, rfl⟩ | ⟨-, -, hd⟩
  · exact ha
  · exact drainLoop_induct (P := QueueInv) (fun hs _ k => (qDeq_inv hs).drainOne k) ha hd

theorem QueueInv.enqueueRef {k : Handle} {s t : State} {st : Status} (h : QueueInv s)
    (hk : k.toNat < s.params.poolBlocks) (e : enqueueRef k s = .ok (st, t)) : QueueInv t := by
  obtain ⟨u, hu, ⟨-, -, rfl⟩ | ⟨-, -, hd⟩⟩ := enqueueRef_ok e
  · have f := DispatchFrame.refInc hu
    exact qEnq_inv (h.dispatch f) (by rw [f.params]; exact hk)
  · exact h.dispatch ((DispatchFrame.refInc hu).trans ((DispatchFrame.emit u _).trans (.refDec hd)))

theorem QueueInv.assembleBody {c pr : Byte} {k : Handle} {s t : State} {st : Status} (h : QueueInv s)
    (hk : k.toNat < s.params.poolBlocks) (e : assembleBody c pr k s = .ok (st, t)) : QueueInv t := by
  obtain ⟨u, r, h1, h2⟩ := assembleBody_ok e
  have f := writeFrameHead_frame s k c pr (s.buf k).payloadLength.toNat (frameLen s.gran (s.buf k).payloadLength.toNat)
  have hu : QueueInv u := (h.dispatch f).enqueueRef (by rw [f.params]; exact hk) h1
  exact hu.drainBody h2

/-- The transmit operations are the ones that enqueue and dequeue; they enqueue only a live handle, which names a
buffer of the pool (R141, R203). -/
theorem QueueInv.transmit {i : Instr} {s t : State} (hi : isTransmit i = true) (h : QueueInv s)
    (e : Machine.exec i s = .next t) : QueueInv t := by
  cases i with
  | assemble c pr k =>
    rcases execAssemble_next e with rfl | ⟨ho, r, hr, rfl⟩
    · exact h
    · obtain ⟨-, ⟨hk, -⟩, -⟩ := ho
      exact QueueInv.assembleBody (s := s.startOp) (st := r.1) (t := r.2) h hk hr
  | drain =>
    rcases execDrain_next e with rfl | ⟨-, r, hr, rfl⟩
    · exact h
    · exact QueueInv.drainBody (s := s.startOp) (r := r.1) (t := r.2) h hr
  | transmit c k =>
    rcases execTransmit_next e with rfl | ⟨ho, u, r, v, w, h1, h2, h3, h4, rfl⟩
    · exact h
    · obtain ⟨-, ⟨hk, hne⟩, -⟩ := ho
      obtain ⟨f1, -, f3⟩ := transmitParts_frame (s := s.startOp) h1 h2 h3 h4 (State.lt_of_refcount hne)
      have hu : QueueInv u := QueueInv.dispatch (s := s.startOp) h f1
      have hr : QueueInv r.2 := hu.assembleBody (st := r.1) (by rw [f1.params]; exact hk) h2
      have hw : QueueInv w := hr.dispatch f3
      exact hw
  | _ => cases hi

/-- Every operation keeps the queue legal. -/
theorem QueueInv.exec (i : Instr) (s t : State) (h : QueueInv s) (e : exec i s = .next t) : QueueInv t := by
  cases exec_effect e with
  | refused et => subst et; exact h
  | opened g gr ei et => subst et; exact queueInv_of_empty h.1 rfl rfl
  | closed ei et => subst et; exact h
  | pooled u st r hi f et =>
    subst et
    have hu : QueueInv u := QueueInv.dispatch (s := s.startOp) h f
    exact hu
  | channel c f hi hw et => subst et; exact h
  | received data n u r hi hu et =>
    subst et
    obtain ⟨-, ⟨hq, -⟩, hp, -⟩ := received_sides hu
    exact QueueInv.congr (s := s.startOp) hq hp h
  | transmitted u st r hi f et => exact h.transmit hi e

/-- Settles O59, by `QueueInv.exec` at the operation that the step runs. -/
theorem stepKeepsQueueLegal : Obligations.StepKeepsQueueLegal := by
  intro s t h e
  exact step_keeps (P := QueueInv) (fun _ _ h => h) (fun _ h => h) QueueInv.exec h e

/-! ## The receive ring -/

/-- The values that `expected` may have (R34). -/
def ExpectedLegal (n : BitVec 8) : Prop := n = 0 ∨ 12 ≤ n.toNat ∧ n.toNat ≤ maxFrame ∧ n.toNat % 4 = 0

/-- Every unread ring byte was written since the session began (R31). -/
def UnreadWritten (s : State) : Prop :=
  ∀ i < s.avail, (Store.read? s.ring.buf (s.ring.current + BitVec.ofNat 8 i).toNat).isSome = true

theorem ringInv_iff {s : State} : RingInv s ↔ ExpectedLegal s.expected ∧ UnreadWritten s := Iff.rfl

theorem UnreadWritten.of_empty {s : State} (h : s.avail = 0) : UnreadWritten s := by
  intro i hi
  rw [h] at hi
  cases hi

theorem UnreadWritten.congr {s t : State} (hr : t.ring = s.ring) (h : UnreadWritten s) : UnreadWritten t := by
  unfold UnreadWritten at *
  rw [avail_congr hr, hr]
  exact h

theorem RingInv.congr {s t : State} (hr : t.ring = s.ring) (he : t.expected = s.expected) (h : RingInv s) :
    RingInv t :=
  ringInv_iff.2 ⟨by rw [he]; exact h.1, UnreadWritten.congr hr h.2⟩

/-- The bytes still unread after a release were unread before it (R67). -/
theorem UnreadWritten.ringRelease {s : State} {n : Nat} (h : UnreadWritten s) (hn : n ≤ s.avail) :
    UnreadWritten (s.ringRelease n) := by
  intro i hi
  rw [avail_ringRelease hn] at hi
  have hw := h (n + i) (by omega)
  rw [BitVec.ofNat_add, ← BitVec.add_assoc] at hw
  exact hw

/-- A one-byte drop keeps `expected` or clears it (R177; D12). -/
theorem expectedAfterDrop_legal {s : State} (h : ExpectedLegal s.expected) : ExpectedLegal (expectedAfterDrop s) := by
  unfold expectedAfterDrop
  split_ifs
  · exact .inl rfl
  · exact h

/-- A frame length that more than the 8 bytes of a scan wait for is a legal value of `expected` (R34, R180). -/
theorem expectedLegal_of_needMore {s : State} {fl : Nat} (h : SofAtHead s fl) (hm : fl ≤ maxFrame)
    (ha : s.avail < fl) : ExpectedLegal (byteOf fl) := by
  have h8 := h.enough
  obtain ⟨-, -, h4⟩ := rxFrameLen_bounds (s.ringRead 1)
  rw [← h.length] at h4
  have e : (byteOf fl).toNat = fl := by
    simp only [byteOf, BitVec.toNat_ofNat, maxFrame] at *
    omega
  refine .inr ⟨?_, by rw [e]; exact hm, by rw [e]; exact h4⟩
  simp only [minScan] at h8
  omega

/-- A case that drops one byte keeps the ring legal (R177, R179, R181). -/
theorem RingInv.drop {s t : State} (h : RingInv s) (h8 : minScan ≤ s.avail)
    (hr : t.ring = { s.ring with current := s.ring.current + 1 }) (he : t.expected = expectedAfterDrop s) :
    RingInv t := by
  have hw : UnreadWritten (s.ringRelease 1) :=
    UnreadWritten.ringRelease h.2 (Nat.le_trans (by decide) h8)
  exact ringInv_iff.2 ⟨by rw [he]; exact expectedAfterDrop_legal h.1, hw.congr hr⟩

/-- Every scan step keeps the ring legal, by the seven cases (R176). -/
theorem RingInv.scanStep {s t : State} {r : ScanResult} (h : RingInv s) (e : scanStep s = .ok (r, t)) :
    RingInv t := by
  rcases scanStep_cases e with ⟨-, -, rfl⟩ | ⟨h8, -, -, -, rfl⟩ | ⟨fl, hs, -, -, rfl⟩ |
    ⟨fl, hs, hm, ha, -, rfl⟩ | ⟨fl, hs, -, -, -, -, rfl⟩ | ⟨fl, u, hs, -, hl, -, -, hd, rfl⟩
  · exact h
  · exact h.drop h8 (by rw [caseSkip_eq]) (by rw [caseSkip_eq])
  · exact h.drop hs.enough (by rw [caseTooLong_eq]; rfl) (by rw [caseTooLong_eq]; rfl)
  · exact ringInv_iff.2 ⟨expectedLegal_of_needMore hs hm ha, h.2⟩
  · exact h.drop hs.enough (by rw [caseBadChecksum_eq]; rfl) (by rw [caseBadChecksum_eq]; rfl)
  · have hr : u.ring = s.ring := (deliverIntoPool_frame hd).ring
    have hu : UnreadWritten u := UnreadWritten.congr hr h.2
    exact ringInv_iff.2 ⟨.inl rfl, hu.ringRelease (by rw [avail_congr hr]; exact hl)⟩

/-- A push writes the bytes that it makes unread (R68, R171). -/
theorem RingInv.ringPush {s : State} (h : RingInv s) (data : List Byte) : RingInv (s.ringPush data).2 := by
  refine ringInv_iff.2 ⟨?_, ringPush_written data h.2⟩
  rw [(ringPush_frame s data).1]
  exact h.1

/-- Every operation keeps the ring legal. -/
theorem RingInv.exec (i : Instr) (s t : State) (h : RingInv s) (e : exec i s = .next t) : RingInv t := by
  cases exec_effect e with
  | refused et => subst et; exact h
  | opened g gr ei et => subst et; exact ringInv_iff.2 ⟨.inl rfl, .of_empty (by simp [State.avail])⟩
  | closed ei et => subst et; exact h
  | pooled u st r hi f et =>
    subst et
    obtain ⟨⟨hr, he, -⟩, -⟩ := f.sides
    exact RingInv.congr (s := s.startOp) hr he h
  | channel c f hi hw et => subst et; exact h
  | received data n u r hi hu et =>
    subst et
    have hpush : RingInv (s.startOp.ringPush data).2 := RingInv.ringPush (s := s.startOp) h data
    have hscan : RingInv u := scanLoop_induct (P := RingInv) RingInv.scanStep hpush hu
    exact hscan
  | transmitted u st r hi f et =>
    subst et
    obtain ⟨⟨hr, he, -⟩, -⟩ := f.sides
    exact RingInv.congr (s := s.startOp) hr he h

/-- Settles O60, by `RingInv.exec` at the operation that the step runs. -/
theorem stepKeepsRingLegal : Obligations.StepKeepsRingLegal := by
  intro s t h e
  exact step_keeps (P := RingInv) (fun _ _ h => h) (fun _ h => h) RingInv.exec h e

/-! ## Hardware reset -/

/-- An entry of the channel table after hardware reset (R41). -/
theorem resetWith_chanAt {p : Params} {c : Nat} (hc : c < p.prioReset.length) :
    (State.resetWith p).chanAt c = { prio := p.prioReset[c], kind := .none, ctx := 0 } := by
  simp [State.chanAt, State.resetWith, resetChannels, List.getD_eq_getElem?_getD, hc]

/-- Settles O12: a legal build gives `PRIO_RESET` for each of the 21 channels, and reset makes an entry of each. -/
theorem resetLeavesUninitAndChannelTable : Obligations.ResetLeavesUninitAndChannelTable := by
  refine ⟨rfl, by decide, fun p c hp hc => ?_⟩
  obtain ⟨-, -, -, -, -, -, -, -, hlen⟩ := hp
  have hlt : c < p.prioReset.length := by rw [hlen]; exact hc
  have hchan : (State.resetWith p).chan.length = 21 := (List.length_map _).trans hlen
  rw [resetWith_chanAt hlt]
  exact ⟨rfl, rfl, rfl, hchan, rfl, rfl, List.getElem?_eq_getElem hlt⟩

end Sys2Proof.Machine

/-! ## Buffer data, ring bytes and queue slots: the canonical form

The pool's data is `PoolAll.exec`. Of the ring only a push writes a byte, and it writes at an 8-bit index; of the
queue only an enqueue writes a slot, and it writes at an index modulo `TXQ_CAP`. Each assembly makes one enqueue at
most, and the drain writes no slot (D40). -/

namespace Sys2Proof.Machine

/-- The ring's bytes are in canonical form, at indices 0 to 255 (R31). -/
def RingCanonical (s : State) : Prop := Memory.wf s.ring.buf ∧ Store.below ringSize s.ring.buf

/-- The queue's slots are in canonical form, below `TXQ_CAP` (R28). -/
def SlotsCanonical (s : State) : Prop :=
  Store.wf s.txq.slot ∧ Store.below s.params.queueDepth s.txq.slot

theorem storageInv_iff {s : State} :
    StorageInv s ↔ s.params.wf ∧ PoolAll BufCanonical s ∧ RingCanonical s ∧ SlotsCanonical s := by
  simp only [StorageInv, PoolAll, BufCanonical, RingCanonical, SlotsCanonical, and_assoc]

/-- No operation writes the build's parameters (R9). -/
theorem ExecEffect.params {i : Instr} {s t : State} (x : ExecEffect i s t) : t.params = s.params := by
  cases x with
  | refused et => subst et; rfl
  | opened g gr ei et => subst et; rfl
  | closed ei et => subst et; rfl
  | pooled u st r hi f et => subst et; exact f.params
  | channel c f hi hw et => subst et; rfl
  | received data n u r hi hu et => subst et; exact (received_sides hu).2.2.1
  | transmitted u st r hi f et => subst et; exact f.params

/-! ### The ring -/

theorem RingCanonical.congr {s t : State} (hb : t.ring.buf = s.ring.buf) (h : RingCanonical s) : RingCanonical t := by
  unfold RingCanonical
  rw [hb]
  exact h

/-- Every operation keeps the ring's storage canonical; a scan moves `current` and writes no byte (R67). -/
theorem RingCanonical.exec {i : Instr} {s t : State} (h : RingCanonical s) (e : exec i s = .next t) :
    RingCanonical t := by
  cases exec_effect e with
  | refused et => subst et; exact h
  | opened g gr ei et => subst et; exact ⟨Store.wf_nil, Store.below_nil _⟩
  | closed ei et => subst et; exact h
  | pooled u st r hi f et => subst et; exact RingCanonical.congr (s := s) (congrArg Ring.buf f.ring) h
  | channel c f hi hw et => subst et; exact h
  | received data n u r hi hu et =>
    subst et
    have hpush : RingCanonical (s.startOp.ringPush data).2 := ringPush_wf (s := s.startOp) data h.1 h.2
    obtain ⟨-, -, hb, -⟩ := scanLoop_frame hu
    exact hpush.congr hb
  | transmitted u st r hi f et =>
    subst et
    obtain ⟨⟨hr, -⟩, -⟩ := f.sides
    exact RingCanonical.congr (s := s) (congrArg Ring.buf hr) h

/-! ### The queue's slots -/

theorem SlotsCanonical.congr {s t : State} (hq : t.txq.slot = s.txq.slot) (hp : t.params = s.params)
    (h : SlotsCanonical s) : SlotsCanonical t := by
  unfold SlotsCanonical
  rw [hq, hp]
  exact h

theorem SlotsCanonical.dispatch {s t : State} (h : SlotsCanonical s) (f : DispatchFrame s t) : SlotsCanonical t :=
  h.congr (congrArg TxQueue.slot f.txq) f.params

/-- A dequeue leaves the slots as they are (R162; D40). -/
@[simp] theorem qDeq_slot (s : State) : (qDeq s).2.txq.slot = s.txq.slot := by
  by_cases e : s.txq.rd = s.txq.wr
  · rw [qDeq_empty e]; rfl
  · rw [qDeq_some e]

/-- A drain writes no slot (R206). -/
theorem drainBody_slot {s t : State} {r : DrainResult} (e : drainBody s = .ok (r, t)) :
    t.txq.slot = s.txq.slot := by
  have ha : s.afterDraw.txq.slot = s.txq.slot := by simp
  rcases drainBody_ok e with ⟨-, -, rfl⟩ | ⟨-, -, hd⟩
  · exact ha
  · refine drainLoop_induct (P := fun u => u.txq.slot = s.txq.slot) (fun {v u} hv _ hu => ?_) ha hd
    obtain ⟨-, hq, -⟩ := drainOne_spec hu (drainOne_live hu)
    rw [hq, qDeq_slot, hv]

/-- An enqueue writes one slot below `TXQ_CAP`, or none (R161). -/
theorem SlotsCanonical.qEnq {s : State} (hp : s.params.wf) (h : SlotsCanonical s) (k : Handle) :
    SlotsCanonical (qEnq k s).2 := by
  by_cases e : s.queueCount = s.params.queueDepth
  · rw [qEnq_full e]; exact h
  · rw [qEnq_room e]
    exact ⟨Store.wf_write h.1 _ _, Store.below_write h.2 (Nat.mod_lt _ (depth_pos hp)) _⟩

theorem SlotsCanonical.drainBody {s t : State} {r : DrainResult} (h : SlotsCanonical s)
    (e : drainBody s = .ok (r, t)) : SlotsCanonical t :=
  h.congr (drainBody_slot e) (drainBody_frame e).params

theorem SlotsCanonical.enqueueRef {k : Handle} {s t : State} {st : Status} (hp : s.params.wf) (h : SlotsCanonical s)
    (e : enqueueRef k s = .ok (st, t)) : SlotsCanonical t := by
  obtain ⟨u, hu, ⟨-, -, rfl⟩ | ⟨-, -, hd⟩⟩ := enqueueRef_ok e
  · have f := DispatchFrame.refInc hu
    exact (h.dispatch f).qEnq (by rw [f.params]; exact hp) k
  · exact h.dispatch ((DispatchFrame.refInc hu).trans ((DispatchFrame.emit u _).trans (.refDec hd)))

theorem SlotsCanonical.assembleBody {c pr : Byte} {k : Handle} {s t : State} {st : Status} (hp : s.params.wf)
    (h : SlotsCanonical s) (e : assembleBody c pr k s = .ok (st, t)) : SlotsCanonical t := by
  obtain ⟨u, r, h1, h2⟩ := assembleBody_ok e
  have f := writeFrameHead_frame s k c pr (s.buf k).payloadLength.toNat (frameLen s.gran (s.buf k).payloadLength.toNat)
  have hu : SlotsCanonical u := (h.dispatch f).enqueueRef (by rw [f.params]; exact hp) h1
  exact hu.drainBody h2

/-- The transmit operations are the ones that touch the queue within a session. -/
theorem SlotsCanonical.transmit {i : Instr} {s t : State} (hi : isTransmit i = true) (hp : s.params.wf)
    (h : SlotsCanonical s) (e : Machine.exec i s = .next t) : SlotsCanonical t := by
  cases i with
  | assemble c pr k =>
    rcases execAssemble_next e with rfl | ⟨-, r, hr, rfl⟩
    · exact h
    · exact SlotsCanonical.assembleBody (s := s.startOp) (st := r.1) (t := r.2) hp h hr
  | drain =>
    rcases execDrain_next e with rfl | ⟨-, r, hr, rfl⟩
    · exact h
    · exact SlotsCanonical.drainBody (s := s.startOp) (r := r.1) (t := r.2) h hr
  | transmit c k =>
    rcases execTransmit_next e with rfl | ⟨ho, u, r, v, w, h1, h2, h3, h4, rfl⟩
    · exact h
    · obtain ⟨-, ⟨-, hne⟩, -⟩ := ho
      obtain ⟨f1, -, f3⟩ := transmitParts_frame (s := s.startOp) h1 h2 h3 h4 (State.lt_of_refcount hne)
      have hu : SlotsCanonical u := SlotsCanonical.dispatch (s := s.startOp) h f1
      have hr : SlotsCanonical r.2 := hu.assembleBody (st := r.1) (by rw [f1.params]; exact hp) h2
      have hw : SlotsCanonical w := hr.dispatch f3
      exact hw
  | _ => cases hi

/-- Every operation keeps the slots canonical. -/
theorem SlotsCanonical.exec {i : Instr} {s t : State} (hp : s.params.wf) (h : SlotsCanonical s)
    (e : exec i s = .next t) : SlotsCanonical t := by
  cases exec_effect e with
  | refused et => subst et; exact h
  | opened g gr ei et => subst et; exact ⟨Store.wf_nil, Store.below_nil _⟩
  | closed ei et => subst et; exact h
  | pooled u st r hi f et =>
    subst et
    have hu : SlotsCanonical u := SlotsCanonical.dispatch (s := s.startOp) h f
    exact hu
  | channel c f hi hw et => subst et; exact h
  | received data n u r hi hu et =>
    subst et
    obtain ⟨-, ⟨hq, -⟩, hc, -⟩ := received_sides hu
    exact SlotsCanonical.congr (s := s.startOp) (congrArg TxQueue.slot hq) hc h
  | transmitted u st r hi f et => exact h.transmit hi hp e

/-! ### The whole storage -/

/-- Every operation keeps the storage canonical: the pool's data, the ring and the slots each by their own lemma. -/
theorem StorageInv.exec (i : Instr) (s t : State) (h : StorageInv s) (e : exec i s = .next t) : StorageInv t := by
  obtain ⟨hp, hpool, hring, hslots⟩ := storageInv_iff.1 h
  refine storageInv_iff.2 ⟨?_, PoolAll.exec (bufCanonical_closed _) i rfl hpool e, hring.exec e, hslots.exec hp e⟩
  rw [(exec_effect e).params]
  exact hp

/-- Settles O57, by `StorageInv.exec` at the operation that the step runs. -/
theorem stepKeepsStorageCanonical : Obligations.StepKeepsStorageCanonical := by
  intro s t h e
  exact step_keeps (P := StorageInv) (fun _ _ h => h) (fun _ h => h) StorageInv.exec h e

/-! ## RXPUSH -/

/-- Reading a range is reading its first part and then the rest (R66). -/
theorem ringRange_add (s : State) (a m n : Nat) :
    s.ringRange a (m + n) = s.ringRange a m ++ s.ringRange (a + m) n := by
  simp [State.ringRange, List.range_add, Nat.add_assoc]

/-- The unread bytes after a push: those before, and behind them the accepted part of the data (R171). -/
theorem unread_ringPush (s : State) (data : List Byte) :
    (s.ringPush data).2.unread = s.unread ++ data.take (s.ringPush data).1 := by
  obtain ⟨havail, hold, hnew⟩ := ringRead_ringPush s data
  simp only [State.unread, havail, ringRange_add, Nat.zero_add]
  congr 1
  · apply List.map_congr_left
    intro i hi
    rw [Nat.zero_add]
    exact hold i (List.mem_range.1 hi)
  · apply List.ext_getElem?
    intro j
    by_cases hj : j < (s.ringPush data).1
    · rw [ringRange_get _ _ _ _ hj, List.getElem?_take_of_lt hj, hnew j hj]
    · rw [List.getElem?_eq_none (by rw [ringRange_length]; omega),
        List.getElem?_eq_none (by rw [List.length_take]; omega)]

/-- In a session `RXPUSH` is a push, with the number of accepted bytes in the response (R171). -/
theorem exec_rxpush_of_active {s : State} (ha : s.life = .active) (data : List Byte) :
    exec (.rxpush data) s =
      .next ((s.startOp.ringPush data).2.reply .ok (.accepted (s.startOp.ringPush data).1)) := by
  show execRxpush data s = _
  rw [execRxpush, if_pos ha]

/-- Settles O26: the laws of `ringPush` for the count, the indices, the unread bytes and the other cells. -/
theorem rxpushAppendsWhatFits : Obligations.RxpushAppendsWhatFits := by
  intro data s n ha hn
  have hcount : (s.startOp.ringPush data).1 = n := (ringPush_count s.startOp data).trans hn.symm
  obtain ⟨hframe, hcurrent, hnext⟩ := ringPush_frame s.startOp data
  have hunread := unread_ringPush s.startOp data
  have hstore := ringPush_store s.startOp data
  have hexec := exec_rxpush_of_active ha data
  rw [hcount] at hnext hunread hstore hexec
  generalize (s.startOp.ringPush data).2 = u at *
  refine ⟨_, hexec, rfl, ?_, ?_, hcurrent, hnext, hunread, hstore⟩
  · rw [hframe]; rfl
  · rw [hframe]; rfl

end Sys2Proof.Machine

/-! ## Encoding

`decode` is opened for two facts: it accepts the request that `encode` writes, and whatever it accepts is such a
request. What the reserved codes and the unused bits lead to is then read off `encode`. -/

namespace Sys2Proof.Machine

open Sys2Proof.Laws

/-- Field `A` of a data operand that fits holds its length (R101). -/
theorem byteOf_length_toNat {data : List Byte} (h : dataFits data = true) :
    (byteOf data.length).toNat = data.length := by
  have hle : data.length ≤ 255 := of_decide_eq_true h
  exact Nat.mod_eq_of_lt (by omega)

/-- A data operand as long as field `A` says fits, and the encoder writes that field (R101). -/
theorem dataFits_of_length {data : List Byte} {a : Byte} (h : data.length = a.toNat) :
    byteOf data.length = a ∧ dataFits data = true := by
  have := a.isLt
  exact ⟨by rw [h, byteOf, BitVec.ofNat_toNat, BitVec.setWidth_eq], decide_eq_true (by omega)⟩

/-- Settles O1: the fields and bits of the encoded request are those that `encode` put together, and its data operand
has the length that field `A` gives. -/
theorem decodeInvertsEncode : Obligations.DecodeInvertsEncode := by
  intro i hw
  cases i with
  | cscalc data | cscheck _ data | rxpush data | rxbytes data =>
    have hn := byteOf_length_toNat hw
    simp [encode, decode, decodeCommand, commandWord, accept_of, hn]
  | config channel priority kind ctx =>
    obtain ⟨h3, h6, hp, hk⟩ := configByte_fields priority kind
    simp [encode, decode, decodeCommand, commandWord, accept_of, h3, h6, hp, hk]
  | frameHeader | frameSof | frameLenSeq | frameChanPrio | framePayload | frameChecksum =>
    simp [encode, decode, decodeWire, headerBytes]
  | _ => simp [encode, decode, decodeCommand, commandWord, accept_of]

/-- A row that accepts gives back the word it read, if it encodes to a word with the same fields. -/
theorem encode_of_accept {op a b : Byte} {h : Handle} {x : Ctx} {data : List Byte} {k n : Nat} {z : Bool} {i j : Instr}
    (hop : op.toNat = k) (e : accept z n data j = .ok i)
    (hj : z = true → data.length = n →
      encode j = .command (commandWord (byteOf k) a b h x) data ∧ j.wellFormed = true) :
    encode i = .command (wordOf ⟨op, a, b, h, x⟩) data ∧ i.wellFormed = true := by
  obtain ⟨hz, hn, rfl⟩ := accept_ok e
  have hk : byteOf k = op := by rw [← hop, byteOf, BitVec.ofNat_toNat, BitVec.setWidth_eq]
  rw [← hk]
  exact hj hz hn

/-- Whatever the decoder accepts as a command is the encoding of what it answers: each row asks for zeros where the
encoder writes them, and for as much data as the encoder sends (R101, R110, R112). -/
theorem encode_decodeCommand {w : CommandWord} {data : List Byte} {i : Instr} (e : decodeCommand w data = .ok i) :
    encode i = .command w data ∧ i.wellFormed = true := by
  obtain ⟨⟨op, a, b, h, x⟩, rfl⟩ : ∃ f, w = wordOf f := ⟨_, (wordOf_fieldsOf w).symm⟩
  simp only [decodeCommand, fieldsOf_wordOf] at e
  split at e
  -- the four rows with a data operand, `CONFIG`, the reserved codes, and the other fifteen rows
  case h_3 hop | h_4 hop | h_12 hop | h_14 hop =>
    refine encode_of_accept hop e fun hz hn => ?_
    obtain ⟨ha, hfit⟩ := dataFits_of_length hn
    simp only [Bool.and_eq_true, beq_iff_eq] at hz
    simp [encode, ha, hz, Instr.wellFormed, hfit]
  case h_18 hop =>
    refine encode_of_accept hop e fun hz hn => ?_
    simp only [Bool.and_eq_true, beq_iff_eq] at hz
    obtain ⟨⟨h3, h6⟩, rfl⟩ := hz
    simp [encode, configByte_of_fields h3 h6, List.length_eq_zero_iff.1 hn, Instr.wellFormed]
  case h_21 => cases e
  all_goals
    rename_i hop
    refine encode_of_accept hop e fun hz hn => ?_
    simp only [Bool.and_eq_true, beq_iff_eq] at hz
    simp [encode, hz, List.length_eq_zero_iff.1 hn, Instr.wellFormed]

/-- Whatever the decoder accepts as a part of a frame is the encoding of what it answers (R90, R92). -/
theorem encode_decodeWire {part : FramePart} {bytes : List Byte} {i : Instr} (e : decodeWire part bytes = .ok i) :
    encode i = .wire part bytes ∧ i.wellFormed = true := by
  unfold decodeWire at e
  split at e
  case h_1 | h_2 =>
    split_ifs at e with h0
    cases e
    simp [encode, headerBytes, h0, Instr.wellFormed]
  case h_7 => cases e
  all_goals
    cases e
    simp [encode, Instr.wellFormed]

/-- Settles O2: a command by its row, a part of a frame by its pattern. -/
theorem encodeInvertsDecode : Obligations.EncodeInvertsDecode := by
  intro r i e
  cases r with
  | command w data => exact encode_decodeCommand e
  | wire part bytes => exact encode_decodeWire e

/-! ## Words made of their fields -/

/-- A word written as a number is the encoder's word of the same fields (R100). -/
theorem fieldsWord_eq (op a b : Byte) (h : Handle) (x : Ctx) :
    fieldsWord op.toNat a.toNat b.toNat h.toNat x.toNat = commandWord op a b h x := by
  rw [commandWord, ← fieldsOf_fieldsWord, wordOf_fieldsOf]

/-- A word written as a number decodes to the operation that the encoder writes with the same fields. -/
theorem decode_fieldsWord {i : Instr} {data : List Byte} (op a b : Byte) (h : Handle) (x : Ctx)
    (hw : i.wellFormed = true) (hi : encode i = .command (commandWord op a b h x) data) :
    decode (.command (fieldsWord op.toNat a.toNat b.toNat h.toNat x.toNat) data) = .ok i := by
  rw [fieldsWord_eq, ← hi]
  exact decodeInvertsEncode i hw

/-- Settles O8: each row's number is the encoding of its operation, which decodes by `decodeInvertsEncode`. -/
theorem everyRowDecodesFromItsFields : Obligations.EveryRowDecodesFromItsFields := by
  intro a b h x p k data hn
  obtain ⟨ha, hfit⟩ := dataFits_of_length hn
  subst ha
  have hconfig : p.toNat + 16 * k.toNat = (configByte p k).toNat := by rw [configByte_toNat]; omega
  rw [hconfig]
  exact ⟨decode_fieldsWord 0x01 _ 0 0 0 rfl rfl, decode_fieldsWord 0x02 0 0 0 0 rfl rfl,
    decode_fieldsWord 0x10 _ 0 0 0 hfit rfl, decode_fieldsWord 0x11 _ _ 0 0 hfit rfl,
    decode_fieldsWord 0x20 0 0 0 0 rfl rfl, decode_fieldsWord 0x21 0 0 _ 0 rfl rfl,
    decode_fieldsWord 0x22 0 0 _ 0 rfl rfl, decode_fieldsWord 0x23 _ _ _ 0 rfl rfl,
    decode_fieldsWord 0x24 _ 0 _ 0 rfl rfl, decode_fieldsWord 0x25 _ 0 _ 0 rfl rfl,
    decode_fieldsWord 0x26 0 0 _ 0 rfl rfl, decode_fieldsWord 0x30 _ 0 0 0 hfit rfl,
    decode_fieldsWord 0x31 0 0 0 0 rfl rfl, decode_fieldsWord 0x32 _ 0 0 0 hfit rfl,
    decode_fieldsWord 0x40 _ _ _ 0 rfl rfl, decode_fieldsWord 0x41 0 0 0 0 rfl rfl,
    decode_fieldsWord 0x42 _ 0 _ 0 rfl rfl, decode_fieldsWord 0x50 _ _ 0 _ rfl rfl,
    decode_fieldsWord 0x51 _ _ 0 0 rfl rfl, decode_fieldsWord 0x52 _ 0 0 0 rfl rfl⟩

/-- Settles O7: the words and bytes are closed, so the decoder is run on them. -/
theorem writtenWordsDecode : Obligations.WrittenWordsDecode := by
  unfold Obligations.WrittenWordsDecode
  decide

/-! ## Requests that are refused -/

/-- A request that names no operation is taken from the list and refused (R100, R111). -/
theorem step_of_not_decoded {s : State} {r : Request} {rest : List Request} (hp : s.pending = r :: rest)
    (hr : ∀ i, decode r ≠ .ok i) :
    step s = .next { s with
      pending := rest, events := [], resp := some { status := .invalidParameter, result := .none } } := by
  have hf := State.fetch_of_pending_cons hp
  cases hd : decode r with
  | ok i => exact absurd hd (hr i)
  | error x =>
    simp only [step, hf, hd]
    rfl

/-- An operation issued as a command word has an `OP` of the table (R110). -/
theorem op_mem_opCodes {i : Instr} {w : CommandWord} {data : List Byte} (he : encode i = .command w data) :
    (w.extractLsb' 0 8).toNat ∈ opCodes := by
  cases i with
  | frameHeader | frameSof | frameLenSeq | frameChanPrio | framePayload | frameChecksum => cases he
  | _ =>
    cases he
    rw [EncodedOp.op_of]
    decide

/-- Settles O3: an operation that such a word decoded to would have its `OP`. -/
theorem reservedOpAnswersInvalidParameter : Obligations.ReservedOpAnswersInvalidParameter := by
  intro s w data rest hp hop
  refine step_of_not_decoded hp fun i hd => hop ?_
  exact op_mem_opCodes (encodeInvertsDecode _ i hd).1

/-- A word and a mask have no bit in common when their fields have none. -/
theorem commandWord_and_eq_zero {op a b : Byte} {h : Handle} {x : Ctx} {m : CommandWord}
    (hm : op &&& (fieldsOf m).op = 0 ∧ a &&& (fieldsOf m).a = 0 ∧ b &&& (fieldsOf m).b = 0 ∧
      h &&& (fieldsOf m).h = 0 ∧ x &&& (fieldsOf m).x = 0) : commandWord op a b h x &&& m = 0 := by
  obtain ⟨ho, ha, hb, hh, hx⟩ := hm
  rw [← wordOf_fieldsOf m, commandWord, wordOf_and, ho, ha, hb, hh, hx]
  rfl

/-- `CONFIG` writes no reserved bit of field `B` (R110, R112). -/
theorem configByte_and_reserved :
    ∀ (priority : BitVec 3) (kind : BitVec 2), configByte priority kind &&& 0xC8#8 = 0#8 := by
  decide

/-- The encoder leaves the bits zero that its row demands to be zero (R112). -/
theorem encode_and_mustBeZero {i : Instr} {w m : CommandWord} {data : List Byte} (he : encode i = .command w data)
    (hm : (w.extractLsb' 0 8, m) ∈ mustBeZero) : w &&& m = 0 := by
  cases i with
  | frameHeader | frameSof | frameLenSeq | frameChanPrio | framePayload | frameChecksum => cases he
  | _ =>
    cases he
    rw [EncodedOp.op_of] at hm
    obtain rfl : m = _ := by simpa [mustBeZero] using hm
    exact commandWord_and_eq_zero (by simp [fieldsOf, configByte_and_reserved])

/-- Settles O4: an operation that such a word decoded to would be encoded as that word, with those bits zero. -/
theorem unusedFieldAnswersInvalidParameter : Obligations.UnusedFieldAnswersInvalidParameter := by
  intro s w mask op data rest hp hm hop hbit
  subst hop
  refine step_of_not_decoded hp fun i hd => hbit ?_
  exact encode_and_mustBeZero (encodeInvertsDecode _ i hd).1 hm

end Sys2Proof.Machine

/-! ## RXBYTES -/

namespace Sys2Proof.Machine

/-- In a session `RXSCAN` is a scan (R175). -/
theorem exec_rxscan_of_active {s t : State} (ha : s.life = .active) (e : exec .rxscan s = .next t) :
    ∃ u, scan s.startOp = .ok u ∧ t = u.reply .ok .none := by
  have hexec : exec .rxscan s = complete (do let u ← scan s.startOp; pure (u.reply .ok .none)) := if_pos ha
  exact then_reply (complete_next (hexec ▸ e))

/-- In a session `RXBYTES` is a push and the scan that completes after it (R186). -/
theorem exec_rxbytes_of_scan {s u : State} {data : List Byte} (ha : s.life = .active)
    (hu : scan (s.startOp.ringPush data).2 = .ok u) :
    exec (.rxbytes data) s = .next (u.reply .ok (.accepted (s.startOp.ringPush data).1)) := by
  show rxArrive data s = _
  simp only [rxArrive, if_pos ha, hu]
  rfl

/-- A push leaves the events and the response alone, so the scan begins after `RXPUSH` as it does within `RXBYTES`
(R186). -/
theorem startOp_ringPush_startOp (s : State) (data : List Byte) :
    (s.startOp.ringPush data).2.startOp = (s.startOp.ringPush data).2 := by
  obtain ⟨hframe, -⟩ := ringPush_frame s.startOp data
  rw [hframe]
  rfl

/-- Settles O37: the scan of the `RXSCAN` is the one within the `RXBYTES`, and only the response differs. -/
theorem rxbytesIsRxpushThenRxscan : Obligations.RxbytesIsRxpushThenRxscan := by
  intro data s t u ha hpush hscan
  rw [exec_rxpush_of_active ha] at hpush
  cases hpush
  obtain ⟨-, -, -, hlife, -⟩ := ringPush_sides s.startOp data
  obtain ⟨v, hv, rfl⟩ := exec_rxscan_of_active (hlife.trans ha) hscan
  rw [startOp_ringPush_startOp] at hv
  exact exec_rxbytes_of_scan (u := v) ha hv

/-! ## ASSEMBLE -/

/-- The checks of `ASSEMBLE`, as the statements write them (R200). -/
theorem assembleOk_iff {s : State} {channel priority : Byte} {h : Handle} :
    s.assembleOk channel priority h ↔ MayAssemble s channel priority h := by
  simp only [State.assembleOk, MayAssemble, and_assoc]

/-- An `ASSEMBLE` that does not pass its checks is refused (R200). -/
theorem refuses_assemble {s : State} {channel priority : Byte} {h : Handle} (hc : ¬ MayAssemble s channel priority h) :
    Refuses (.assemble channel priority h) s :=
  refuses_of (if_neg (mt assembleOk_iff.1 hc))

/-- An `ASSEMBLE` that passes its checks answers what its body does (R200). -/
theorem exec_assemble_of_body {s t : State} {channel priority : Byte} {h : Handle} {st : Status}
    (hc : MayAssemble s channel priority h) (e : assembleBody channel priority h s.startOp = .ok (st, t)) :
    exec (.assemble channel priority h) s = .next (t.reply st .none) := by
  show execAssemble channel priority h s = _
  rw [execAssemble, if_pos (assembleOk_iff.2 hc), e]
  rfl

/-- A draw does not see that an operation has begun (R263). -/
theorem afterDraw_startOp (s : State) : s.startOp.afterDraw = s.afterDraw.startOp := by
  simp only [State.afterDraw, State.startOp_draws]
  cases s.draws <;> rfl

/-- An operand beyond a bound of R200 fails the checks. -/
theorem not_mayAssemble_of_operand {s : State} {channel priority : Byte} {h : Handle}
    (hbad : (s.buf h).refcount = s.params.refMax ∨ 21 ≤ channel.toNat ∨ 7 < priority.toNat ∨
      (s.buf h).payloadLength = 0 ∨ 92 < (s.buf h).payloadLength.toNat) : ¬ MayAssemble s channel priority h := by
  rintro ⟨-, -, -, hmax, hch, hpr, hl1, hl2⟩
  rcases hbad with hb | hb | hb | hb | hb
  case inr.inr.inr.inl =>
    rw [hb] at hl1
    cases hl1
  all_goals omega

/-- Settles O40: outside the checks by `refuses_assemble`; under them `assembleBody_sends` gives the frame. -/
theorem assembleSendsTheFrame : Obligations.AssembleSendsTheFrame := by
  intro s channel priority h
  refine ⟨fun hbad => refuses_assemble (not_mayAssemble_of_operand hbad), fun hw hc hq a1 a2 => ?_⟩
  obtain ⟨-, -, hlive, hmax, -, -, hl1, hl2⟩ := id hc
  obtain ⟨f, t, hbody, sent⟩ := assembleBody_sends (s := s.startOp) channel priority hw hlive hmax hl1 hl2 hq a1
    (by rw [afterDraw_startOp]; exact a2)
  obtain ⟨hrecv, hconf, -⟩ := sent.frame.sides
  have hother : OtherBuffersSame s (t.reply .ok .none) h := fun k hk =>
    .of_buf (sent.other k hk.symm) sent.frame.session
  have hd := sent.d
  have hfd := sent.fd
  rw [afterDraw_startOp, afterDraw_startOp] at hd hfd
  exact ⟨f, t.reply .ok .none, exec_assemble_of_body hc hbody, rfl, sent.events, sent.carries, sent.least, sent.reads,
    sent.above, sent.fl, sent.pl, sent.rc, sent.frame.2, hother, sent.seq, sent.q, hd, hfd, hrecv, hconf⟩

end Sys2Proof.Machine

/-! ## Checksum

The checksum is additive: it takes `++` to the sum, and a single byte to its negation. Each law of R130 and R133 is
read off that. -/

namespace Sys2Proof.Machine

/-- No byte, no sum (R130). -/
@[simp] theorem checksum_nil : checksum [] = 0 := rfl

/-- A byte in front adds its complement to `0x100`, which is its negation modulo 256 (R130). -/
@[simp] theorem checksum_cons (b : Byte) (p : List Byte) : checksum (b :: p) = -b + checksum p := by
  refine BitVec.eq_of_toNat_eq ?_
  simp only [checksum, byteOf, List.map_cons, List.sum_cons, BitVec.toNat_add, BitVec.toNat_neg, BitVec.toNat_ofNat]
  omega

/-- The checksum of a concatenation is the sum of the two (R130). -/
@[simp] theorem checksum_append (p q : List Byte) : checksum (p ++ q) = checksum p + checksum q := by
  induction p with
  | nil => exact (BitVec.zero_add _).symm
  | cons b p ih => rw [List.cons_append, checksum_cons, checksum_cons, ih, BitVec.add_assoc]

/-- The checksum is the two's complement of the 8-bit sum (R130). -/
theorem checksum_eq_neg_sum (p : List Byte) : checksum p = -p.sum := by
  induction p with
  | nil => rfl
  | cons b p ih => rw [checksum_cons, ih, List.sum_cons, neg_add]

/-- A reordering has the same 8-bit sum, so the same checksum (R133). -/
theorem checksum_perm {p q : List Byte} (h : p.Perm q) : checksum p = checksum q := by
  rw [checksum_eq_neg_sum, checksum_eq_neg_sum, h.sum_eq]

/-- Between the same neighbours the checksum tells any two bytes apart (R133). -/
theorem checksum_replace_inj {p q : List Byte} {b c : Byte} :
    checksum (p ++ b :: q) = checksum (p ++ c :: q) ↔ b = c := by
  simp only [checksum_append, checksum_cons, add_right_inj, add_left_inj, neg_inj]

/-- What one byte gains and a later one loses cancels (R133). -/
theorem checksum_transfer (p q r : List Byte) (b c d : Byte) :
    checksum (p ++ (b + d) :: q ++ (c - d) :: r) = checksum (p ++ b :: q ++ c :: r) := by
  simp only [checksum_append, checksum_cons]
  abel

/-- Settles O11: the two's complement form gives the reorderings, additivity the change of one byte and of two. -/
theorem checksumIsTwosComplementSum : Obligations.ChecksumIsTwosComplementSum := by
  intro p
  refine ⟨rfl, checksum_eq_neg_sum p, checksum_sum p, fun _ => checksum_perm, fun q b c hne => ?_, checksum_transfer p⟩
  exact mt checksum_replace_inj.1 hne

/-- `CSCALC` of data answers the checksum, and nothing else changes (R131). -/
theorem exec_cscalc_of_ne_nil {data : List Byte} (hd : data ≠ []) (s : State) :
    exec (.cscalc data) s = .next (s.startOp.reply .ok (.checksum (checksum data))) :=
  if_neg hd

/-- `CSCHECK` of data answers by the comparison, with the computed value either way (R132). -/
theorem exec_cscheck_of_ne_nil {data : List Byte} (hd : data ≠ []) (expected : Byte) (s : State) :
    exec (.cscheck expected data) s = .next
      (s.startOp.reply (if checksum data = expected then .ok else .checksumMismatch) (.computed (checksum data))) :=
  if_neg hd

/-- Settles O9: the empty list fails the one check of `CSCALC`; any other list is answered with its checksum. -/
theorem cscalcReturnsTheChecksum : Obligations.CscalcReturnsTheChecksum := by
  intro data s
  exact ⟨fun hd => refuses_of (if_pos hd), fun hd => exec_cscalc_of_ne_nil hd s⟩

/-- Settles O10: as for `CSCALC`, where the byte computed as R130 says is the checksum that is compared. -/
theorem cscheckComparesAndReturnsComputed : Obligations.CscheckComparesAndReturnsComputed := by
  intro expected c data s
  refine ⟨fun hd => refuses_of (if_pos hd), fun hd hc => ?_⟩
  subst hc
  exact exec_cscheck_of_ne_nil hd expected s

end Sys2Proof.Machine

/-! ## Live buffers

The operations that neither transmit nor release leave a live buffer its references and its frame: they take or fill
only a free buffer. -/

namespace Sys2Proof.Machine

/-- In `t` every buffer that is live in `s` has at least its references, and its frame length. -/
def KeepsLive (s t : State) : Prop :=
  ∀ k, (s.buf k).refcount ≠ 0 →
    (s.buf k).refcount ≤ (t.buf k).refcount ∧ (t.buf k).frameLength = (s.buf k).frameLength

theorem KeepsLive.of_pool {s t : State} (hp : t.pool = s.pool) : KeepsLive s t := fun k _ => by
  rw [State.buf_congr hp]
  exact ⟨Nat.le_refl _, rfl⟩

theorem KeepsLive.trans {s t u : State} (h : KeepsLive s t) (k : KeepsLive t u) : KeepsLive s u := fun x hx => by
  obtain ⟨h1, h2⟩ := h x hx
  obtain ⟨k1, k2⟩ := k x (by omega)
  exact ⟨Nat.le_trans h1 k1, k2.trans h2⟩

/-- A change of one buffer that keeps its frame length and takes no reference away. -/
theorem KeepsLive.modifyBuf (s : State) (h : Handle) (f : Buf → Buf)
    (hf : (s.buf h).refcount ≤ (f (s.buf h)).refcount ∧ (f (s.buf h)).frameLength = (s.buf h).frameLength) :
    KeepsLive s (s.modifyBuf h f) := fun k _ => by
  rw [State.buf_modifyBuf]
  split_ifs with hk
  · obtain ⟨rfl, -⟩ := hk
    exact hf
  · exact ⟨Nat.le_refl _, rfl⟩

/-- Whatever happens to a free buffer alone. -/
theorem KeepsLive.of_free {s t : State} {h : Handle} (hf : (s.buf h).refcount = 0)
    (ho : ∀ k, h ≠ k → t.buf k = s.buf k) : KeepsLive s t := fun k hk => by
  rw [ho k fun e => hk (e ▸ hf)]
  exact ⟨Nat.le_refl _, rfl⟩

theorem KeepsLive.refInc {h : Handle} {s t : State} (e : refInc h s = .ok t) : KeepsLive s t := by
  obtain ⟨-, rfl⟩ := refInc_ok e
  exact .modifyBuf s h _ ⟨Nat.le_succ _, rfl⟩

/-- A delivery takes no reference away (R231). -/
theorem KeepsLive.deliver {c : Nat} {h : Handle} {s t : State} (hl : h.toNat < s.pool.length)
    (e : deliver c h s = .ok t) : KeepsLive s t := fun k _ => by
  obtain ⟨-, -, hb⟩ := deliver_ok hl e
  rw [hb]
  split_ifs
  · exact ⟨Nat.le_succ _, rfl⟩
  · exact ⟨Nat.le_refl _, rfl⟩

/-- The frame goes into the chosen free buffer and into no other one (R142, R183). -/
theorem deliverIntoPool_other {fl : Nat} {s t : State} {h k : Handle} (e : deliverIntoPool fl s = .ok t)
    (hf : s.firstFree = some h) (hk : h ≠ k) : t.buf k = s.buf k := by
  rcases deliverIntoPool_ok e with ⟨hn, -⟩ | ⟨h', hf', hm⟩
  · rw [hf] at hn
    cases hn
  · obtain rfl : h = h' := Option.some.inj (hf.symm.trans hf')
    have hlive : (((s.takeBuf h).fillFromRing h fl).buf h).refcount ≠ 0 := by
      rw [fillFromRing_buf (firstFree_lt hf)]
      exact Nat.one_ne_zero
    obtain ⟨-, ho, -⟩ := muxProcessRx_ok hm hlive _ rfl
    rw [ho k hk, fillFromRing_other hk]

/-- A scan step touches no live buffer (R142, R176). -/
theorem KeepsLive.scanStep {s t : State} {r : ScanResult} (hN : s.pool.length ≤ 65536)
    (e : scanStep s = .ok (r, t)) : KeepsLive s t := by
  rcases scanStep_cases e with ⟨-, -, rfl⟩ | ⟨-, -, -, -, rfl⟩ | ⟨fl, -, -, -, rfl⟩ |
    ⟨fl, -, -, -, -, rfl⟩ | ⟨fl, -, -, -, -, -, rfl⟩ | ⟨fl, u, -, -, -, -, -, hd, rfl⟩
  · exact .of_pool rfl
  · exact .of_pool (by rw [caseSkip_eq])
  · exact .of_pool (by rw [caseTooLong_eq]; rfl)
  · exact .of_pool rfl
  · exact .of_pool (by rw [caseBadChecksum_eq]; rfl)
  · have hu : KeepsLive (beforeDelivery s) u := by
      cases hf : (beforeDelivery s).firstFree with
      | none =>
        rcases deliverIntoPool_ok hd with ⟨-, rfl⟩ | ⟨h, hf', -⟩
        · exact .of_pool rfl
        · rw [hf] at hf'
          cases hf'
      | some h =>
        obtain ⟨-, hfree, -⟩ := firstFree_some (s := beforeDelivery s) hN hf
        exact .of_free hfree fun k hk => deliverIntoPool_other hd hf hk
    exact hu

/-- A scan touches no live buffer (R175). -/
theorem KeepsLive.scan {s t : State} (hN : s.pool.length ≤ 65536) (e : scan s = .ok t) : KeepsLive s t := by
  have step : ∀ {u v : State} {r : ScanResult}, u.pool.length = s.pool.length ∧ KeepsLive s u →
      Machine.scanStep u = .ok (r, v) → v.pool.length = s.pool.length ∧ KeepsLive s v := by
    rintro u v r ⟨hl, hu⟩ hv
    obtain ⟨⟨-, hvl, -⟩, -⟩ := scanStep_frame hv
    exact ⟨hvl.trans hl, hu.trans (.scanStep (by omega) hv)⟩
  exact (scanLoop_induct step ⟨rfl, .of_pool rfl⟩ e).2

/-- In a session the pool has a handle for each of its buffers (D11). -/
theorem PoolInv.length_le {s : State} (h : PoolInv s) (ha : s.life = .active) : s.pool.length ≤ 65536 := by
  obtain ⟨-, -, -, hN, -⟩ := h.1
  rw [h.length ha]
  exact hN

/-- An arrival touches no live buffer (R186). -/
theorem KeepsLive.rxArrive {data : List Byte} {s t : State} (hp : PoolInv s) (e : rxArrive data s = .next t) :
    KeepsLive s t := by
  rcases rxArrive_next e with rfl | ⟨ha, u, hu, rfl⟩
  · exact .of_pool rfl
  · obtain ⟨hpool, -, -⟩ := ringPush_sides s.startOp data
    have hpush : KeepsLive s (s.startOp.ringPush data).2 := .of_pool hpool
    have hscan : KeepsLive s u := hpush.trans (.scan (by rw [hpool]; exact hp.length_le ha) hu)
    exact hscan

/-- An operation that neither opens a session, releases nor transmits keeps every live buffer. -/
theorem KeepsLive.exec {i : Instr} {s t : State} (hp : PoolInv s) (hi : isTransmit i = false)
    (hg : ∀ g, i ≠ .init g) (hr : ∀ h, i ≠ .release h) (e : exec i s = .next t) : KeepsLive s t := by
  cases i with
  | init g => exact absurd rfl (hg g)
  | release k => exact absurd rfl (hr k)
  | assemble | drain | transmit => cases hi
  | freepool => rcases execFreepool_next e with rfl | ⟨-, -, rfl⟩ | ⟨-, -, rfl⟩ <;> exact .of_pool rfl
  | cscalc d => rcases execCscalc_next e with rfl | rfl <;> exact .of_pool rfl
  | cscheck x d => rcases execCscheck_next e with rfl | rfl <;> exact .of_pool rfl
  | alloc =>
    rcases execAlloc_next e with rfl | ⟨ha, k, hk, rfl⟩ | ⟨-, -, rfl⟩
    · exact .of_pool rfl
    · obtain ⟨-, hfree, -⟩ := firstFree_some (hp.length_le ha) hk
      exact .of_free hfree fun k' hk' => State.buf_modifyBuf_other _ _ hk'
    · exact .of_pool rfl
  | refinc k =>
    rcases execRefinc_next e with rfl | ⟨-, -, -, u, hu, rfl⟩
    · exact .of_pool rfl
    · have : KeepsLive s.startOp u := .refInc hu
      exact this
  | bufwr off val k =>
    rcases execBufwr_next e with rfl | ⟨-, -, -, rfl⟩
    · exact .of_pool rfl
    · exact .modifyBuf s.startOp k _ ⟨Nat.le_refl _, rfl⟩
  | bufrd off k => rcases execBufrd_next e with rfl | ⟨-, -, -, rfl⟩ <;> exact .of_pool rfl
  | setlen len k =>
    rcases execSetlen_next e with rfl | ⟨-, -, -, rfl⟩
    · exact .of_pool rfl
    · exact .modifyBuf s.startOp k _ ⟨Nat.le_refl _, rfl⟩
  | bufinfo k => rcases execBufinfo_next e with rfl | ⟨-, -, rfl⟩ <;> exact .of_pool rfl
  | rxpush d =>
    rcases execRxpush_next e with rfl | ⟨-, rfl⟩
    · exact .of_pool rfl
    · exact .of_pool (ringPush_sides s.startOp d).1
  | rxscan =>
    rcases execRxscan_next e with rfl | ⟨ha, u, hu, rfl⟩
    · exact .of_pool rfl
    · have : KeepsLive s.startOp u := .scan (hp.length_le ha) hu
      exact this
  | config c p k x => rcases execConfig_next e with rfl | ⟨-, kd, -, rfl⟩ <;> exact .of_pool rfl
  | setprio c p => rcases execSetprio_next e with rfl | ⟨-, -, rfl⟩ <;> exact .of_pool rfl
  | getprio c => rcases execGetprio_next e with rfl | ⟨-, rfl⟩ <;> exact .of_pool rfl
  | rxbytes | frameHeader | frameSof | frameLenSeq | frameChanPrio | framePayload | frameChecksum =>
    exact .rxArrive hp e

/-- An operation that neither opens a session nor transmits leaves the queue as it is. -/
theorem exec_queued {i : Instr} {s t : State} (hi : isTransmit i = false) (hg : ∀ g, i ≠ .init g)
    (e : exec i s = .next t) : t.queued = s.queued := by
  cases exec_effect e with
  | refused et => subst et; rfl
  | opened g gr ei et => exact absurd ei (hg g)
  | closed ei et => subst et; rfl
  | pooled u st r hi f et => subst et; exact queued_congr (s := s) f.txq f.params f.session
  | channel c f hi hw et => subst et; rfl
  | received data n u r hi hu et =>
    subst et
    obtain ⟨-, ⟨hq, -⟩, hp, -, -, -, -, hs⟩ := received_sides hu
    exact queued_congr (s := s) hq hp hs
  | transmitted u st r hi' f et => rw [hi] at hi'; cases hi'

/-! ## Completion -/

/-- A computation that completes, and then a reply, answers a next state. -/
theorem complete_then {α : Type} {r : Except Fault α} (f : α → State) (h : ∃ x, r = .ok x) :
    ∃ t, complete (do let x ← r; pure (f x)) = .next t := by
  obtain ⟨x, rfl⟩ := h
  exact ⟨f x, rfl⟩

theorem rxArrive_completes (data : List Byte) {s : State} (hr : 3 ≤ s.params.refMax) :
    ∃ t, rxArrive data s = .next t := by
  obtain ⟨-, -, hp, -⟩ := ringPush_sides s.startOp data
  unfold rxArrive
  split_ifs
  · exact complete_then _ (scan_completes (by rw [hp]; exact hr))
  · exact ⟨_, rfl⟩

/-- In a legal build only the transmit operations can end in a fault of the run (R270 to R272). -/
theorem exec_completes_of_not_transmit {i : Instr} {s : State} (hp : s.params.wf) (hi : isTransmit i = false) :
    ∃ t, exec i s = .next t := by
  obtain ⟨-, -, -, -, h4, -⟩ := hp
  have hr : 3 ≤ s.params.refMax := by omega
  cases i with
  | assemble | drain | transmit => cases hi
  | rxbytes | frameHeader | frameSof | frameLenSeq | frameChanPrio | framePayload | frameChecksum =>
    exact rxArrive_completes _ hr
  | refinc k =>
    simp only [exec, execRefinc]
    split_ifs with hc
    · obtain ⟨-, -, hlt⟩ := hc
      exact complete_then _ ⟨_, refInc_of_lt (s := s.startOp) hlt⟩
    · exact ⟨_, rfl⟩
  | release k =>
    simp only [exec, execRelease]
    split_ifs with hc
    · obtain ⟨-, -, hne⟩ := hc
      exact complete_then _ ⟨_, refDec_of_ne (s := s.startOp) hne⟩
    · exact ⟨_, rfl⟩
  | rxscan =>
    simp only [exec, execRxscan]
    split_ifs
    · exact complete_then _ (scan_completes hr)
    · exact ⟨_, rfl⟩
  | init g =>
    simp only [exec, execInit]
    split_ifs
    · exact ⟨_, rfl⟩
    · split <;> exact ⟨_, rfl⟩
  | alloc =>
    simp only [exec, execAlloc]
    split_ifs
    · split <;> exact ⟨_, rfl⟩
    · exact ⟨_, rfl⟩
  | config c p k x =>
    simp only [exec, execConfig]
    split_ifs
    · split <;> exact ⟨_, rfl⟩
    · exact ⟨_, rfl⟩
  | freepool | cscalc | cscheck | bufwr | bufrd | setlen | bufinfo | rxpush | setprio | getprio =>
    simp only [exec, execFreepool, execCscalc, execCscheck, execBufwr, execBufrd, execSetlen, execBufinfo, execRxpush,
      execSetprio, execGetprio]
    split_ifs <;> exact ⟨_, rfl⟩

end Sys2Proof.Machine

/-! ## Ownership

Every operation keeps it: those that neither transmit nor release keep the live buffers and the queue, a release
takes a reference that the queue does not hold, and a transmission adds a reference with each entry and takes one away
with it. -/

namespace Sys2Proof.Machine

/-- The entries of the queue `q` stand for references of `t` to buffers that hold a frame (R161, R203). -/
def Backed (q : List Handle) (t : State) : Prop :=
  ∀ k ∈ q, q.count k ≤ (t.buf k).refcount ∧
    minScan ≤ (t.buf k).frameLength.toNat ∧ (t.buf k).frameLength.toNat ≤ maxFrame

theorem queueOwnsItsEntries_iff {s : State} :
    QueueOwnsItsEntries s ↔ PoolInv s ∧ QueueInv s ∧ Backed s.queued s := by
  refine ⟨fun ⟨hp, hq, ho⟩ => ⟨hp, hq, fun k hk => ⟨(ho k).1, (ho k).2 hk⟩⟩,
    fun ⟨hp, hq, hb⟩ => ⟨hp, hq, fun k => ⟨?_, fun hk => (hb k hk).2⟩⟩⟩
  by_cases hk : k ∈ s.queued
  · exact (hb k hk).1
  · rw [List.count_eq_zero_of_not_mem hk]
    exact Nat.zero_le _

theorem Backed.keepsLive {q : List Handle} {s t : State} (h : Backed q s) (k : KeepsLive s t) : Backed q t := by
  intro x hx
  obtain ⟨hc, hf⟩ := h x hx
  have hpos := List.count_pos_iff.2 hx
  obtain ⟨hr, hl⟩ := k x (by omega)
  rw [hl]
  exact ⟨Nat.le_trans hc hr, hf⟩

/-- The buffers change, the queue does not. -/
theorem QueueOwnsItsEntries.dispatch {s t : State} (h : QueueOwnsItsEntries s) (f : DispatchFrame s t)
    (ha : PoolAll (BufLegal s.params) t) (hb : Backed s.queued t) : QueueOwnsItsEntries t := by
  obtain ⟨hp, hq, -⟩ := h
  refine queueOwnsItsEntries_iff.2 ⟨hp.keep f.sides.2.2 f.2 ha, hq.dispatch f, ?_⟩
  rw [queued_congr f.txq f.params f.session]
  exact hb

theorem QueueOwnsItsEntries.backed {s : State} (h : QueueOwnsItsEntries s) : Backed s.queued s :=
  (queueOwnsItsEntries_iff.1 h).2.2

theorem QueueOwnsItsEntries.all {s : State} (h : QueueOwnsItsEntries s) : PoolAll (BufLegal s.params) s := by
  obtain ⟨-, -, -, ha⟩ := h.1
  exact ha

theorem QueueOwnsItsEntries.refInc {h : Handle} {s t : State} (hs : QueueOwnsItsEntries s)
    (e : refInc h s = .ok t) : QueueOwnsItsEntries t :=
  hs.dispatch (.refInc e) (hs.all.refInc hs.1.closed rfl e) (hs.backed.keepsLive (.refInc e))

theorem QueueOwnsItsEntries.deliver {c : Nat} {h : Handle} {s t : State} (hs : QueueOwnsItsEntries s)
    (hl : h.toNat < s.pool.length) (e : deliver c h s = .ok t) : QueueOwnsItsEntries t :=
  hs.dispatch (deliver_ok hl e).1 (hs.all.deliver hs.1.closed rfl e) (hs.backed.keepsLive (.deliver hl e))

theorem QueueOwnsItsEntries.startOp {s : State} (hs : QueueOwnsItsEntries s) : QueueOwnsItsEntries s.startOp := hs

theorem QueueOwnsItsEntries.reply {s : State} (hs : QueueOwnsItsEntries s) (st : Status) (r : Result) :
    QueueOwnsItsEntries (s.reply st r) := hs

theorem QueueOwnsItsEntries.refused {s : State} (hs : QueueOwnsItsEntries s) : QueueOwnsItsEntries s.refused := hs

/-- A reference that the queue does not hold may be taken away (R311). -/
theorem Backed.refDec {q : List Handle} {h : Handle} {s t : State} (hb : Backed q s)
    (hlt : q.count h < (s.buf h).refcount) (e : refDec h s = .ok t) : Backed q t := by
  intro k hk
  rw [refDec_buf e]
  by_cases hhk : h = k
  · subst hhk
    rw [if_pos rfl]
    exact ⟨Nat.le_sub_one_of_lt hlt, (hb h hk).2⟩
  · rw [if_neg hhk]
    exact hb k hk

theorem QueueOwnsItsEntries.refDec {h : Handle} {s t : State} (hs : QueueOwnsItsEntries s)
    (hlt : s.queued.count h < (s.buf h).refcount) (e : refDec h s = .ok t) : QueueOwnsItsEntries t :=
  hs.dispatch (.refDec e) (hs.all.refDec hs.1.closed rfl e) (hs.backed.refDec hlt e)

/-! ### Enqueue, assembly -/

/-- The references that the queue does not hold stay what they are: each entry comes with a reference and goes with
it. -/
def KeepsSpare (s t : State) : Prop :=
  ∀ k, (t.buf k).refcount + s.queued.count k = (s.buf k).refcount + t.queued.count k

theorem KeepsSpare.of_eq {s t : State} (hr : ∀ k, (t.buf k).refcount = (s.buf k).refcount)
    (hq : t.queued = s.queued) : KeepsSpare s t := fun k => by rw [hr, hq]

theorem KeepsSpare.trans {s t u : State} (h : KeepsSpare s t) (k : KeepsSpare t u) : KeepsSpare s u := fun x => by
  have := h x
  have := k x
  omega

/-- What `EnqueueRef` does to the queue and the buffers (R203). -/
theorem enqueueRef_effect {h : Handle} {s t : State} {st : Status} (hq : QueueInv s) (hl : h.toNat < s.pool.length)
    (e : enqueueRef h s = .ok (st, t)) :
    KeepsSpare s t ∧ ∀ k, (t.buf k).refcount ≤ (s.buf k).refcount + 1 ∧
      (t.buf k).frameLength = (s.buf k).frameLength ∧ (k ∈ t.queued → k = h ∨ k ∈ s.queued) := by
  obtain ⟨u, hu, hcase⟩ := enqueueRef_ok e
  have f := DispatchFrame.refInc hu
  have hqu : u.queued = s.queued := queued_congr f.txq f.params f.session
  have hub := refInc_buf hu hl
  rcases hcase with ⟨hroom, -, rfl⟩ | ⟨-, -, hd⟩
  · have hqt := (qEnq_room_queued (h := h) (hq.dispatch f) hroom).2
    have htb : ∀ k, (qEnq h u).2.buf k = u.buf k := fun k => by rw [qEnq_room hroom]; rfl
    refine ⟨fun k => ?_, fun k => ⟨?_, ?_, ?_⟩⟩
    · rw [htb, hub, hqt, hqu, List.count_append, List.count_singleton]
      by_cases hk : h = k
      · subst hk; simp; omega
      · simp [hk]
    · rw [htb, hub]
      split_ifs with hk
      · rw [hk]
      · exact Nat.le_succ _
    · rw [htb, hub]
      split_ifs with hk
      · rw [hk]
      · rfl
    · rw [hqt, hqu, List.mem_append, List.mem_singleton]
      exact Or.symm
  · have fd := DispatchFrame.refDec hd
    have hqt : t.queued = s.queued := (queued_congr fd.txq fd.params fd.session).trans hqu
    have htb := refDec_buf hd
    simp only [State.emit_buf, hub] at htb
    have htk : ∀ k, (t.buf k).refcount = (s.buf k).refcount ∧ (t.buf k).frameLength = (s.buf k).frameLength := by
      intro k
      rw [htb]
      by_cases hk : h = k
      · subst hk; simp
      · simp [hk]
    refine ⟨.of_eq (fun k => (htk k).1) hqt, fun k => ⟨?_, (htk k).2, ?_⟩⟩
    · rw [(htk k).1]
      exact Nat.le_succ _
    · rw [hqt]
      exact .inr

/-- A live buffer that holds a frame may be enqueued (R203). -/
theorem enqueueRef_owned {h : Handle} {s : State} (hs : QueueOwnsItsEntries s) (hk : h.toNat < s.params.poolBlocks)
    (hr : (s.buf h).refcount ≠ 0) (hm : (s.buf h).refcount < s.params.refMax)
    (h8 : minScan ≤ (s.buf h).frameLength.toNat) (h96 : (s.buf h).frameLength.toNat ≤ maxFrame) :
    ∃ st t, enqueueRef h s = .ok (st, t) ∧ QueueOwnsItsEntries t ∧ KeepsSpare s t ∧
      ∀ k, (t.buf k).refcount ≤ (s.buf k).refcount + 1 := by
  obtain ⟨st, t, e⟩ := enqueueRef_completes hr hm
  obtain ⟨hp, hq, -⟩ := id hs
  obtain ⟨hspare, hlen⟩ := enqueueRef_effect hq (State.lt_of_refcount hr) e
  have f := enqueueRef_frame e
  refine ⟨st, t, e, queueOwnsItsEntries_iff.2 ⟨?_, hq.enqueueRef hk e, fun k hkt => ?_⟩, hspare, fun k => (hlen k).1⟩
  · exact hp.keep f.sides.2.1 f.2 (hs.all.enqueueRef hp.closed rfl e)
  · have hc := hspare k
    obtain ⟨hle, -⟩ := hs.2.2 k
    obtain ⟨-, hfl, hmem⟩ := hlen k
    refine ⟨by omega, ?_⟩
    rw [hfl]
    rcases hmem hkt with rfl | hks
    · exact ⟨h8, h96⟩
    · exact (hs.backed k hks).2

/-- The buffer whose frame head is written holds a frame, whether it is queued or not (R202). -/
theorem QueueOwnsItsEntries.writeFrameHead {s : State} {h : Handle} (c pr : Byte) (hs : QueueOwnsItsEntries s)
    (hl : h.toNat < s.pool.length) (hp : payloadOk (s.buf h).payloadLength) :
    QueueOwnsItsEntries (s.writeFrameHead h c pr (s.buf h).payloadLength.toNat
      (frameLen s.gran (s.buf h).payloadLength.toNat)) ∧
    ((s.writeFrameHead h c pr (s.buf h).payloadLength.toNat
      (frameLen s.gran (s.buf h).payloadLength.toNat)).buf h).frameLength.toNat =
        frameLen s.gran (s.buf h).payloadLength.toNat := by
  obtain ⟨h1, h2⟩ := hp
  generalize (s.buf h).payloadLength.toNat = l at *
  obtain ⟨h8, h96, h4⟩ := frameLen_bounds s.gran h1 h2
  generalize frameLen s.gran l = fl at *
  have hbuf := writeFrameHead_buf s c pr l fl hl
  have hfl : ((s.writeFrameHead h c pr l fl).buf h).frameLength.toNat = fl := by
    rw [hbuf]
    simp only [byteOf, BitVec.toNat_ofNat, maxFrame] at *
    omega
  refine ⟨hs.dispatch (writeFrameHead_frame s h c pr l fl) ?_ fun k hk => ?_, hfl⟩
  · refine PoolAll.writeFrameHead hs.1.closed c pr hs.all h8 h96 h4 ?_
    simp only [maxPayload, headerLen, maxFrame] at *
    omega
  · obtain ⟨hc, hf⟩ := hs.backed k hk
    by_cases hkh : h = k
    · subst hkh
      rw [hfl]
      refine ⟨?_, h8, h96⟩
      rw [hbuf]
      exact hc
    · rw [writeFrameHead_other s c pr l fl hkh]
      exact ⟨hc, hf⟩

theorem writeFrameHead_refcount (s : State) (h : Handle) (c pr : Byte) (l fl : Nat) (k : Handle) :
    ((s.writeFrameHead h c pr l fl).buf k).refcount = (s.buf k).refcount := by
  by_cases hl : h.toNat < s.pool.length
  · by_cases hk : h = k
    · subst hk; rw [writeFrameHead_buf s c pr l fl hl]
    · rw [writeFrameHead_other s c pr l fl hk]
  · simp [State.writeFrameHead, State.setFrameLength, State.writeRange, State.buf_modifyBuf, hl]

/-- The drain takes an entry's reference away with the entry (R206). -/
theorem drainBody_keepsSpare {s : State} (hs : QueueOwnsItsEntries s) :
    ∃ r t, drainBody s = .ok (r, t) ∧ QueueOwnsItsEntries t ∧ KeepsSpare s t ∧
      ∀ k, (t.buf k).refcount ≤ (s.buf k).refcount := by
  obtain ⟨r, t, e, ht, -, hk⟩ := drainBody_owned hs
  refine ⟨r, t, e, ht, fun k => ?_, fun k => (hk k).1⟩
  obtain ⟨-, hsub⟩ := hk k
  obtain ⟨hs1, -⟩ := hs.2.2 k
  obtain ⟨ht1, -⟩ := ht.2.2 k
  omega

/-- An assembly that passes its checks completes, and the queue goes on owning its entries (R200 to R206). -/
theorem assembleBody_owned {h : Handle} {s : State} (c pr : Byte) (hs : QueueOwnsItsEntries s)
    (hlive : s.handleLive h) (hm : (s.buf h).refcount < s.params.refMax) (hp : payloadOk (s.buf h).payloadLength) :
    ∃ st t, assembleBody c pr h s = .ok (st, t) ∧ QueueOwnsItsEntries t ∧ KeepsSpare s t ∧
      ∀ k, (t.buf k).refcount ≤ (s.buf k).refcount + 1 := by
  obtain ⟨hk, hr⟩ := hlive
  obtain ⟨h8, h96, -⟩ := frameLen_bounds s.gran hp.1 hp.2
  obtain ⟨hv, hfl⟩ := hs.writeFrameHead c pr (State.lt_of_refcount hr) hp
  have f := writeFrameHead_frame s h c pr (s.buf h).payloadLength.toNat (frameLen s.gran (s.buf h).payloadLength.toNat)
  have hrc := writeFrameHead_refcount s h c pr (s.buf h).payloadLength.toNat
    (frameLen s.gran (s.buf h).payloadLength.toNat)
  have hbody := fun u st r t =>
    assembleBody_of (c := c) (pr := pr) (h := h) (s := s) (u := u) (st := st) (r := r) (t := t)
  generalize s.writeFrameHead h c pr (s.buf h).payloadLength.toNat
    (frameLen s.gran (s.buf h).payloadLength.toNat) = v at *
  obtain ⟨st, u, he, hu, hsu, hgu⟩ := enqueueRef_owned hv (by rw [f.params]; exact hk) (by rw [hrc]; exact hr)
    (by rw [hrc, f.params]; exact hm) (by rw [hfl]; exact h8) (by rw [hfl]; exact h96)
  obtain ⟨r, t, hd, ht, hst, hgt⟩ := drainBody_keepsSpare hu
  have hsv : KeepsSpare s v := .of_eq hrc (queued_congr f.txq f.params f.session)
  refine ⟨st, t, hbody u st r t he hd, ht, (hsv.trans hsu).trans hst, fun k => ?_⟩
  rw [← hrc]
  exact Nat.le_trans (hgt k) (hgu k)

/-! ### The transmit operations -/

theorem exec_assemble_owned {s : State} (c pr : Byte) (h : Handle) (hs : QueueOwnsItsEntries s) :
    ∃ t, exec (.assemble c pr h) s = .next t ∧ QueueOwnsItsEntries t := by
  by_cases hc : MayAssemble s c pr h
  · obtain ⟨-, hlive, hm, -, -, hp⟩ := assembleOk_iff.2 hc
    obtain ⟨st, t, e, ht, -⟩ := assembleBody_owned (s := s.startOp) c pr hs.startOp hlive hm hp
    exact ⟨_, exec_assemble_of_body hc e, ht.reply st .none⟩
  · exact ⟨_, refuses_assemble hc, hs.refused⟩

theorem exec_drain_owned {s : State} (hs : QueueOwnsItsEntries s) :
    ∃ t, exec .drain s = .next t ∧ QueueOwnsItsEntries t := by
  simp only [exec, execDrain]
  split_ifs
  · obtain ⟨r, t, e, ht, -⟩ := drainBody_owned hs.startOp
    rw [e]
    exact ⟨_, rfl, ht.reply _ _⟩
  · exact ⟨_, rfl, hs.refused⟩

/-- The mirror and the release that end a `TRANSMIT` (R232, R235) complete, and take away a reference that the queue
does not hold. -/
theorem mirror_release_owned {d : Nat} {h : Handle} {s : State} (hs : QueueOwnsItsEntries s)
    (hspare : s.queued.count h < (s.buf h).refcount) (hm : (s.buf h).refcount < s.params.refMax) :
    ∃ t u, mirror d h s = .ok t ∧ refDec h t = .ok u ∧ QueueOwnsItsEntries u := by
  have hl : h.toNat < s.pool.length := State.lt_of_refcount (by omega)
  obtain ⟨t, ht⟩ := deliver_completes (c := d) (h := h) (s := s) (fun _ => hm)
  obtain ⟨f, -, -⟩ := deliver_ok hl ht
  obtain ⟨hge, -⟩ := KeepsLive.deliver hl ht h (by omega)
  have hu := refDec_of_ne (h := h) (s := t) (by omega)
  refine ⟨t, _, ht, hu, (hs.deliver hl ht).refDec ?_ hu⟩
  rw [queued_congr f.txq f.params f.session]
  omega

/-- The parts of a `TRANSMIT` that passes its checks complete: the assembly leaves the caller's extra reference to the
mirror and the release (R235, R236). -/
theorem exec_transmit_owned {s : State} (c : Byte) (h : Handle) (hs : QueueOwnsItsEntries s) :
    ∃ t, exec (.transmit c h) s = .next t ∧ QueueOwnsItsEntries t := by
  simp only [exec, execTransmit]
  split_ifs with hc
  · obtain ⟨-, ⟨hk, hr⟩, hm, -, hp⟩ := hc
    obtain ⟨hsq, -⟩ := hs.2.2 h
    -- `u`: one more reference; `v`: assembled
    have hu := refInc_of_lt (h := h) (s := s.startOp) (by show (s.buf h).refcount < s.params.refMax; omega)
    have hub := refInc_buf hu (State.lt_of_refcount hr) h
    have fu := DispatchFrame.refInc hu
    have ou := hs.startOp.refInc hu
    generalize s.startOp.setRefcount h ((s.startOp.buf h).refcount + 1) = u at *
    rw [if_pos rfl, State.startOp_buf] at hub
    have huq : u.queued = s.queued := queued_congr (s := s) fu.txq fu.params fu.session
    have hup : u.params = s.params := fu.params
    obtain ⟨st, v, hv, ov, sv, gv⟩ := assembleBody_owned (h := h) c ((u.chanAt c.toNat).prio.setWidth 8) ou
      ⟨by rw [hup]; exact hk, by rw [hub]; exact Nat.succ_ne_zero _⟩
      (by rw [hub, hup]; show (s.buf h).refcount + 1 < s.params.refMax; omega) (by rw [hub]; exact hp)
    have hvp : v.params = s.params := (assembleBody_frame hv).params.trans hup
    have hsv := sv h
    have hgv := gv h
    simp only [hub, huq] at hsv hgv
    obtain ⟨w, x, hw, hx, ox⟩ := mirror_release_owned (d := s.params.debugOut) (h := h) ov (by omega)
      (by rw [hvp]; omega)
    simp only [hu, hv, hw, hx, bind, Except.bind]
    exact ⟨_, rfl, ox.reply _ _⟩
  · exact ⟨_, rfl, hs.refused⟩

/-! ### All operations -/

/-- A release gives back a reference that the queue does not hold (R144, R311). -/
theorem Backed.release {h : Handle} {s t : State} (hb : Backed s.queued s)
    (hr : (s.buf h).refcount ≠ 0 → s.queued.count h < (s.buf h).refcount) (e : exec (.release h) s = .next t) :
    Backed s.queued t := by
  rcases execRelease_next e with rfl | ⟨-, ⟨-, hne⟩, u, hu, rfl⟩
  · exact hb
  · have : Backed s.queued u := Backed.refDec (s := s.startOp) hb (hr hne) hu
    exact this

/-- A session begins with nothing queued (R250). -/
theorem Backed.init {g : Byte} {s t : State} (hb : Backed s.queued s) (e : exec (.init g) s = .next t) :
    Backed t.queued t := by
  rcases execInit_next e with rfl | ⟨-, gr, -, rfl⟩
  · exact hb
  · have hq : ((s.startOp.initSession gr).reply .ok .none).queued = [] := by
      simp [State.queued, State.queueCount]
    rw [hq]
    exact nofun

/-- Settles O55: the transmit operations by `assembleBody_owned` and the laws of the drain; every other operation
completes in a legal build, and but for a release and an `INIT` it keeps the live buffers and the queue. -/
theorem ownedReferencesPreventFaults : Obligations.OwnedReferencesPreventFaults := by
  intro i s hs hrel
  obtain ⟨hp, hq, hb⟩ := queueOwnsItsEntries_iff.1 hs
  cases hi : isTransmit i with
  | true =>
    cases i with
    | assemble c pr h => exact exec_assemble_owned c pr h hs
    | drain => exact exec_drain_owned hs
    | transmit c h => exact exec_transmit_owned c h hs
    | _ => cases hi
  | false =>
    obtain ⟨t, e⟩ := exec_completes_of_not_transmit hp.1 hi
    refine ⟨t, e, queueOwnsItsEntries_iff.2 ⟨hp.exec i s t e, hq.exec i s t e, ?_⟩⟩
    cases i with
    | init g => exact hb.init e
    | release h => rw [exec_queued hi nofun e]; exact hb.release (hrel h rfl) e
    | _ => rw [exec_queued hi nofun e]; exact hb.keepsLive (.exec hp hi nofun nofun e)

end Sys2Proof.Machine

/-! ## The checks of the session operations -/

namespace Sys2Proof.Machine

/-- Settles O15: each of these operations checks for a session first (R285). -/
theorem sessionOperationsRefusedOutsideActive : Obligations.SessionOperationsRefusedOutsideActive := by
  intro i s hi ha
  cases i with
  | freepool | alloc | rxpush | rxscan | rxbytes | drain => exact refuses_of (if_neg ha)
  | refinc | release | bufwr | bufrd | setlen | bufinfo | assemble | transmit =>
    exact refuses_of (if_neg fun ⟨hact, _⟩ => ha hact)
  | _ => cases hi

/-- Settles O17: each of these operations has the handle check among its checks. -/
theorem handleCheckRefuses : Obligations.HandleCheckRefuses := by
  intro i h s hi hbad
  have hdead : ¬ s.handleLive h := by
    rintro ⟨hlt, hne⟩
    rcases hbad with hge | hz
    · omega
    · exact hne hz
  cases i with
  | release | bufinfo =>
    cases hi
    exact refuses_of (if_neg fun ⟨_, hlive⟩ => hdead hlive)
  | refinc | bufwr | bufrd | setlen | assemble | transmit =>
    cases hi
    exact refuses_of (if_neg fun ⟨_, hlive, _⟩ => hdead hlive)
  | _ => cases hi

end Sys2Proof.Machine

/-! ## Operations on one buffer

`ALLOC`, `REFINC`, `RELEASE`, `BUFWR` and `SETLEN` change one buffer and answer `OK`; what they share is said once. -/

namespace Sys2Proof.Machine

/-- A byte reads alike where the buffer's data and the session are the same. -/
theorem readData_of_data {s t : State} {h : Handle} (hd : (t.buf h).data = (s.buf h).data)
    (hs : t.session = s.session) (off : Nat) : t.readData h off = s.readData h off := by
  simp only [State.readData, hd, hs]

/-- The answer is `OK` with result `r`, without events; buffer `h` has become `b`, and nothing else has changed. -/
structure ChangesBuffer (s t : State) (h : Handle) (b : Buf) (r : Result) : Prop where
  responds : Responds t .ok r
  events : t.events = []
  only : OnlyPoolChanged s t
  buf : t.buf h = b
  other : OtherBuffersSame s t h

/-- The reply after a change of buffer `h` alone. -/
theorem ChangesBuffer.of_dispatch {s u : State} {h : Handle} (r : Result) (f : DispatchFrame s.startOp u)
    (he : u.events = []) (ho : ∀ k, h ≠ k → u.buf k = s.buf k) :
    ChangesBuffer s (u.reply .ok r) h (u.buf h) r where
  responds := rfl
  events := he
  only := ⟨by rw [f.1]; rfl, f.2⟩
  buf := rfl
  other := fun k hk => .of_buf (ho k hk.symm) f.session

theorem ChangesBuffer.of_modifyBuf {s : State} {h : Handle} (f : Buf → Buf) (r : Result)
    (hl : h.toNat < s.pool.length) :
    ChangesBuffer s ((s.startOp.modifyBuf h f).reply .ok r) h (f (s.buf h)) r := by
  have hb : (s.startOp.modifyBuf h f).buf h = f (s.buf h) := State.buf_modifyBuf_self _ f hl
  rw [← hb]
  exact .of_dispatch r (.modifyBuf _ h f) rfl fun k hk => State.buf_modifyBuf_other _ f hk

section

variable {s t : State} {h : Handle} {b : Buf} {r : Result}

theorem ChangesBuffer.session (c : ChangesBuffer s t h b r) : t.session = s.session := by rw [c.only.1]

theorem ChangesBuffer.refcount (c : ChangesBuffer s t h b r) : (t.buf h).refcount = b.refcount := by rw [c.buf]

theorem ChangesBuffer.frameLength (c : ChangesBuffer s t h b r) : (t.buf h).frameLength = b.frameLength := by
  rw [c.buf]

theorem ChangesBuffer.payloadLength (c : ChangesBuffer s t h b r) : (t.buf h).payloadLength = b.payloadLength := by
  rw [c.buf]

theorem ChangesBuffer.readData (c : ChangesBuffer s t h b r) (hd : b.data = (s.buf h).data) (off : Nat) :
    t.readData h off = s.readData h off :=
  readData_of_data (by rw [c.buf, hd]) c.session off

end

/-! ### ALLOC (R142) -/

/-- The handle that the pool's search finds is the lowest-numbered free one. -/
theorem LowestFree.firstFree {s : State} {h : Handle} (hp : PoolInv s) (ha : s.life = .active)
    (hf : LowestFree s h) : s.firstFree = some h := by
  obtain ⟨hlt, hz, hlow⟩ := hf
  have hl : h.toNat < s.pool.length := by rw [hp.length ha]; exact hlt
  cases e : s.firstFree with
  | none => exact absurd hz (firstFree_none.1 e _ (State.buf_mem hl))
  | some k =>
    obtain ⟨-, kz, klow⟩ := firstFree_some (hp.length_le ha) e
    rcases Nat.lt_trichotomy k.toNat h.toNat with g | g | g
    · exact absurd kz (hlow k g)
    · rw [BitVec.eq_of_toNat_eq g]
    · exact absurd hz (klow h g)

/-- The pool's search finds nothing where no handle names a free buffer. -/
theorem firstFree_eq_none {s : State} (hp : PoolInv s) (ha : s.life = .active)
    (hn : ∀ h : Handle, h.toNat < s.params.poolBlocks → (s.buf h).refcount ≠ 0) : s.firstFree = none := by
  refine firstFree_none.2 fun b hb => ?_
  obtain ⟨h, hl, rfl⟩ := State.mem_buf (hp.length_le ha) hb
  exact hn h (by rw [← hp.length ha]; exact hl)

theorem exec_alloc_of_some {s : State} {h : Handle} (ha : s.life = .active) (hf : s.firstFree = some h) :
    exec .alloc s = .next ((s.startOp.takeBuf h).reply .ok (.handle h)) := by
  simp only [exec, execAlloc, if_pos ha, hf]

theorem exec_alloc_of_none {s : State} (ha : s.life = .active) (hf : s.firstFree = none) :
    exec .alloc s = .next (s.startOp.reply .resourceExhausted .none) := by
  simp only [exec, execAlloc, if_pos ha, hf]

/-- Settles O18: the search finds the lowest-numbered free buffer, and fails where there is none. -/
theorem allocTakesLowestFreeBuffer : Obligations.AllocTakesLowestFreeBuffer := by
  intro s hp ha
  refine ⟨fun h hlt hz hlow => ?_, fun hn => exec_alloc_of_none ha (firstFree_eq_none hp ha hn)⟩
  have hf : s.firstFree = some h := LowestFree.firstFree hp ha ⟨hlt, hz, hlow⟩
  have c := ChangesBuffer.of_modifyBuf (fun b => { b with refcount := 1, frameLength := 0, payloadLength := 0 })
    (.handle h) (firstFree_lt hf)
  exact ⟨_, exec_alloc_of_some ha hf, c.responds, c.events, c.only, c.refcount, c.frameLength,
    c.payloadLength, c.readData rfl, c.other⟩

/-! ### REFINC and RELEASE (R143, R144) -/

/-- Settles O19: below `REF_MAX` the count is one up; at `REF_MAX` the check for room fails. -/
theorem refincAddsOneReference : Obligations.RefincAddsOneReference := by
  intro h s ha hlt hne
  refine ⟨fun hm => ?_, fun hmax => refuses_of (if_neg fun ⟨_, _, hm⟩ => by omega)⟩
  have e : exec (.refinc h) s = .next ((s.startOp.setRefcount h ((s.buf h).refcount + 1)).reply .ok .none) := by
    simp only [exec, execRefinc]
    rw [if_pos ⟨ha, ⟨hlt, hne⟩, hm⟩, refInc_of_lt (s := s.startOp) hm]
    rfl
  have c := ChangesBuffer.of_modifyBuf (fun b => { b with refcount := (s.buf h).refcount + 1 }) .none
    (State.lt_of_refcount hne)
  exact ⟨_, e, c.responds, c.events, c.only, c.refcount, c.frameLength, c.payloadLength, c.readData rfl, c.other⟩

/-- Settles O20: `RefDec` of a live buffer, whose law tells the last reference from the others. -/
theorem releaseDropsOneReferenceAndScrubs : Obligations.ReleaseDropsOneReferenceAndScrubs := by
  intro h s ha hlt hne
  have hd := refDec_of_ne (h := h) (s := s.startOp) hne
  have hb := refDec_buf hd
  have c := ChangesBuffer.of_dispatch (s := s) (h := h) .none (.refDec hd) (by rw [(refDec_frame hd).1]; rfl)
    fun k hk => by rw [hb, if_neg hk]; rfl
  have e : exec (.release h) s = complete (do let t ← refDec h s.startOp; pure (t.reply .ok .none)) :=
    if_pos ⟨ha, hlt, hne⟩
  rw [hd] at e
  rw [hb, if_pos rfl] at c
  refine ⟨_, e, c.responds, c.events, c.only, ?_, c.frameLength, c.payloadLength, fun hlive => ?_,
    fun hz off ho => ?_, c.other⟩
  · rw [c.refcount]
    exact Nat.succ_pred hne
  · rw [c.refcount] at hlive
    refine c.readData (if_neg fun h1 => hlive ?_)
    show (s.startOp.buf h).refcount - 1 = 0
    rw [h1]
  · have h1 : (s.startOp.buf h).refcount = 1 := by
      rw [c.refcount] at hz
      simp only [State.startOp_buf] at *
      omega
    rw [State.readData, c.buf]
    simp only [if_pos h1, scrubbed_read]
    rw [if_pos ho]
    rfl

/-! ### BUFWR, BUFRD, SETLEN and BUFINFO (R146 to R149) -/

/-- Settles O21: one write to the buffer's data; an offset above 95 fails its check. -/
theorem bufwrWritesOneByte : Obligations.BufwrWritesOneByte := by
  intro off val h s ha hlt hne
  refine ⟨fun ho => ?_, fun ho => refuses_of (if_neg fun ⟨_, _, hoff⟩ => by unfold offsetOk maxFrame at hoff; omega)⟩
  have e : exec (.bufwr off val h) s = .next ((s.startOp.writeData h off.toNat val).reply .ok .none) :=
    if_pos ⟨ha, ⟨hlt, hne⟩, Nat.lt_succ_of_le ho⟩
  have hl := State.lt_of_refcount hne
  have c := ChangesBuffer.of_modifyBuf (fun b => { b with data := Store.write b.data off.toNat val }) .none hl
  have hread := readData_writeData s.startOp off.toNat val hl
  refine ⟨_, e, c.responds, c.events, c.only, ?_, fun o hoff => ?_, c.refcount, c.frameLength, c.payloadLength,
    c.other⟩
  · exact (hread _).trans (if_pos rfl)
  · exact (hread o).trans (if_neg hoff.symm)

/-- Settles O22: the checks pass up to offset 95, and the byte is in the response. -/
theorem bufrdReturnsTheByte : Obligations.BufrdReturnsTheByte := by
  intro off h s ha hlt hne
  exact ⟨fun ho => if_pos ⟨ha, ⟨hlt, hne⟩, Nat.lt_succ_of_le ho⟩,
    fun ho => refuses_of (if_neg fun ⟨_, _, hoff⟩ => by unfold offsetOk maxFrame at hoff; omega)⟩

/-- Settles O23: one change of the payload length; a length above 92 fails its check. -/
theorem setlenSetsPayloadLengthOnly : Obligations.SetlenSetsPayloadLengthOnly := by
  intro len h s ha hlt hne
  refine ⟨fun hlen => ?_,
    fun hlen => refuses_of (if_neg fun ⟨_, _, hok⟩ => by unfold lengthOk maxPayload at hok; omega)⟩
  have e : exec (.setlen len h) s = .next ((s.startOp.setPayloadLength h len).reply .ok .none) :=
    if_pos ⟨ha, ⟨hlt, hne⟩, hlen⟩
  have c := ChangesBuffer.of_modifyBuf (fun b => { b with payloadLength := len }) .none (State.lt_of_refcount hne)
  exact ⟨_, e, c.responds, c.events, c.only, c.payloadLength, c.frameLength, c.refcount, c.readData rfl, c.other⟩

/-- Settles O24: the checks pass, and the fields are in the response. -/
theorem bufinfoReturnsTheFields : Obligations.BufinfoReturnsTheFields := by
  intro h s ha hlt hne
  exact if_pos ⟨ha, hlt, hne⟩

/-! ### FREEPOOL (R145) -/

/-- The outstanding handles are those of the live buffers. -/
theorem mem_outstanding {s : State} (hN : s.pool.length ≤ 65536) {h : Handle} :
    h ∈ s.outstanding ↔ h.toNat < s.pool.length ∧ (s.buf h).refcount ≠ 0 := by
  simp only [State.outstanding, List.mem_filter, List.mem_map, List.mem_range, bne_iff_ne, and_congr_left_iff]
  intro _
  constructor
  · rintro ⟨i, hi, rfl⟩
    rw [BitVec.toNat_ofNat, Nat.mod_eq_of_lt (by omega)]
    exact hi
  · intro hl
    exact ⟨h.toNat, hl, BitVec.ofNat_toNat .. |>.trans (BitVec.setWidth_eq h)⟩

/-- The outstanding handles are listed in ascending order. -/
theorem outstanding_pairwise {s : State} (hN : s.pool.length ≤ 65536) :
    s.outstanding.Pairwise (fun a b => a.toNat < b.toNat) := by
  refine List.Pairwise.filter _ (List.pairwise_map.2 (List.Pairwise.imp_of_mem ?_ List.pairwise_lt_range))
  intro i j hi hj hij
  rw [List.mem_range] at hi hj
  rw [BitVec.toNat_ofNat, BitVec.toNat_ofNat, Nat.mod_eq_of_lt (by omega), Nat.mod_eq_of_lt (by omega)]
  exact hij

/-- Settles O14: the list of outstanding handles decides, and names the live buffers in ascending order. -/
theorem freepoolTearsDownOrReports : Obligations.FreepoolTearsDownOrReports := by
  intro s hp
  refine ⟨fun ha => sessionOperationsRefusedOutsideActive .freepool s rfl ha, fun ha hz => ?_,
    fun ha ⟨h, hlt, hne⟩ => ?_⟩
  all_goals
    have hmem : ∀ k, k ∈ s.outstanding ↔ k.toNat < s.params.poolBlocks ∧ (s.buf k).refcount ≠ 0 := fun k => by
      rw [← hp.length ha]
      exact mem_outstanding (hp.length_le ha)
  · have hnone : s.outstanding = [] :=
      List.eq_nil_iff_forall_not_mem.2 fun k hk => by
        obtain ⟨hlt, hne⟩ := (hmem k).1 hk
        exact hne (hz k hlt)
    simp only [exec, execFreepool, if_pos ha, if_pos hnone]
    rfl
  · have hsome : s.outstanding ≠ [] := List.ne_nil_of_mem ((hmem h).2 ⟨hlt, hne⟩)
    refine ⟨s.outstanding, ?_, outstanding_pairwise (hp.length_le ha), hmem⟩
    simp only [exec, execFreepool, if_pos ha, if_neg hsome]
    rfl

end Sys2Proof.Machine

/-! ## The delivery of a frame

A scan step that finds a frame takes the lowest-numbered free buffer, fills and dispatches it (R183). What it does to
the receive side is the same for every receiver; what it does to the buffer is read off `muxProcessRx_ok`. -/

namespace Sys2Proof.Machine

/-- What a frame at the scan position says about the step's tests (R96, R176). -/
theorem FrameAtHead.sofAtHead {s : State} {fl : Nat} (h : FrameAtHead s fl) : SofAtHead s fl := by
  obtain ⟨h8, hexp, hsof, hfl, -⟩ := h
  exact ⟨h8, hexp, hsof, hfl⟩

/-- The length of a frame at the scan position is legal (R94). -/
theorem FrameAtHead.bounds {s : State} {fl : Nat} (h : FrameAtHead s fl) : 8 ≤ fl ∧ fl ≤ maxFrame := by
  obtain ⟨-, -, -, hfl, hmax, -⟩ := h
  exact ⟨by omega, hmax⟩

/-- A scan step that finds a frame delivers it and releases its bytes (R176, R183). -/
theorem scanStep_frameAtHead {s : State} {fl : Nat} (hp : PoolInv s) (hf : FrameAtHead s fl) :
    ∃ u, deliverIntoPool fl (beforeDelivery s) = .ok u ∧
      scanStep s = .ok (.again, (u.ringRelease fl).setExpected 0) := by
  have h4 := hp.refMax
  obtain ⟨u, hu⟩ := deliverIntoPool_completes (fl := fl) (s := beforeDelivery s)
    (by show 3 ≤ s.params.refMax; omega)
  refine ⟨u, hu, ?_⟩
  have hsof := hf.sofAtHead
  obtain ⟨-, -, -, -, hmax, hav, hsum⟩ := hf
  rw [scanStep_sof hsof, if_neg (by omega), if_neg (by omega), if_neg (not_not.2 hsum), hu]

/-- What the delivery of a frame of `fl` bytes with sequence value `seq` does to the receive side, whether a receiver
gets the frame or not, and what it never touches (R182, R183, R290). -/
structure FrameConsumed (s t : State) (fl : Nat) (seq : BitVec 2) : Prop where
  ring : t.ring = { s.ring with current := s.ring.current + BitVec.ofNat 8 fl }
  expected : t.expected = 0
  rxSeq : t.rxSeq = seq + 1
  lastValid : t.lastValid = true
  skipped : t.skipped = 0
  ignoreSkipped : t.ignoreSkipped = (afterSof s).ignoreSkipped
  resp : t.resp = s.resp
  transmit : SameTransmitSide s t
  configuration : SameConfiguration s t

theorem frameConsumed {s u : State} {fl : Nat} (f : DispatchFrame (beforeDelivery s) u) :
    FrameConsumed s ((u.ringRelease fl).setExpected 0) fl (seqOf (s.ringRead 1)) := by
  obtain ⟨-, htx, hconf⟩ := f.sides
  obtain ⟨hu, -⟩ := f
  exact ⟨by rw [hu]; rfl, rfl, by rw [hu]; rfl, by rw [hu]; rfl, by rw [hu]; rfl, by rw [hu]; rfl, by rw [hu]; rfl,
    htx, hconf⟩

/-- The buffer that a frame at the scan position is copied into, ready for the dispatch (R142, R183). -/
def filled (s : State) (h : Handle) (fl : Nat) : State := ((beforeDelivery s).takeBuf h).fillFromRing h fl

section Filled

variable {s : State} {h : Handle} {fl : Nat}

theorem filled_frame (s : State) (h : Handle) (fl : Nat) : DispatchFrame (beforeDelivery s) (filled s h fl) :=
  fillFromRing_frame (beforeDelivery s) h fl

theorem filled_events (s : State) (h : Handle) (fl : Nat) : (filled s h fl).events =
    s.events ++ skippedReport s ++ sequenceReport s (seqOf (s.ringRead 1)) := rfl

theorem filled_params (s : State) (h : Handle) (fl : Nat) : (filled s h fl).params = s.params :=
  (filled_frame s h fl).params

theorem filled_chanAt (s : State) (h : Handle) (fl c : Nat) : (filled s h fl).chanAt c = s.chanAt c := by
  simp only [State.chanAt, (filled_frame s h fl).chan, beforeDelivery]

theorem filled_refcount (hl : h.toNat < s.pool.length) : ((filled s h fl).buf h).refcount = 1 := by
  rw [filled, fillFromRing_buf (s := beforeDelivery s) hl]

theorem filled_lengths (hl : h.toNat < s.pool.length) (hfl : 8 ≤ fl ∧ fl ≤ maxFrame) :
    ((filled s h fl).buf h).frameLength.toNat = fl ∧ ((filled s h fl).buf h).payloadLength.toNat = fl - 4 := by
  obtain ⟨h8, h96⟩ := hfl
  rw [filled, fillFromRing_buf (s := beforeDelivery s) hl]
  simp only [byteOf, BitVec.toNat_ofNat, maxFrame] at *
  omega

theorem filled_read (hl : h.toNat < s.pool.length) (off : Nat) :
    (filled s h fl).readData h off = if off < fl then s.ringRead off else s.readData h off :=
  fillFromRing_read (s := beforeDelivery s) hl off

/-- The channel that the dispatch reads in the buffer is the one in the frame (R230). -/
theorem filled_channel (hl : h.toNat < s.pool.length) (h8 : 8 ≤ fl) :
    channelOf ((filled s h fl).readData h 2) = channelOf (s.ringRead 2) := by
  rw [filled_read hl, if_pos (by omega)]

/-- The payload that the dispatch reads in the buffer is the one in the frame (R231). -/
theorem filled_payload (hl : h.toNat < s.pool.length) (hfl : 8 ≤ fl ∧ fl ≤ maxFrame) :
    (filled s h fl).readRange h headerLen ((filled s h fl).buf h).payloadLength.toNat = s.ringRange 3 (fl - 4) := by
  obtain ⟨h8, h96⟩ := hfl
  exact fillFromRing_payload (s := beforeDelivery s) hl (by omega) h96

/-- The delivery of the filled buffer, in terms of the frame's bytes (R231). -/
theorem deliveryEvents_filled (hl : h.toNat < s.pool.length) (hfl : 8 ≤ fl ∧ fl ≤ maxFrame) (c : Nat) :
    ((s.chanAt c).kind = .none → deliveryEvents (filled s h fl) c h = []) ∧
    ((s.chanAt c).kind = .buffer →
      deliveryEvents (filled s h fl) c h = [.deliverBuffer c (s.chanAt c).ctx h]) ∧
    ((s.chanAt c).kind = .bytes →
      deliveryEvents (filled s h fl) c h = [.deliverBytes c (s.chanAt c).ctx (s.ringRange 3 (fl - 4))]) := by
  refine ⟨fun hk => ?_, fun hk => ?_, fun hk => ?_⟩ <;>
    simp only [deliveryEvents, filled_chanAt, hk, filled_payload hl hfl]

end Filled

/-- The one reference of a filled buffer is released: it is free and scrubbed, and keeps its lengths (R151; D36). -/
theorem refDec_filled {s u v : State} {fl : Nat} {h : Handle} (hl : h.toNat < s.pool.length)
    (hfl : 8 ≤ fl ∧ fl ≤ maxFrame) (hb : u.buf h = (filled s h fl).buf h) (e : refDec h u = .ok v) :
    FreeAndScrubbed v h ∧ ReceivedLengths v h fl := by
  have hv := refDec_buf e h
  have hp := (DispatchFrame.refDec e).params
  have h1 : (u.buf h).refcount = 1 := by rw [hb]; exact filled_refcount hl
  rw [if_pos rfl, if_pos h1, h1, hb] at hv
  refine ⟨⟨by rw [hv], fun off ho => ?_⟩, ?_⟩
  · simp only [State.readData, hv, scrubbed_read, hp]
    rw [if_pos ho]
    rfl
  · simp only [ReceivedLengths, hv]
    exact filled_lengths hl hfl

/-- What the dispatch of a filled buffer can do, by the receiver of the frame's channel (R230). -/
theorem muxProcessRx_filled {s u : State} {fl : Nat} {h : Handle} (hl : h.toNat < s.pool.length)
    (hfl : 8 ≤ fl ∧ fl ≤ maxFrame) (e : muxProcessRx h (filled s h fl) = .ok u) (ch : BitVec 5)
    (hch : ch = channelOf (s.ringRead 2)) :
    ((21 ≤ ch.toNat ∨ (s.chanAt ch.toNat).kind = .none) ∧
        u.events = (filled s h fl).events ++ [Event.rxNoReceiver ch] ∧ FreeAndScrubbed u h ∧ ReceivedLengths u h fl) ∨
    (ch.toNat < 21 ∧ (s.chanAt ch.toNat).kind = .bytes ∧
        u.events = (filled s h fl).events ++
          [Event.deliverBytes ch.toNat (s.chanAt ch.toNat).ctx (s.ringRange 3 (fl - 4))] ∧
        FreeAndScrubbed u h ∧ ReceivedLengths u h fl) ∨
    (ch.toNat < 21 ∧ (s.chanAt ch.toNat).kind = .buffer ∧
        u.events = (filled s h fl).events ++ [Event.deliverBuffer ch.toNat (s.chanAt ch.toNat).ctx h] ++
          deliveryEvents (filled s h fl) s.params.debugIn h ∧
        u.buf h = { (filled s h fl).buf h with
          refcount := if (s.chanAt s.params.debugIn).kind = .buffer then 2 else 1 }) := by
  have hchan := hch.trans (filled_channel hl hfl.1).symm
  obtain ⟨-, -, hcase⟩ := muxProcessRx_ok e (by rw [filled_refcount hl]; exact Nat.one_ne_zero) ch hchan
  obtain ⟨-, hbuffer, hbytes⟩ := deliveryEvents_filled hl hfl ch.toNat
  simp only [filled_chanAt, filled_params] at hcase
  rcases hcase with ⟨hno, hev, hdec⟩ | ⟨hlt, hk, hev, v, hvb, -, hdec⟩ | ⟨hlt, hk, hev, hbuf⟩
  · exact .inl ⟨hno, hev, refDec_filled hl hfl (State.emit_buf _ _ _) hdec⟩
  · rw [hbytes hk] at hev
    exact .inr (.inl ⟨hlt, hk, hev, refDec_filled hl hfl hvb hdec⟩)
  · rw [hbuffer hk] at hev
    refine .inr (.inr ⟨hlt, hk, hev, ?_⟩)
    rw [hbuf, filled_refcount hl]
    split_ifs <;> rfl

/-- With a free buffer, the lowest-numbered one is filled and dispatched, and no other one changes (R142, R183). -/
theorem deliverIntoPool_filled {s u : State} {fl : Nat} {h : Handle} (hp : PoolInv s) (ha : s.life = .active)
    (hlow : LowestFree s h) (hu : deliverIntoPool fl (beforeDelivery s) = .ok u) :
    muxProcessRx h (filled s h fl) = .ok u ∧ h.toNat < s.pool.length ∧ OtherBuffersSame s u h := by
  have hfree : (beforeDelivery s).firstFree = some h := hlow.firstFree hp ha
  have hother : ∀ k, h ≠ k → u.buf k = s.buf k := fun k hk =>
    deliverIntoPool_other (s := beforeDelivery s) hu hfree hk
  refine ⟨?_, firstFree_lt hfree, fun k hk => .of_buf (hother k hk.symm) (deliverIntoPool_frame hu).session⟩
  simp only [deliverIntoPool, hfree] at hu
  exact hu

/-- Settles O32: the dispatch to a copied-bytes receiver. -/
theorem scanDeliversToBytesReceiver : Obligations.ScanDeliversToBytesReceiver := by
  intro s fl ch seq h hp ha hf hch hseq hlt hkind hlow
  subst hseq
  obtain ⟨u, hu, hstep⟩ := scanStep_frameAtHead hp hf
  obtain ⟨hmux, hl, hother⟩ := deliverIntoPool_filled hp ha hlow hu
  have f := deliverIntoPool_frame hu
  have c := frameConsumed (fl := fl) f
  rcases muxProcessRx_filled hl hf.bounds hmux ch hch with
    ⟨hno | hno, -⟩ | ⟨-, -, hev, hfree, hlen⟩ | ⟨-, hk, -⟩
  · omega
  · rw [hkind] at hno
    cases hno
  · exact ⟨_, hstep, hev, c.ring, c.expected, c.rxSeq, c.lastValid, c.skipped, c.ignoreSkipped, hfree, hlen, f.2,
      hother, c.resp, c.transmit, c.configuration⟩
  · rw [hkind] at hk
    cases hk

/-- Settles O33: the dispatch to a whole-buffer receiver, with the mirror by the kind of the debug-input channel. -/
theorem scanDeliversToBufferReceiver : Obligations.ScanDeliversToBufferReceiver := by
  intro s fl ch seq h d hp ha hf hch hseq hlt hkind hd hlow
  subst hseq hd
  obtain ⟨u, hu, hstep⟩ := scanStep_frameAtHead hp hf
  obtain ⟨hmux, hl, hother⟩ := deliverIntoPool_filled hp ha hlow hu
  have f := deliverIntoPool_frame hu
  have hfl := hf.bounds
  have c := frameConsumed (fl := fl) f
  rcases muxProcessRx_filled hl hfl hmux ch hch with ⟨hno | hno, -⟩ | ⟨-, hk, -⟩ | ⟨-, -, hev, hbuf⟩
  · omega
  · rw [hkind] at hno
    cases hno
  · rw [hkind] at hk
    cases hk
  · have hdata : (u.buf h).data = ((filled s h fl).buf h).data := by rw [hbuf]
    have hread : ∀ off, u.readData h off = if off < fl then s.ringRead off else s.readData h off := fun off => by
      rw [← filled_read hl]
      exact readData_of_data (s := filled s h fl) hdata f.session off
    obtain ⟨hnone, hbuffer, hbytes⟩ := deliveryEvents_filled hl hfl s.params.debugIn
    refine ⟨_, hstep, hev.trans (congrArg _ ?_), c.ring, c.expected, c.rxSeq, c.lastValid, c.skipped, c.ignoreSkipped,
      congrArg Buf.refcount hbuf, ?_, ?_, fun off ho => ?_, f.2, hother, c.resp, c.transmit, c.configuration⟩
    · cases hk : (s.chanAt s.params.debugIn).kind with
      | none => exact hnone hk
      | buffer => exact hbuffer hk
      | bytes => exact hbytes hk
    · have hlen := filled_lengths hl hfl
      exact ⟨(congrArg (fun b => b.frameLength.toNat) hbuf).trans hlen.1,
        (congrArg (fun b => b.payloadLength.toNat) hbuf).trans hlen.2⟩
    · refine List.map_congr_left fun i hi => ?_
      rw [List.mem_range] at hi
      exact (hread _).trans (if_pos (by omega))
    · exact (hread off).trans (if_neg (by omega))

/-- Settles O34: without a free buffer the delivery is one log event; without a receiver the dispatch releases the
buffer it filled. -/
theorem scanDropsFrameWithoutBufferOrReceiver : Obligations.ScanDropsFrameWithoutBufferOrReceiver := by
  intro s fl ch seq hp ha hf hch hseq hdrop
  subst hseq
  obtain ⟨u, hu, hstep⟩ := scanStep_frameAtHead hp hf
  have c := frameConsumed (fl := fl) (deliverIntoPool_frame hu)
  refine ⟨_, hstep, fun hnone => ?_, fun h hlow => ?_, c.ring, c.expected, c.rxSeq, c.lastValid, c.skipped,
    c.ignoreSkipped, c.resp, c.transmit, c.configuration⟩
  · have hfull : (beforeDelivery s).firstFree = none := firstFree_none.2 hnone
    simp only [deliverIntoPool, hfull] at hu
    cases hu
    exact ⟨by simp [beforeDelivery], rfl⟩
  · obtain ⟨hmux, hl, hother⟩ := deliverIntoPool_filled hp ha hlow hu
    have hno : 21 ≤ ch.toNat ∨ (s.chanAt ch.toNat).kind = .none := by
      rcases hdrop with hfull | hno
      · obtain ⟨-, hz, -⟩ := hlow
        exact absurd hz (hfull _ (State.buf_mem hl))
      · exact hno
    rcases muxProcessRx_filled hl hf.bounds hmux ch hch with ⟨-, hev, hfree, hlen⟩ | ⟨hlt, hk, -⟩ | ⟨hlt, hk, -⟩
    · rw [filled_events] at hev
      exact ⟨hev, hfree, hlen, (deliverIntoPool_frame hu).2, hother⟩
    · exact absurd hno (by simp [hk]; omega)
    · exact absurd hno (by simp [hk]; omega)

end Sys2Proof.Machine

/-! ## The drain of one frame -/

namespace Sys2Proof.Machine

/-! ### The stamped frame (R206) -/

theorem stampedFrame_congr {s t : State} (hp : t.pool = s.pool) (hs : t.session = s.session) (h : Handle)
    (q : BitVec 2) : t.stampedFrame h q = s.stampedFrame h q := by
  simp only [State.stampedFrame, State.readData_congr hp hs, State.readRange_congr hp hs, State.buf_congr hp]

/-- A stamped frame sums to 0 (R130). -/
theorem stampedFrame_sum (s : State) (h : Handle) (q : BitVec 2) :
    ((s.stampedFrame h q).map BitVec.toNat).sum % 256 = 0 :=
  checksum_sum _

theorem stampedFrame_length {s : State} {h : Handle} (h8 : minScan ≤ (s.buf h).frameLength.toNat) (q : BitVec 2) :
    (s.stampedFrame h q).length = (s.buf h).frameLength.toNat := by
  simp only [minScan] at h8
  simp only [State.stampedFrame, List.length_append, List.length_cons, List.length_nil, readRange_length]
  omega

/-- Between its first byte and its last a stamped frame differs from the buffer in byte 1 alone. -/
theorem stampedFrame_get {s : State} {h : Handle} (q : BitVec 2) {off : Nat} (h1 : off ≠ 1)
    (hlt : off < (s.buf h).frameLength.toNat - 1) : (s.stampedFrame h q)[off]? = some (s.readData h off) := by
  simp only [State.stampedFrame]
  match off with
  | 0 => rfl
  | 1 => exact absurd rfl h1
  | off + 2 =>
    simp only [List.cons_append, List.nil_append, List.getElem?_cons_succ]
    rw [List.getElem?_append_left (by rw [readRange_length]; omega), readRange_get _ _ _ _ _ (by omega),
      Nat.add_comm 2 off]

/-- The sequence bits of a stamped frame (R206). -/
theorem stampedFrame_seq (s : State) (h : Handle) (q : BitVec 2) :
    (s.stampedFrame h q)[1]? = some ((s.readData h 1 &&& 0xFC) + q.setWidth 8) := rfl

/-- A buffer that keeps a reference holds the frame that was sent (R206). -/
theorem drainOne_holds {h : Handle} {s t : State} (e : drainOne h s = .ok t) (hne : (t.buf h).refcount ≠ 0) :
    t.readRange h 0 (s.buf h).frameLength.toNat = s.stampedFrame h s.txSeq := by
  have hl := drainOne_live e
  obtain ⟨h8, -, -⟩ := drainOne_ok e
  obtain ⟨f, -, -, -, -, -, hrc, -, -, hdata, -⟩ := drainOne_spec e hl
  rw [if_neg (by omega)] at hdata
  rw [← stampFrame_stampedFrame s hl h8]
  exact List.map_congr_left fun i _ =>
    readData_of_data hdata (f.session.trans (stampFrame_frame s h _).session.symm) _

/-! ### DRAIN (R205) -/

theorem QueueInv.queued_eq_nil {s : State} (h : QueueInv s) : s.queued = [] ↔ s.txq.rd = s.txq.wr := by
  obtain ⟨-, hr, hw, -⟩ := h
  rw [← List.length_eq_zero_iff, queued_length, queueCount_eq_zero hr hw]

/-- A draw leaves the queue and what it owns alone (R263). -/
theorem QueueOwnsItsEntries.afterDraw {s : State} (hs : QueueOwnsItsEntries s) : QueueOwnsItsEntries s.afterDraw :=
  hs.congr (by simp) (TransmitFrame.afterDraw s).sides.2.1 (by simp)

/-- The drain of a queue of one entry is one turn (R206). -/
theorem drainBody_one {s : State} {h : Handle} (hs : QueueOwnsItsEntries s) (hq : s.queued = [h])
    (hlock : s.nextAnswer = .ok) :
    ∃ u, drainBody s = .ok ({ locked := true, count := 1 }, u) ∧
      DrainTurn s.afterDraw u h s.afterDraw.nextAnswer ∧ u.queued = [] ∧
      ((u.buf h).refcount ≠ 0 →
        u.readRange h 0 (s.buf h).frameLength.toNat = s.stampedFrame h s.txSeq) := by
  have hs' := hs.afterDraw
  have hq' : s.afterDraw.queued = [h] := by
    rw [← hq]
    exact queued_congr (by simp) (by simp) (by simp)
  obtain ⟨-, hinv, -⟩ := id hs'
  have hne : s.afterDraw.txq.rd ≠ s.afterDraw.txq.wr := by
    rw [Ne, ← hinv.queued_eq_nil, hq']
    exact List.cons_ne_nil _ _
  obtain ⟨u, hu, T⟩ := drain_turn hs' hne
  obtain ⟨hslot, hempty⟩ := List.cons.inj (hq'.symm.trans T.queued)
  rw [← hslot] at hu T
  obtain ⟨-, hinvu, -⟩ := T.owns
  have hend : u.txq.rd = u.txq.wr := hinvu.queued_eq_nil.1 hempty.symm
  refine ⟨u, ?_, T, hempty.symm, fun hrc => ?_⟩
  · have hloop : drainLoop maxTxPerDrain 0 s.afterDraw = .ok (1, u) := by
      rw [drainLoop_turn hne, ← hslot, hu]
      exact drainLoop_empty hend
    simp only [drainBody, hlock, hloop]
  · have hpool : (qDeq s.afterDraw).2.pool = s.pool := by rw [qDeq_some hne]; simp
    have hsess : (qDeq s.afterDraw).2.session = s.session := by rw [qDeq_some hne]; simp
    have hseq : (qDeq s.afterDraw).2.txSeq = s.txSeq := by rw [qDeq_some hne]; simp
    have hread := drainOne_holds hu hrc
    rw [State.buf_congr hpool, stampedFrame_congr hpool hsess, hseq] at hread
    exact hread

/-- Settles O43: one turn of the drain, whose event, answer and reference `DrainTurn` gives. -/
theorem drainSendsOneQueuedFrame : Obligations.DrainSendsOneQueuedFrame := by
  intro s h a fl hs ha hq hfl hlock hanswer
  obtain ⟨u, hu, T, hempty, hholds⟩ := drainBody_one (h := h) hs.startOp hq hlock
  have hmem : h ∈ s.queued := by rw [hq]; exact List.mem_singleton_self h
  obtain ⟨-, h8, -⟩ := hs.backed h hmem
  have e : exec .drain s = .next (u.reply .ok (.sent 1)) := by
    simp only [exec, execDrain, if_pos ha, hu]
    rfl
  have f : TransmitFrame s.startOp u := (TransmitFrame.afterDraw s.startOp).trans T.frame
  obtain ⟨hrecv, hconf, -⟩ := f.sides
  -- the state of the turn differs from `s` in the draws, the events and the response alone
  have hbuf : ∀ k, s.startOp.afterDraw.buf k = s.buf k := fun k => State.buf_congr (s := s) (by simp) k
  have hread : ∀ k off, s.startOp.afterDraw.readData k off = s.readData k off := fun k off =>
    State.readData_congr (s := s) (by simp) (by simp) k off
  have ha' : s.startOp.afterDraw.nextAnswer = a := by rw [afterDraw_startOp]; exact hanswer
  have hev : u.events = s.transmissions s.txSeq [h] [a] := by
    rw [T.events, ha', transmissions_congr (s := s) fun k _ =>
      ⟨by rw [hbuf], fun q => stampedFrame_congr (s := s) (by simp) (by simp) k q⟩]
    simp
  have hseq : u.txSeq = if a = .ok then s.txSeq + 1 else s.txSeq := by
    rw [T.txSeq, ha']
    simp
  have hrc := T.ref h
  obtain ⟨hlen, hpay⟩ := T.lengths h
  have hdraws := T.draws
  have hfree := T.freeDraws
  rw [hbuf, List.count_singleton_self] at hrc
  rw [hbuf] at hlen hpay
  rw [afterDraw_startOp, afterDraw_startOp] at hdraws hfree
  subst hfl
  refine ⟨s.stampedFrame h s.txSeq, u.reply .ok (.sent 1), e, rfl, stampedFrame_length h8 _, stampedFrame_sum _ _ _,
    fun off => stampedFrame_get _, stampedFrame_seq _ _ _, fun hok => ?_, fun hfail => ?_, hempty, hrc,
    fun hne => ⟨hholds hne, fun off hoff => ?_⟩, fun hz off hoff => ?_, hlen, hpay, f.2, fun k hk => ?_, hdraws, hfree,
    hrecv, hconf⟩
  · subst hok
    exact ⟨hev, hseq⟩
  · subst hfail
    exact ⟨hev, hseq⟩
  · unfold minScan at h8
    rw [← hread]
    exact T.kept h hne off (by omega) (by rw [hbuf]; omega)
  · exact (T.scrubbed hz off hoff).trans (by simp)
  · exact .of_buf ((T.other k hk.symm).trans (hbuf k)) f.session

end Sys2Proof.Machine

/-! ## The transmit queue as a first-in first-out queue (R163)

The laws of `Q.ENQ` and `Q.DEQ` say what each does to the list of queued handles; here they are read from that
list's side, where full and empty are a length. -/

namespace Sys2Proof.Machine

/-- An enqueue with room succeeds, appends the handle and changes only the queue (R161). -/
theorem qEnq_appends {s : State} (hs : QueueInv s) (h : Handle) (hroom : s.queued.length < s.params.queueDepth) :
    (qEnq h s).1 = true ∧ (qEnq h s).2.queued = s.queued ++ [h] ∧
      (qEnq h s).2 = { s with txq := (qEnq h s).2.txq } := by
  rw [queued_length] at hroom
  have hne := Nat.ne_of_lt hroom
  obtain ⟨-, happend⟩ := qEnq_room_queued (h := h) hs hne
  refine ⟨?_, happend, ?_⟩
  · rw [qEnq_room hne]
  · rw [qEnq_room hne]

/-- A dequeue takes the oldest handle and changes only the queue (R162). -/
theorem qDeq_takesOldest {s : State} (hs : QueueInv s) {h : Handle} {rest : List Handle} (hq : s.queued = h :: rest) :
    (qDeq s).1 = some h ∧ (qDeq s).2.queued = rest ∧ (qDeq s).2 = { s with txq := (qDeq s).2.txq } := by
  have hne : s.txq.rd ≠ s.txq.wr := by
    rw [Ne, ← hs.queued_eq_nil, hq]
    exact List.cons_ne_nil h rest
  obtain ⟨-, hcons⟩ := qDeq_queued hs hne
  obtain ⟨holdest, hrest⟩ := List.cons.inj (hq.symm.trans hcons)
  refine ⟨?_, hrest.symm, ?_⟩
  · rw [qDeq_some hne, holdest]
  · rw [qDeq_some hne]

/-- Settles O25, from the laws of the enqueue and of the dequeue. -/
theorem queueIsFifo : Obligations.QueueIsFifo := by
  intro s hs
  refine ⟨?_, qEnq_appends hs, fun h hfull => ?_, fun h rest => qDeq_takesOldest hs, fun hempty => ?_⟩
  · obtain ⟨-, -, -, hcap, -⟩ := hs
    exact (queued_length s).trans_le hcap
  · exact qEnq_full ((queued_length s).symm.trans hfull)
  · exact qDeq_empty (hs.queued_eq_nil.1 hempty)

end Sys2Proof.Machine

/-! ## One scan step that drops a byte or waits

The cases WAIT, SKIP, TOO-LONG, NEED-MORE and BAD-CHECKSUM of R176, each as the one record update that
`caseSkip_eq` and its companions give. -/

namespace Sys2Proof.Machine

/-- Settles O27: case WAIT is the step's first test. -/
theorem scanWaitsForBytes : Obligations.ScanWaitsForBytes := fun _ h => scanStep_wait h

/-- Settles O28: case SKIP, as a record update. -/
theorem scanSkipsByteThatIsNotSof : Obligations.ScanSkipsByteThatIsNotSof := by
  intro s h8 hexp hsof
  rw [scanStep_skip h8 hexp hsof, caseSkip_eq]

/-- Settles O29: an `SOF` is found and its length is above the limit; the drop is then made in `afterSof s`. -/
theorem scanDropsOneByteOfTooLongFrame : Obligations.ScanDropsOneByteOfTooLongFrame := by
  intro s fl h8 hexp hsof hfl hlong
  have h : SofAtHead s fl := ⟨h8, hexp, hsof, hfl⟩
  rw [scanStep_sof h, if_pos hlong, caseTooLong_eq]
  rfl

/-- Settles O30: the length fits in `expected`, so the receive state is the waiting one (R187). -/
theorem scanSuspendsOnIncompleteFrame : Obligations.ScanSuspendsOnIncompleteFrame := by
  intro s fl h8 hexp hsof hfl hmax hshort
  have h : SofAtHead s fl := ⟨h8, hexp, hsof, hfl⟩
  have hval : (byteOf fl).toNat = fl := by
    simp only [byteOf, BitVec.toNat_ofNat]
    omega
  refine ⟨caseNeedMore fl (afterSof s), ?_, rfl, hval, if_pos ⟨fun h0 => ?_, h8, hsof, ?_⟩⟩
  · rw [scanStep_sof h, if_neg (Nat.not_lt.2 hmax), if_pos hshort]
  · have hz : fl = 0 := hval.symm.trans (congrArg BitVec.toNat h0)
    omega
  · exact hshort.trans_eq hval.symm

/-- Settles O31: the length is legal and all bytes are there, so the checksum decides. -/
theorem scanDropsOneByteOfCorruptFrame : Obligations.ScanDropsOneByteOfCorruptFrame := by
  intro s fl h8 hexp hsof hfl hmax hall hsum
  have h : SofAtHead s fl := ⟨h8, hexp, hsof, hfl⟩
  rw [scanStep_sof h, if_neg (Nat.not_lt.2 hmax), if_neg (Nat.not_lt.2 hall), if_pos hsum, caseBadChecksum_eq]
  rfl

end Sys2Proof.Machine

/-! ## Arrivals

Every operation that brings bytes to the inbound boundary is a push and one scan (R175, R186). -/

namespace Sys2Proof.Machine

/-- A scan that ended is suspended, whatever is then done to other fields than `ring` and `expected` (R175, R176). -/
theorem suspended_of_scan {s u t : State} (hu : scan s = .ok u) (hr : t.ring = u.ring)
    (he : t.expected = u.expected) : Suspended t := by
  refine scanStep_wait ?_
  rw [avail_congr hr, he]
  exact scan_stopped hu

/-- A suspended scan ends where it is (R175). -/
theorem Suspended.scan {s : State} (h : Suspended s) : scan s = .ok s := scan_stop h

/-- In a session an operation that brings bytes pushes them and scans, and answers the accepted count (R175, R186;
for the wire patterns notes/assumptions/16.md). -/
theorem exec_of_arrivingBytes {i : Instr} {data : List Byte} {s u : State} (hi : arrivingBytes i = some data)
    (ha : s.life = .active) (hu : scan (s.startOp.ringPush data).2 = .ok u) :
    exec i s = .next (u.reply .ok (arrivalResult i (s.startOp.ringPush data).1)) := by
  cases i with
  | rxscan =>
    cases hi
    show execRxscan s = _
    have hscan : scan s.startOp = .ok u := hu
    rw [execRxscan, if_pos ha, hscan]
    rfl
  | rxbytes | frameHeader | frameSof | frameLenSeq | frameChanPrio | framePayload | frameChecksum =>
    cases hi
    exact exec_rxbytes_of_scan ha hu
  | _ => cases hi

/-- Settles O35: the scan after the push completes in a legal build, and `scan_runs` says which steps it took. -/
theorem arrivalCompletesSuspended : Obligations.ArrivalCompletesSuspended := by
  intro i data s hi hw ha
  obtain ⟨-, -, -, -, h4, -⟩ := hw
  obtain ⟨-, -, hp, -⟩ := ringPush_sides s.startOp data
  obtain ⟨hframe, -⟩ := ringPush_frame s.startOp data
  obtain ⟨u, hu⟩ := scan_completes (s := (s.startOp.ringPush data).2)
    (by rw [hp]; exact Nat.le_of_succ_le h4)
  have hcount : (s.startOp.ringPush data).1 = min data.length (255 - s.avail) := ringPush_count s.startOp data
  have hexec := exec_of_arrivingBytes hi ha hu
  rw [hcount] at hexec
  have hstart : { (s.startOp.ringPush data).2.reply .ok (.accepted (s.startOp.ringPush data).1) with resp := none } =
      (s.startOp.ringPush data).2 := by
    rw [hframe]
    rfl
  obtain ⟨-, htx, hconf⟩ := received_sides hu
  refine ⟨_, u, _, exec_rxpush_of_active ha data, ?_, rfl, hexec, suspended_of_scan hu rfl rfl, htx, hconf⟩
  rw [hstart]
  exact scan_runs hu

/-- Settles O36: a refused `RXSCAN` is refused again, and one that ran left the scan suspended. -/
theorem rxscanTwiceIsRxscanOnce : Obligations.RxscanTwiceIsRxscanOnce := by
  intro s t e
  by_cases ha : s.life = .active
  · obtain ⟨u, hu, rfl⟩ := exec_rxscan_of_active ha e
    obtain ⟨-, ⟨-, hlife, -⟩, -⟩ := (scan_frame hu).sides
    have hactive : (u.reply .ok .none).life = .active := hlife.trans ha
    have hsusp : Suspended (u.reply .ok .none).startOp := suspended_of_scan hu rfl rfl
    exact exec_of_arrivingBytes (i := .rxscan) rfl hactive hsusp.scan
  · have href : exec .rxscan s = refuse s := if_neg ha
    obtain rfl := refuse_next (href.symm.trans e)
    exact if_neg ha

end Sys2Proof.Machine

/-! ## Frames on an idle receive side

The unread bytes as one list: what the scan looks at, what a release leaves, and the two runs of the scan that O39 and
O46 are made of, dropping garbage (R177) and delivering a frame (R183). -/

namespace Sys2Proof.Machine

/-! ### The unread bytes -/

theorem unread_congr {s t : State} (hr : t.ring = s.ring) (hs : t.session = s.session) : t.unread = s.unread := by
  rw [State.unread, avail_congr hr, ringRange_congr hr hs]
  rfl

theorem unread_length (s : State) : s.unread.length = s.avail := ringRange_length s 0 s.avail

/-- A byte of the ring is one of the unread bytes (R32, R66). -/
theorem unread_get {s : State} {i : Nat} (hi : i < s.avail) : s.unread[i]? = some (s.ringRead i) := by
  rw [State.unread, ringRange_get s 0 s.avail i hi, Nat.zero_add]

theorem ringRead_of_unread_get {s : State} {i : Nat} {b : Byte} (h : s.unread[i]? = some b) : s.ringRead i = b := by
  have hlt := (List.getElem?_eq_some_iff.1 h).1
  rw [unread_length] at hlt
  exact Option.some.inj ((unread_get hlt).symm.trans h)

theorem unread_getD {s : State} {i : Nat} (hi : i < s.avail) : s.unread.getD i 0 = s.ringRead i := by
  rw [List.getD_eq_getElem?_getD, unread_get hi, Option.getD_some]

/-- A range of the ring is a part of the unread bytes (R32, R66). -/
theorem ringRange_eq_of_unread {s : State} {a n : Nat} (h : a + n ≤ s.avail) :
    s.ringRange a n = (s.unread.drop a).take n := by
  obtain ⟨r, hr⟩ := Nat.exists_eq_add_of_le h
  rw [State.unread, hr, Nat.add_assoc, ringRange_add, ringRange_add, List.drop_left' (ringRange_length s 0 a),
    Nat.zero_add, List.take_left' (ringRange_length s a n)]

/-- A release takes the oldest unread bytes away (R67). -/
theorem unread_ringRelease {s : State} {n : Nat} (h : n ≤ s.avail) : (s.ringRelease n).unread = s.unread.drop n := by
  obtain ⟨r, hr⟩ := Nat.exists_eq_add_of_le h
  rw [State.unread, State.unread, avail_ringRelease h, ringRange_ringRelease, hr, ringRange_add,
    List.drop_left' (ringRange_length s 0 n), Nat.add_sub_cancel_left, Nat.zero_add, Nat.add_zero]

/-- What an idle block has unread after a push that fits is what was pushed (R171). -/
theorem unread_ringPush_idle {s : State} {data : List Byte} (hs : s.avail = 0) (hl : data.length ≤ 255) :
    (s.ringPush data).1 = data.length ∧ (s.ringPush data).2.unread = data := by
  have hcount : (s.ringPush data).1 = data.length := by
    rw [ringPush_count, hs]
    omega
  refine ⟨hcount, ?_⟩
  rw [unread_ringPush, hcount, List.take_length, State.unread, hs]
  rfl

/-! ### Garbage (R177) -/

/-- The state after case SKIP dropped `n` bytes, none of them quiet and no bytes awaited (R177). -/
def afterSkips (n : Nat) (s : State) : State :=
  { s with
    ring := { s.ring with current := s.ring.current + BitVec.ofNat 8 n }
    skipped := s.skipped + n
    ignoreSkipped := if n = 0 then s.ignoreSkipped else false }

theorem afterSkips_zero (s : State) : afterSkips 0 s = s := by
  simp [afterSkips]

theorem afterSkips_succ (n : Nat) (s : State) : afterSkips n (afterSkips 1 s) = afterSkips (n + 1) s := by
  simp only [afterSkips, BitVec.add_assoc, Nat.add_assoc, Nat.add_comm 1 n, ← BitVec.ofNat_add]
  simp

theorem unread_afterSkips {s : State} {n : Nat} (h : n ≤ s.avail) : (afterSkips n s).unread = s.unread.drop n :=
  unread_ringRelease h

/-- After a frame that was not valid no byte is quiet fill, and with nothing awaited there is nothing to clear. -/
theorem caseSkip_eq_afterSkips {s : State} (b : Byte) (hlv : s.lastValid = false) (hexp : s.expected = 0) :
    caseSkip b s = afterSkips 1 s := by
  simp [caseSkip_eq, afterSkips, expectedAfterDrop, hlv, hexp]

/-- A scan drops the bytes before the first `SOF`, as long as a whole frame may follow them (R177, R189). -/
theorem scan_skips {g f : List Byte} {s : State} (hu : s.unread = g ++ f) (hg : ∀ b ∈ g, b ≠ sofByte)
    (h8 : minScan ≤ f.length) (hlv : s.lastValid = false) (hexp : s.expected = 0) :
    scan s = scan (afterSkips g.length s) := by
  induction g generalizing s with
  | nil => rw [List.length_nil, afterSkips_zero]
  | cons b g ih =>
    have hav : s.avail = g.length + 1 + f.length := by
      rw [← unread_length, hu, List.length_append, List.length_cons]
    have hpos : 0 < s.avail := by omega
    have hb : s.ringRead 0 = b := ringRead_of_unread_get (by rw [hu]; rfl)
    have hstep : scanStep s = .ok (.again, afterSkips 1 s) := by
      rw [← caseSkip_eq_afterSkips (s.ringRead 0) hlv hexp]
      refine scanStep_skip (by omega) ?_ ?_
      · rw [hexp]
        exact Nat.zero_le _
      · rw [hb]
        exact hg b List.mem_cons_self
    have hrest : (afterSkips 1 s).unread = g ++ f := by
      rw [unread_afterSkips hpos, hu]
      rfl
    rw [scan_again hstep, ih hrest (fun c hc => hg c (List.mem_cons_of_mem b hc)) hlv hexp, afterSkips_succ,
      List.length_cons]

/-! ### A frame (R183) -/

/-- A valid frame has at least 8 bytes (R94). -/
theorem ValidFrame.length_ge {f : List Byte} (h : ValidFrame f) : minScan ≤ f.length := by
  obtain ⟨b1, rest, k, -, hlen, -⟩ := h
  unfold minScan
  omega

/-- A valid frame at the start of the unread bytes is found there (R96, R176). -/
theorem ValidFrame.frameAtHead {s : State} {f : List Byte} (h : ValidFrame f) (hu : s.unread = f)
    (hexp : s.expected = 0) : FrameAtHead s f.length := by
  have h8 := h.length_ge
  have hav : s.avail = f.length := by rw [← unread_length, hu]
  obtain ⟨b1, rest, k, hf, hlen, hmax, hsum⟩ := h
  have hbody : f.length - 1 = (sofByte :: b1 :: rest).length := by
    rw [hf, List.length_append]
    rfl
  have h0 : s.ringRead 0 = sofByte := ringRead_of_unread_get (by rw [hu, hf]; rfl)
  have h1 : s.ringRead 1 = b1 := ringRead_of_unread_get (by rw [hu, hf]; rfl)
  have hlast : s.ringRead (f.length - 1) = k :=
    ringRead_of_unread_get (by rw [hu, hbody, hf, List.getElem?_concat_length])
  have hrange : s.ringRange 0 (f.length - 1) = sofByte :: b1 :: rest := by
    rw [ringRange_eq_of_unread (by omega), hu, List.drop_zero, hbody, hf, List.take_left]
  refine ⟨?_, ?_, h0, ?_, hmax, hav.ge, ?_⟩
  · rw [hav]
    exact h8
  · rw [hexp]
    exact Nat.zero_le _
  · rw [h1]
    exact hlen
  · rw [hrange, hlast, hsum]

/-- Where a buffer is free there is a lowest-numbered free one (R142). -/
theorem exists_lowestFree {s : State} (hp : PoolInv s) (ha : s.life = .active) (hfree : ∃ b ∈ s.pool, b.refcount = 0) :
    ∃ h, LowestFree s h := by
  obtain ⟨b, hb, hz⟩ := hfree
  cases e : s.firstFree with
  | none => exact absurd hz (firstFree_none.1 e b hb)
  | some h =>
    obtain ⟨hl, hfree, hlow⟩ := firstFree_some (hp.length_le ha) e
    exact ⟨h, (hp.length ha) ▸ hl, hfree, hlow⟩

/-- A scan whose unread bytes are one valid frame for a copied-bytes receiver delivers it and stops with nothing
unread (R182, R183, R231). -/
theorem scan_delivers {s : State} {f : List Byte} (hp : PoolInv s) (ha : s.life = .active)
    (hv : ValidFrame f) (hu : s.unread = f) (hexp : s.expected = 0) (hlt : (channelOf (f.getD 2 0)).toNat < 21)
    (hk : (s.chanAt (channelOf (f.getD 2 0)).toNat).kind = .bytes) (hfree : ∃ b ∈ s.pool, b.refcount = 0) :
    ∃ t, scan s = .ok t ∧
      t.events = s.events ++ skippedReport s ++ sequenceReport s (seqOf (f.getD 1 0)) ++
        [.deliverBytes (channelOf (f.getD 2 0)).toNat (s.chanAt (channelOf (f.getD 2 0)).toNat).ctx
          ((f.drop 3).take (f.length - 4))] ∧
      t.avail = 0 ∧ t.lastValid = true ∧ t.rxSeq = seqOf (f.getD 1 0) + 1 := by
  have h8 : 8 ≤ f.length := hv.length_ge
  have hav : s.avail = f.length := by rw [← unread_length, hu]
  have hf := hv.frameAtHead hu hexp
  have h1 : f.getD 1 0 = s.ringRead 1 := hu ▸ unread_getD (by omega)
  have h2 : f.getD 2 0 = s.ringRead 2 := hu ▸ unread_getD (by omega)
  rw [h2] at hlt hk ⊢
  rw [h1]
  obtain ⟨h, hlow⟩ := exists_lowestFree hp ha hfree
  obtain ⟨t, hstep, hev, hring, -, hseq, hvalid, -⟩ :=
    scanDeliversToBytesReceiver s f.length _ _ h hp ha hf rfl rfl hlt hk hlow
  have hempty : t.avail = 0 := by
    rw [avail_drop hring hav.ge, hav, Nat.sub_self]
  have hstop : scanStep t = .ok (.stop, t) := scanStep_wait (.inl (by rw [hempty]; decide))
  refine ⟨t, (scan_again hstep).trans (scan_stop hstop), ?_, hempty, hvalid, hseq⟩
  rw [hev, ringRange_eq_of_unread (by omega), hu]

/-- In a session, what an idle block is sent becomes its unread bytes, nothing else changes before the scan, and the
operation answers what the scan leads to (R171, R186). -/
theorem exec_rxbytes_idle {s : State} {data : List Byte} (ha : s.life = .active) (hs : s.avail = 0)
    (hl : data.length ≤ 255) :
    ∃ r, State.unread { s.startOp with ring := r } = data ∧
      ∀ u, scan { s.startOp with ring := r } = .ok u →
        exec (.rxbytes data) s = .next (u.reply .ok (.accepted data.length)) := by
  obtain ⟨hcount, hunread⟩ := unread_ringPush_idle (s := s.startOp) hs hl
  obtain ⟨hframe, -⟩ := ringPush_frame s.startOp data
  refine ⟨(s.startOp.ringPush data).2.ring, ?_, fun u hu => ?_⟩
  · rw [← hframe]
    exact hunread
  · rw [← hframe] at hu
    rw [exec_rxbytes_of_scan ha hu, hcount]

/-- Settles O39: the push makes the bytes the unread ones, `scan_skips` drops the garbage, `scan_delivers` the rest. -/
theorem garbageBeforeFrameIsSkippedAndReported : Obligations.GarbageBeforeFrameIsSkippedAndReported := by
  intro s g f ch hp ha hidle hlv hne hg hv hlen hch hlt hk hfree
  subst hch
  obtain ⟨hempty, hexp, hskip⟩ := hidle
  have hfit : (g ++ f).length ≤ 255 := by rwa [List.length_append]
  obtain ⟨r, hunread, hexec⟩ := exec_rxbytes_idle ha hempty hfit
  have hskips := scan_skips hunread hg hv.length_ge hlv hexp
  have hrest : (afterSkips g.length { s.startOp with ring := r }).unread = f := by
    rw [unread_afterSkips, hunread, List.drop_left]
    rw [← unread_length, hunread, List.length_append]
    exact Nat.le_add_right _ _
  obtain ⟨u, hu, hev, hav, hvalid, hseq⟩ :=
    scan_delivers (s := afterSkips g.length { s.startOp with ring := r }) hp ha hv hrest hexp hlt hk hfree
  have hreport : skippedReport (afterSkips g.length { s.startOp with ring := r }) = [.skippedBytes g.length] := by
    simp [skippedReport, afterSkips, hskip, hne]
  rw [hreport] at hev
  rw [List.length_append] at hexec
  exact ⟨_, hexec u (hskips.trans hu), rfl, hev, hav, hvalid, hseq⟩

end Sys2Proof.Machine

/-! ## An assembled frame is a valid one (R96, R188) -/

namespace Sys2Proof.Machine

/-- A last byte that brings the sum to 0 is the checksum of the bytes before it (R130). -/
theorem checksum_of_sum {p : List Byte} {k : Byte} (h : ((p ++ [k]).map BitVec.toNat).sum % 256 = 0) :
    checksum p = k := by
  have hp := checksum_sum p
  have := (checksum p).isLt
  have := k.isLt
  refine BitVec.eq_of_toNat_eq ?_
  simp only [List.map_append, List.sum_append, List.map_cons, List.map_nil, List.sum_cons, List.sum_nil] at h hp
  omega

/-- The length of a frame that carries 1 to 92 bytes is legal, for every granularity (R95). -/
theorem LeastFrameLength.bounds {n l : Nat} {g : Gran} (h : LeastFrameLength n g.bytes l) (h1 : 1 ≤ l) (h2 : l ≤ 92) :
    8 ≤ n ∧ n ≤ 96 ∧ n % 4 = 0 := by
  obtain ⟨hm, hlo, hhi⟩ := h
  cases g <;> simp only [Gran.bytes] at hm hhi <;> omega

/-- Byte 1 of a frame of `n` bytes, by its fields (R92, R94). -/
theorem lengthByte_eq {n : Nat} (h8 : 8 ≤ n) (h96 : n ≤ 96) (q : BitVec 2) :
    byteOf ((n / 4 - 2) * 4 + q.toNat) = lenSeqByte 0 (BitVec.ofNat 5 (n / 4 - 2)) q := by
  have := q.isLt
  have hspare : (0 : BitVec 1).toNat = 0 := rfl
  refine BitVec.eq_of_toNat_eq ?_
  simp only [lenSeqByte_toNat, hspare, byteOf, BitVec.toNat_ofNat]
  omega

/-- Byte 2 of a frame, by its fields (R92). -/
theorem channelByte_eq (c : Nat) {p : Nat} (hp : p ≤ 7) :
    byteOf (c * 8 + p) = chanPrioByte (BitVec.ofNat 5 c) (BitVec.ofNat 3 p) := by
  refine BitVec.eq_of_toNat_eq ?_
  simp only [chanPrioByte_toNat, byteOf, BitVec.toNat_ofNat]
  omega

section Carries

variable {f pay : List Byte} {c p : Nat} {q : BitVec 2}

/-- A frame that carries a payload is valid where its length is legal (R96). -/
theorem CarriesPayload.validFrame (h : CarriesPayload f c p q pay) (h8 : 8 ≤ f.length) (h96 : f.length ≤ 96)
    (h4 : f.length % 4 = 0) : ValidFrame f := by
  obtain ⟨k, hf, hsum⟩ := h
  refine ⟨_, _, k, hf, ?_, h96, checksum_of_sum ?_⟩
  · rw [lengthByte_eq h8 h96, serviceLenOf_lenSeqByte, BitVec.toNat_ofNat]
    omega
  · rw [hf] at hsum
    exact hsum

/-- The receiver reads the sequence value, the channel and the padded payload that the frame was made of (R92, R93). -/
theorem CarriesPayload.fields (h : CarriesPayload f c p q pay) (h8 : 8 ≤ f.length) (h96 : f.length ≤ 96)
    (hc : c < 21) (hp : p ≤ 7) :
    seqOf (f.getD 1 0) = q ∧ (channelOf (f.getD 2 0)).toNat = c ∧
      (f.drop 3).take (f.length - 4) = pay ++ List.replicate (f.length - 4 - pay.length) 0xFF := by
  obtain ⟨k, hf, -⟩ := h
  have h1 : f.getD 1 0 = byteOf ((f.length / 4 - 2) * 4 + q.toNat) := by
    conv_lhs => rw [hf]
    rfl
  have h2 : f.getD 2 0 = byteOf (c * 8 + p) := by
    conv_lhs => rw [hf]
    rfl
  have hdrop : f.drop 3 = (pay ++ List.replicate (f.length - 4 - pay.length) 0xFF) ++ [k] := by
    conv_lhs => rw [hf]
    rfl
  refine ⟨?_, ?_, ?_⟩
  · rw [h1, lengthByte_eq h8 h96, seqOf_lenSeqByte]
  · rw [h2, channelByte_eq c hp, channelOf_chanPrioByte, BitVec.toNat_ofNat]
    omega
  · rw [hdrop]
    refine List.take_left' ?_
    have hlen := congrArg List.length hdrop
    rw [List.length_drop, List.length_append (bs := [k]), List.length_singleton] at hlen
    omega

end Carries

/-- Settles O46: what `ASSEMBLE` sends carries the payload (O40), so it is a valid frame with its channel and sequence
value; pushed to an idle block it is all that is unread, and the scan delivers it. -/
theorem assembledFrameIsReceived : Obligations.AssembledFrameIsReceived := by
  intro s r channel priority h hw hc hq a1 a2 hp ha hidle hk hfree
  obtain ⟨hempty, hexp, hskip⟩ := hidle
  obtain ⟨-, hsends⟩ := assembleSendsTheFrame s channel priority h
  obtain ⟨f, t, hassemble, -, htx, hcarries, hleast, -⟩ := hsends hw hc hq a1 a2
  obtain ⟨-, -, -, -, hch, hpr, hl1, hl2⟩ := hc
  have hpay : (s.payload h).length = (s.buf h).payloadLength.toNat := readRange_length _ _ _ _
  obtain ⟨h8, h96, h4⟩ := hleast.bounds (hpay ▸ hl1) (hpay ▸ hl2)
  obtain ⟨hseq, hchan, hbytes⟩ := hcarries.fields h8 h96 hch hpr
  obtain ⟨ring, hunread, hexec⟩ := exec_rxbytes_idle ha hempty (h96.trans (by decide))
  rw [← hchan] at hch hk
  obtain ⟨u, hu, hev, hav, -, hrx⟩ := scan_delivers (s := { r.startOp with ring := ring }) hp ha
    (hcarries.validFrame h8 h96 h4) hunread hexp hch hk hfree
  rw [hseq] at hev hrx
  rw [hbytes, hchan] at hev
  have hreport : skippedReport { r.startOp with ring := ring } = [] := by
    simp [skippedReport, hskip]
  rw [hreport] at hev
  exact ⟨f, t, _, hassemble, htx, hexec u hu, rfl, hev, hrx, hav⟩

end Sys2Proof.Machine

/-! ## DRAIN -/

namespace Sys2Proof.Machine

/-! ### Draws (R263) -/

/-- The next answer depends on the draws alone. -/
theorem nextAnswer_congr {s t : State} (hd : t.draws = s.draws) (hf : t.freeDraws = s.freeDraws) :
    t.nextAnswer = s.nextAnswer := by
  simp only [State.nextAnswer, hd, hf]

/-- A draw as one record: the oldest given answer goes, or one free answer more has been used. -/
theorem State.afterDraw_eq (s : State) : s.afterDraw = { s with
    draws := s.draws.drop 1
    freeDraws := if s.draws = [] then s.freeDraws + 1 else s.freeDraws } := by
  unfold State.afterDraw
  split <;> simp [*]

/-- A draw takes the same from two states with the same draws. -/
theorem afterDraw_congr {s t : State} (hd : t.draws = s.draws) (hf : t.freeDraws = s.freeDraws) :
    t.afterDraw.draws = s.afterDraw.draws ∧ t.afterDraw.freeDraws = s.afterDraw.freeDraws := by
  simp [hd, hf]

/-! ### The outcome (R205) -/

/-- In a session `DRAIN` answers what its body does (R205). -/
theorem exec_drain_of_body {s t : State} {r : DrainResult} (ha : s.life = .active)
    (e : drainBody s.startOp = .ok (r, t)) :
    exec .drain s = .next (t.reply (if r.locked then .ok else .lockNotAcquired) (.sent r.count)) := by
  simp only [exec, execDrain, if_pos ha, e]
  rfl

/-- Without the mutex the drain is skipped and reported (R206). -/
theorem drainBody_of_fail {s : State} (hlock : s.nextAnswer = .fail) :
    drainBody s = .ok ({ locked := false, count := 0 }, s.afterDraw.emit .lockFailed) := by
  simp only [drainBody, hlock]

/-- With the mutex the drain is its loop (R206). -/
theorem drainBody_of_ok {s t : State} {n : Nat} (hlock : s.nextAnswer = .ok)
    (e : drainLoop maxTxPerDrain 0 s.afterDraw = .ok (n, t)) :
    drainBody s = .ok ({ locked := true, count := n }, t) := by
  simp only [drainBody, hlock, e]

/-- Settles O42: the body is `drainBody_of_fail`, and its draw is the record `State.afterDraw_eq`. -/
theorem drainSkippedWhenLockFails : Obligations.DrainSkippedWhenLockFails := by
  intro s ha hlock
  rw [exec_drain_of_body ha (drainBody_of_fail (s := s.startOp) hlock), State.afterDraw_eq]
  rfl

/-- Settles O44: the drain is a loop of at most 50 turns, which `drainLoop_owned` describes from the state after the
draw for the mutex; that state differs from `s` in the draws and the events alone. -/
theorem drainEmptiesTheQueueInOrder : Obligations.DrainEmptiesTheQueueInOrder := by
  intro s n as hs ha hlock hn has
  have hpool : s.startOp.afterDraw.pool = s.pool := by simp
  have hsess : s.startOp.afterDraw.session = s.session := by simp
  have hseq : s.startOp.afterDraw.txSeq = s.txSeq := by simp
  have hbuf : ∀ k, s.startOp.afterDraw.buf k = s.buf k := State.buf_congr hpool
  have hread : ∀ k off, s.startOp.afterDraw.readData k off = s.readData k off := State.readData_congr hpool hsess
  have hqueued : s.startOp.afterDraw.queued = s.queued := queued_congr (by simp) (by simp) hsess
  obtain ⟨m, t, bs, hloop, D⟩ := drainLoop_owned maxTxPerDrain 0 hs.startOp.afterDraw
  rw [Nat.zero_add] at hloop
  have hm : n = m := by rw [hn, D.turns, hqueued]
  subst hm
  have hbs : bs = as := by
    rw [has, D.answers, afterDraw_startOp]
    exact nextAnswers_congr (s := s.afterDraw) (t := s.afterDraw.startOp) rfl rfl n
  subst hbs
  have f : TransmitFrame s.startOp t := (TransmitFrame.afterDraw s.startOp).trans D.frame
  obtain ⟨hrecv, hconf, -⟩ := f.sides
  refine ⟨t.reply .ok (.sent n), exec_drain_of_body ha (drainBody_of_ok hlock hloop), rfl, ?events,
    D.queued.trans (by rw [hqueued]), ?seq, ?draws, ?free, fun h => ⟨?ref, ?lengths⟩, fun h hmem => ?other,
    fun h hmem hz => ⟨hz, fun off hoff => ?scrubbed⟩, fun h hne off h1 hfl => ?kept, f.2, hrecv, hconf⟩
  case events =>
    refine D.events.trans ?_
    rw [hqueued, hseq, transmissions_congr (s := s) fun k _ =>
      ⟨by rw [hbuf], fun q => stampedFrame_congr hpool hsess k q⟩]
    simp
  case seq => rw [← hseq]; exact D.txSeq
  case draws =>
    refine D.draws.trans ?_
    simp
  case free =>
    refine D.freeDraws.trans ?_
    cases hd : s.draws with
    | nil => simp [hd]; omega
    | cons a ds => simp [hd]
  case ref => rw [← hqueued, ← hbuf h]; exact D.ref h
  case lengths => rw [← hbuf h]; exact D.lengths h
  case other => exact .of_buf ((D.other h (by rwa [hqueued])).trans (hbuf h)) f.session
  case scrubbed =>
    refine (D.scrubbed h (by rwa [hqueued]) hz off hoff).trans ?_
    rw [State.reply_params, f.params]
    simp
  case kept => rw [← hread]; exact D.kept h hne off h1 (by rwa [hbuf])

end Sys2Proof.Machine

/-! ## ASSEMBLE with the drain skipped, and with the drain that follows it -/

namespace Sys2Proof.Machine

/-- What an `ASSEMBLE` that passes its checks answers comes from its body (R200). -/
theorem exec_assemble_of_mayAssemble {s t : State} {channel priority : Byte} {h : Handle}
    (hc : MayAssemble s channel priority h) (e : exec (.assemble channel priority h) s = .next t) :
    ∃ st u, assembleBody channel priority h s.startOp = .ok (st, u) ∧ t = u.reply st .none := by
  have hexec : exec (.assemble channel priority h) s =
      complete (do let r ← assembleBody channel priority h s.startOp; pure (r.2.reply r.1 .none)) :=
    if_pos (assembleOk_iff.2 hc)
  obtain ⟨⟨st, u⟩, hbody, rfl⟩ := then_reply (complete_next (hexec ▸ e))
  exact ⟨st, u, hbody, rfl⟩

/-- What a `DRAIN` in a session answers comes from its body (R205). -/
theorem exec_drain_of_active {s t : State} (ha : s.life = .active) (e : exec .drain s = .next t) :
    ∃ r u, drainBody s.startOp = .ok (r, u) ∧
      t = u.reply (if r.locked then .ok else .lockNotAcquired) (.sent r.count) := by
  have hexec : exec .drain s = complete (do
      let r ← drainBody s.startOp
      pure (r.2.reply (if r.1.locked then .ok else .lockNotAcquired) (.sent r.1.count))) := if_pos ha
  obtain ⟨⟨r, u⟩, hbody, rfl⟩ := then_reply (complete_next (hexec ▸ e))
  exact ⟨r, u, hbody, rfl⟩

theorem startOp_prefixed (s : State) : s.startOp.prefixed s.events s.resp = s := by
  simp [State.prefixed, State.startOp]

/-- A drain within an operation does what one does that begins in its state (R204). -/
theorem drainBody_of_startOp {s t : State} {r : DrainResult} (e : drainBody s.startOp = .ok (r, t)) :
    drainBody s = .ok (r, t.prefixed s.events s.resp) := by
  have hprefixed := drainBody_prefixed s.events s.resp s.startOp
  rw [e, startOp_prefixed] at hprefixed
  exact hprefixed

/-- An enqueue takes no draw (R203). -/
theorem enqueueRef_keeps_draws {h : Handle} {s t : State} {st : Status} (e : enqueueRef h s = .ok (st, t)) :
    t.draws = s.draws := by
  have hd := enqueueRef_draws h s s.draws
  have hs : { s with draws := s.draws } = s := rfl
  rw [hs, e] at hd
  have ht : t = { t with draws := s.draws } := congrArg Prod.snd (Except.ok.inj hd)
  rw [ht]

/-- An assembly with a LOCK = fail put before the given answers is its enqueue, and the report of the skipped drain
(R203, R204, R206). -/
theorem assembleBody_lock_fails {c pr : Byte} {h : Handle} {s t : State} {st : Status}
    (e : assembleBody c pr h { s with draws := .fail :: s.draws } = .ok (st, t)) :
    ∃ u, enqueueRef h (s.writeFrameHead h c pr (s.buf h).payloadLength.toNat
        (frameLen s.gran (s.buf h).payloadLength.toNat)) = .ok (st, u) ∧ t = u.emit .lockFailed := by
  obtain ⟨v, r, hv, hd⟩ := assembleBody_ok e
  have hdraws := enqueueRef_draws h (s.writeFrameHead h c pr (s.buf h).payloadLength.toNat
    (frameLen s.gran (s.buf h).payloadLength.toNat)) (.fail :: s.draws)
  generalize hu : enqueueRef h (s.writeFrameHead h c pr (s.buf h).payloadLength.toNat
    (frameLen s.gran (s.buf h).payloadLength.toNat)) = x at hdraws ⊢
  replace hv := hdraws.symm.trans hv
  cases x with
  | error f => cases hv
  | ok x =>
    cases hv
    refine ⟨x.2, rfl, ?_⟩
    have hkept : x.2.draws = s.draws := (enqueueRef_keeps_draws hu).trans rfl
    have hskip := hd.symm.trans (drainBody_of_fail rfl)
    obtain rfl : t = { x.2 with draws := s.draws }.emit .lockFailed := congrArg Prod.snd (Except.ok.inj hskip)
    rw [← hkept]

/-- Settles O41: the skipped drain by `assembleBody_queues`. For any answers, the assembly with a LOCK = fail put first
leaves the state in which the drain of the other one begins, but for the events, which a drain does not look at. -/
theorem assembleQueuesWhenDrainIsSkipped : Obligations.AssembleQueuesWhenDrainIsSkipped := by
  intro s channel priority h hc
  refine ⟨fun hq hlock => ?_, fun a d hassemble hdrain => ?_⟩
  · obtain ⟨-, -, hlive, hmax, -, -, hl1, hl2⟩ := id hc
    obtain ⟨n, st, t, hbody, queued⟩ :=
      assembleBody_queues (s := s.startOp) channel priority hq hlive hmax hl1 hl2 hlock
    obtain ⟨hrecv, hconf, -⟩ := queued.frame.sides
    have hd := queued.d
    have hfd := queued.fd
    rw [afterDraw_startOp] at hd hfd
    have hother : OtherBuffersSame s (t.reply st .none) h := fun k hk =>
      .of_buf (queued.other k hk.symm) queued.frame.session
    refine ⟨n, t.reply st .none, exec_assemble_of_body hc hbody, queued.least, queued.head, queued.above, queued.fl,
      queued.pl, fun hroom => ?_, fun hfull => ?_, queued.frame.2, hother, queued.seq, hd, hfd, hrecv, hconf⟩
    · obtain ⟨rfl, hev, hqueued, hrc⟩ := queued.room hroom
      exact ⟨rfl, hev, hqueued, hrc⟩
    · obtain ⟨rfl, hev, htxq, hrc⟩ := queued.full hfull
      exact ⟨rfl, hev, htxq, hrc⟩
  · have hc' : MayAssemble { s with draws := .fail :: s.draws } channel priority h := hc
    obtain ⟨st, t, hbody, rfl⟩ := exec_assemble_of_mayAssemble hc' hassemble
    obtain ⟨u, hu, rfl⟩ := assembleBody_lock_fails (s := s.startOp) hbody
    have f : TransmitFrame s.startOp u :=
      (writeFrameHead_frame s.startOp h channel priority _ _).transmitFrame.trans (enqueueRef_frame hu)
    obtain ⟨ha, -⟩ := id hc
    obtain ⟨r, w, hw, rfl⟩ := exec_drain_of_active (f.life.trans ha) hdrain
    rw [exec_assemble_of_body hc (assembleBody_of hu (drainBody_of_startOp (s := u) hw))]
    simp [State.prefixed, State.reply]

end Sys2Proof.Machine

/-! ## TRANSMIT (R235, R236)

A `TRANSMIT` is an assembly of a buffer with one reference more, between the `RefInc` before it and the mirror and
release after it. -/

namespace Sys2Proof.Machine

/-- The checks of `TRANSMIT`, as the statements write them (R235). -/
theorem transmitOk_iff {s : State} {channel : Byte} {h : Handle} :
    s.transmitOk channel h ↔ MayTransmit s channel h := by
  simp only [State.transmitOk, MayTransmit, and_assoc]

/-- A `TRANSMIT` that does not pass its checks is refused (R235). -/
theorem refuses_transmit {s : State} {channel : Byte} {h : Handle} (hc : ¬ MayTransmit s channel h) :
    Refuses (.transmit channel h) s :=
  refuses_of (if_neg (mt transmitOk_iff.1 hc))

/-- An operand beyond a bound of R235 fails the checks. -/
theorem not_mayTransmit_of_operand {s : State} {channel : Byte} {h : Handle}
    (hbad : s.params.refMax < (s.buf h).refcount + 3 ∨ 21 ≤ channel.toNat ∨ (s.buf h).payloadLength = 0 ∨
      92 < (s.buf h).payloadLength.toNat) : ¬ MayTransmit s channel h := by
  rintro ⟨-, -, -, hmax, hch, hl1, hl2⟩
  rcases hbad with hb | hb | hb | hb
  case inr.inr.inl =>
    rw [hb] at hl1
    cases hl1
  all_goals omega

/-! ### The reference that the operation holds -/

/-- The state in which the assembly within a `TRANSMIT` begins: the operation holds a reference of its own (R235). -/
def State.held (s : State) (h : Handle) : State := s.startOp.setRefcount h ((s.buf h).refcount + 1)

section Held

variable {s : State} {h : Handle}

theorem refInc_held (hm : (s.buf h).refcount < s.params.refMax) : refInc h s.startOp = .ok (s.held h) :=
  refInc_of_lt (s := s.startOp) hm

theorem held_frame (s : State) (h : Handle) : DispatchFrame s.startOp (s.held h) := .modifyBuf _ _ _

theorem held_other {k : Handle} (hk : h ≠ k) : (s.held h).buf k = s.buf k := State.buf_modifyBuf_other _ _ hk

theorem held_buf (hl : h.toNat < s.pool.length) :
    (s.held h).buf h = { s.buf h with refcount := (s.buf h).refcount + 1 } :=
  State.buf_modifyBuf_self s.startOp _ hl

theorem held_refcount (hl : h.toNat < s.pool.length) : ((s.held h).buf h).refcount = (s.buf h).refcount + 1 := by
  rw [held_buf hl]

theorem held_payloadLength (hl : h.toNat < s.pool.length) :
    ((s.held h).buf h).payloadLength = (s.buf h).payloadLength := by
  rw [held_buf hl]

theorem held_readData (hl : h.toNat < s.pool.length) (off : Nat) : (s.held h).readData h off = s.readData h off :=
  readData_of_data (s := s) (t := s.held h) (by rw [held_buf hl]) rfl off

theorem held_payload (hl : h.toNat < s.pool.length) : (s.held h).payload h = s.payload h := by
  simp only [State.payload, State.readRange, held_readData hl, held_buf hl]

end Held

/-! ### The mirror and the release -/

/-- Two states in which the buffer's bytes and lengths and the channel table are the same make the same mirror
delivery (R231, R232). -/
theorem deliveryEvents_mirror {s t : State} {h : Handle} (hchan : t.chan = s.chan)
    (hpay : t.payload h = s.payload h) : deliveryEvents t s.params.debugOut h = mirrorReport s h := by
  have hc : t.chanAt s.params.debugOut = s.chanAt s.params.debugOut := by simp only [State.chanAt, hchan]
  have hread : t.readRange h headerLen (t.buf h).payloadLength.toNat = s.payload h := hpay
  cases hk : (s.chanAt s.params.debugOut).kind <;> simp only [deliveryEvents, mirrorReport, hc, hk, hread]

/-- What the mirror and the release that end a `TRANSMIT` of `s` do after its assembly, from `t` to `w` (R232,
R236). -/
structure MirrorReleased (s t w : State) (h : Handle) : Prop where
  frame : DispatchFrame t w
  events : w.events = t.events ++ mirrorReport s h
  refcount : (w.buf h).refcount + 1 = (t.buf h).refcount + mirrorReferences s
  frameLength : (w.buf h).frameLength = (t.buf h).frameLength
  payloadLength : (w.buf h).payloadLength = (t.buf h).payloadLength
  reads : ∀ off, w.readData h off = t.readData h off
  other : ∀ k, h ≠ k → w.buf k = t.buf k

theorem MirrorReleased.readRange {s t w : State} {h : Handle} (m : MirrorReleased s t w h) (a n : Nat) :
    w.readRange h a n = t.readRange h a n := by
  simp only [State.readRange, m.reads]

theorem MirrorReleased.queued {s t w : State} {h : Handle} (m : MirrorReleased s t w h) : w.queued = t.queued :=
  queued_congr m.frame.txq m.frame.params m.frame.session

/-- The parts of a `TRANSMIT` touch no more than a transmit operation does. -/
theorem MirrorReleased.transmitFrame {s t w : State} {h : Handle} (m : MirrorReleased s t w h)
    (f : TransmitFrame (s.held h) t) : TransmitFrame s.startOp w :=
  ((held_frame s h).transmitFrame.trans f).trans m.frame.transmitFrame

/-- Where the assembly changes no other buffer, the `TRANSMIT` changes none. -/
theorem MirrorReleased.otherBuffersSame {s t w : State} {h : Handle} (m : MirrorReleased s t w h)
    (f : TransmitFrame (s.held h) t) (ho : ∀ k, h ≠ k → t.buf k = (s.held h).buf k) : OtherBuffersSame s w h :=
  fun k hk =>
    .of_buf ((m.other k hk.symm).trans ((ho k hk.symm).trans (held_other hk.symm))) (m.transmitFrame f).session

/-- The parts of a `TRANSMIT`, joined (R235). -/
theorem exec_transmit_of_parts {s u t v w : State} {channel : Byte} {h : Handle} {st : Status}
    (hc : MayTransmit s channel h) (hu : refInc h s.startOp = .ok u)
    (ht : assembleBody channel ((s.chanAt channel.toNat).prio.setWidth 8) h u = .ok (st, t))
    (hv : mirror s.params.debugOut h t = .ok v) (hw : refDec h v = .ok w) :
    exec (.transmit channel h) s = .next (w.reply st .none) := by
  have hchan : u.chanAt channel.toNat = s.chanAt channel.toNat := by
    simp only [State.chanAt, (DispatchFrame.refInc hu).chan, State.startOp_chan]
  rw [← hchan] at ht
  simp only [exec, execTransmit, if_pos (transmitOk_iff.2 hc), hu, ht, hv, hw, bind, Except.bind]
  rfl

/-- A `TRANSMIT` whose assembly leaves the operation its reference ends with the mirror and the release (R235,
R236). -/
theorem exec_transmit_of_body {s t : State} {channel : Byte} {h : Handle} {st : Status} (hc : MayTransmit s channel h)
    (ht : assembleBody channel ((s.chanAt channel.toNat).prio.setWidth 8) h (s.held h) = .ok (st, t))
    (hpay : t.payload h = s.payload h) (h2 : 2 ≤ (t.buf h).refcount) (hm : (t.buf h).refcount < s.params.refMax) :
    ∃ w, exec (.transmit channel h) s = .next (w.reply st .none) ∧ MirrorReleased s t w h := by
  have f : TransmitFrame s.startOp t := (held_frame s h).transmitFrame.trans (assembleBody_frame ht)
  have hp : t.params = s.params := f.params
  have hch : t.chan = s.chan := f.chan
  have hrefs : (if (t.chanAt s.params.debugOut).kind = .buffer then 1 else 0) = mirrorReferences s := by
    rw [State.chanAt, hch]
    rfl
  obtain ⟨v, w, hv, hw, fw, hev, hbuf, hother⟩ :=
    mirror_release (c := s.params.debugOut) h2 (by rw [hp]; exact hm)
  obtain ⟨-, -, -, hmax, -⟩ := id hc
  refine ⟨w, exec_transmit_of_parts hc (refInc_held (by omega)) ht hv hw, fw, ?_, ?_, by rw [hbuf], by rw [hbuf],
    readData_of_data (by rw [hbuf]) fw.session, hother⟩
  · rw [hev, deliveryEvents_mirror hch hpay]
  · rw [hbuf, hrefs]
    simp only
    omega

/-! ### The frame in the buffer -/

/-- A buffer that reads as a header, a payload and what follows has that payload (R93). -/
theorem payload_of_readRange {s t : State} {h : Handle} {n : Nat} {a b c : Byte} {rest : List Byte}
    (hr : t.readRange h 0 n = [a, b, c] ++ s.payload h ++ rest)
    (hl : (t.buf h).payloadLength = (s.buf h).payloadLength) : t.payload h = s.payload h := by
  have hlen : (s.payload h).length = (s.buf h).payloadLength.toNat := readRange_length _ _ _ _
  have hn : n = 3 + (s.payload h).length + rest.length := by
    rw [← readRange_length t h 0 n, hr]
    simp
    omega
  refine List.ext_getElem? fun i => ?_
  rcases Nat.lt_or_ge i (s.payload h).length with g | g
  · have hi := readRange_get t h 0 n (i + 3) (by omega)
    rw [hr, List.append_assoc] at hi
    simp only [List.cons_append, List.nil_append, List.getElem?_cons_succ] at hi
    rw [List.getElem?_append_left g] at hi
    rw [hi, State.payload, hl, readRange_get _ _ _ _ _ (by omega), Nat.zero_add, Nat.add_comm 3 i]
  · rw [List.getElem?_eq_none g, List.getElem?_eq_none]
    rw [State.payload, readRange_length, hl]
    omega

/-- An assembly does not change the payload, as the frame that was sent shows (R202, R206). -/
theorem AssemblySent.payload {s t : State} {c pr : Byte} {h : Handle} {f : List Byte}
    (sent : AssemblySent s t c pr h f) : t.payload h = s.payload h := by
  obtain ⟨k, hf, -⟩ := sent.carries
  rw [List.append_assoc] at hf
  exact payload_of_readRange (sent.reads.trans hf) sent.pl

/-- An assembly does not change the payload, as the frame head that was written shows (R202). -/
theorem AssemblyQueued.payload {s t : State} {c pr : Byte} {h : Handle} {n : Nat} {st : Status}
    (q : AssemblyQueued s t c pr h n st) : t.payload h = s.payload h :=
  payload_of_readRange q.head q.pl

/-- An assembly whose drain is skipped leaves every reference and adds at most one (R203). -/
theorem AssemblyQueued.refcount {s t : State} {c pr : Byte} {h : Handle} {n : Nat} {st : Status}
    (q : AssemblyQueued s t c pr h n st) (hs : QueueInv s) :
    (s.buf h).refcount ≤ (t.buf h).refcount ∧ (t.buf h).refcount ≤ (s.buf h).refcount + 1 := by
  obtain ⟨-, -, -, hle, -⟩ := hs
  rw [← queued_length] at hle
  rcases Nat.lt_or_eq_of_le hle with hroom | hfull
  · obtain ⟨-, -, -, hrc⟩ := q.room hroom
    omega
  · obtain ⟨-, -, -, hrc⟩ := q.full hfull
    omega

/-! ### The operation as its four parts -/

theorem refInc_prefixed (es : List Event) (q : Option Response) (h : Handle) (s : State) :
    refInc h (s.prefixed es q) = (refInc h s).map (State.prefixed es q) := by
  unfold refInc
  simp only [show (s.prefixed es q).buf h = s.buf h from rfl,
    show (s.prefixed es q).params = s.params from rfl]
  split_ifs <;> rfl

/-- A delivery does not look at the events before it, nor at the response (R231). -/
theorem deliver_prefixed (es : List Event) (q : Option Response) (c : Nat) (h : Handle) (s : State) :
    deliver c h (s.prefixed es q) = (deliver c h s).map (State.prefixed es q) := by
  unfold deliver
  simp only [show (s.prefixed es q).chanAt c = s.chanAt c from rfl]
  cases (s.chanAt c).kind with
  | none => rfl
  | bytes => exact congrArg Except.ok (emit_prefixed es q s _)
  | buffer =>
    simp only [refInc_prefixed]
    cases refInc h s with
    | error f => rfl
    | ok u => exact congrArg Except.ok (emit_prefixed es q u _)

/-- A release within an operation does what one does that begins in its state (R235). -/
theorem refDec_of_startOp {h : Handle} {s t : State} (e : refDec h s.startOp = .ok t) :
    refDec h s = .ok (t.prefixed s.events s.resp) := by
  have hprefixed := refDec_prefixed s.events s.resp h s.startOp
  rw [e, startOp_prefixed] at hprefixed
  exact hprefixed

/-- A `REFINC` that passes its checks is the `RefInc` (R143). -/
theorem exec_refinc_of_live {s t : State} {h : Handle} (ha : s.life = .active) (hlive : s.handleLive h)
    (hm : (s.buf h).refcount < s.params.refMax) (e : exec (.refinc h) s = .next t) :
    t = (s.held h).reply .ok .none := by
  have hexec : exec (.refinc h) s = complete (do let t ← refInc h s.startOp; pure (t.reply .ok .none)) :=
    if_pos ⟨ha, hlive, hm⟩
  rw [refInc_held hm] at hexec
  exact (Host.Outcome.next.inj (hexec.symm.trans e)).symm

/-- A `RELEASE` that passes its checks is the `RefDec` (R144). -/
theorem exec_release_of_live {s t : State} {h : Handle} (ha : s.life = .active) (hlive : s.handleLive h)
    (e : exec (.release h) s = .next t) : ∃ u, refDec h s.startOp = .ok u ∧ t = u.reply .ok .none := by
  have hexec : exec (.release h) s = complete (do let t ← refDec h s.startOp; pure (t.reply .ok .none)) :=
    if_pos ⟨ha, hlive⟩
  exact then_reply (complete_next (hexec ▸ e))

/-- A priority of the channel table is one that `ASSEMBLE` takes (R40, R200). -/
theorem table_priority_le (p : BitVec 3) : (p.setWidth 8).toNat ≤ 7 := by
  have := p.isLt
  rw [BitVec.toNat_setWidth]
  omega

/-- The checks of `TRANSMIT` are those under which the assembly within it refuses nothing (R235). -/
theorem MayTransmit.mayAssemble_held {s : State} {channel priority : Byte} {h : Handle} (hc : MayTransmit s channel h)
    (hpr : priority.toNat ≤ 7) : MayAssemble ((s.held h).reply .ok .none) channel priority h := by
  obtain ⟨ha, hlt, hlive, hmax, hch, hpay⟩ := hc
  simp only [MayAssemble, State.reply_buf, held_buf (State.lt_of_refcount hlive)]
  exact ⟨ha, hlt, Nat.succ_ne_zero _, Nat.lt_of_lt_of_le (by omega) hmax, hch, hpr, hpay⟩

/-- `TRANSMIT` leads where its parts lead that are operations of their own, with the events up to the mirror and the
response of the assembly (R235). -/
theorem exec_transmit_of_operations {s a b c d : State} {channel priority : Byte} {h : Handle}
    (hpr : priority = (s.chanAt channel.toNat).prio.setWidth 8) (hc : MayTransmit s channel h)
    (ea : exec (.refinc h) s = .next a) (eb : exec (.assemble channel priority h) a = .next b)
    (ec : mirror s.params.debugOut h b = .ok c) (hne : (c.buf h).refcount ≠ 0)
    (ed : exec (.release h) c = .next d) :
    exec (.transmit channel h) s = .next { d with events := c.events, resp := b.resp } := by
  obtain ⟨ha, hlt, hlive, hmax, -⟩ := id hc
  obtain rfl := exec_refinc_of_live ha ⟨hlt, hlive⟩ (by omega) ea
  have hassemble := hc.mayAssemble_held (priority := priority) (hpr ▸ table_priority_le _)
  obtain ⟨st, t, ht, rfl⟩ := exec_assemble_of_mayAssemble hassemble eb
  replace ht : assembleBody channel priority h (s.held h) = .ok (st, t) := ht
  have f : TransmitFrame s.startOp t := (held_frame s h).transmitFrame.trans (assembleBody_frame ht)
  have hl : h.toNat < t.pool.length := f.2 ▸ State.lt_of_refcount hlive
  -- the mirror of the operation starts in `t`, that of the parts after the reply of `ASSEMBLE`
  rw [mirror, show t.reply st .none = t.prefixed [] (some ⟨st, .none⟩) from rfl, deliver_prefixed] at ec
  cases hv : deliver s.params.debugOut h t with
  | error x => rw [hv] at ec; cases ec
  | ok v =>
    rw [hv] at ec
    cases ec
    have fv : TransmitFrame s.startOp v := f.trans (deliver_ok hl hv).1.transmitFrame
    obtain ⟨w, hw, rfl⟩ := exec_release_of_live (fv.life.trans ha) ⟨fv.params ▸ hlt, hne⟩ ed
    replace hw : refDec h v.startOp = .ok w := hw
    have hquiet : w.events = [] := by rw [(refDec_frame hw).1]; rfl
    rw [exec_transmit_of_parts hc (refInc_held (by omega)) (hpr ▸ ht) hv (refDec_of_startOp hw)]
    simp [State.prefixed, State.reply, hquiet]

/-! ### The frame is sent, or stays queued -/

section Outcomes

variable {s : State} {channel priority : Byte} {h : Handle}

/-- R236 where the drain sends the frame. -/
theorem exec_transmit_sends (hpr : priority = (s.chanAt channel.toNat).prio.setWidth 8) (hc : MayTransmit s channel h)
    (hw : s.params.wf) (hq : s.txq.rd = s.txq.wr) (a1 : s.nextAnswer = .ok) (a2 : s.afterDraw.nextAnswer = .ok) :
    ∃ f t w, exec (.transmit channel h) s = .next (w.reply .ok .none) ∧
      AssemblySent (s.held h) t channel priority h f ∧ MirrorReleased s t w h := by
  obtain ⟨-, -, hlive, hmax, -, hl1, hl2⟩ := id hc
  have hl := State.lt_of_refcount hlive
  have hrc := held_refcount hl
  have hlt : (s.buf h).refcount + 1 < s.params.refMax := by omega
  obtain ⟨hd, hfd⟩ := afterDraw_congr (s := s) (t := s.held h) rfl rfl
  rw [← held_payloadLength hl] at hl1 hl2
  obtain ⟨f, t, hbody, sent⟩ := assembleBody_sends (s := s.held h) channel priority hw (by omega) (hrc.trans_lt hlt)
    hl1 hl2 hq a1 (by rw [nextAnswer_congr hd hfd]; exact a2)
  have hrt := sent.rc.trans hrc
  obtain ⟨w, e, m⟩ := exec_transmit_of_body hc (hpr ▸ hbody) (sent.payload.trans (held_payload hl)) (by omega)
    (by omega)
  exact ⟨f, t, w, e, sent, m⟩

/-- R236 where the mutex is not acquired. -/
theorem exec_transmit_queues (hpr : priority = (s.chanAt channel.toNat).prio.setWidth 8)
    (hc : MayTransmit s channel h) (hq : QueueInv s) (a1 : s.nextAnswer = .fail) :
    ∃ n st t w, exec (.transmit channel h) s = .next (w.reply st .none) ∧
      AssemblyQueued (s.held h) t channel priority h n st ∧ MirrorReleased s t w h := by
  obtain ⟨-, -, hlive, hmax, -, hl1, hl2⟩ := id hc
  have hl := State.lt_of_refcount hlive
  have hrc := held_refcount hl
  have hlt : (s.buf h).refcount + 1 < s.params.refMax := by omega
  rw [← held_payloadLength hl] at hl1 hl2
  obtain ⟨n, st, t, hbody, queued⟩ := assembleBody_queues (s := s.held h) channel priority hq (by omega)
    (hrc.trans_lt hlt) hl1 hl2 a1
  obtain ⟨hge, hle⟩ := queued.refcount hq
  obtain ⟨w, e, m⟩ := exec_transmit_of_body hc (hpr ▸ hbody) (queued.payload.trans (held_payload hl)) (by omega)
    (by omega)
  exact ⟨n, st, t, w, e, queued, m⟩

end Outcomes

/-- Settles O45: outside the checks by `refuses_transmit`; under them by `exec_transmit_of_operations`,
`exec_transmit_sends` and `exec_transmit_queues`, read from `s`. -/
theorem transmitSendsMirrorsAndReleases : Obligations.TransmitSendsMirrorsAndReleases := by
  intro s channel h priority hpr
  refine ⟨fun hbad => refuses_transmit (not_mayTransmit_of_operand hbad), fun hc => ?_⟩
  obtain ⟨-, -, hlive, -⟩ := id hc
  have hl := State.lt_of_refcount hlive
  have hheld := held_refcount hl
  have hpay := held_payload hl
  obtain ⟨hd, hfd⟩ := afterDraw_congr (s := s) (t := s.held h) rfl rfl
  refine ⟨fun a b c d => exec_transmit_of_operations hpr hc, fun hw hq a1 a2 => ?_, fun hq a1 => ?_⟩
  · obtain ⟨f, t, w, e, sent, m⟩ := exec_transmit_sends hpr hc hw hq a1 a2
    obtain ⟨-, ⟨htxq, hseq, hwd, hwf⟩, -⟩ := m.frame.sides
    obtain ⟨hrecv, hconf, -⟩ := (m.transmitFrame sent.frame).sides
    obtain ⟨hd', hfd'⟩ := afterDraw_congr hd hfd
    have hev := m.events
    have hrc := m.refcount
    rw [sent.events] at hev
    rw [sent.rc, hheld, Nat.add_right_comm] at hrc
    refine ⟨f, w.reply .ok .none, e, rfl, hev, hpay ▸ sent.carries, hpay ▸ sent.least,
      (m.readRange _ _).trans sent.reads,
      fun off hoff => (m.reads off).trans ((sent.above off hoff).trans (held_readData hl off)),
      (congrArg _ m.frameLength).trans sent.fl, m.payloadLength.trans (sent.pl.trans (held_payloadLength hl)),
      Nat.succ.inj hrc, (m.transmitFrame sent.frame).2, m.otherBuffersSame sent.frame sent.other, hseq.trans sent.seq,
      ?_, hwd.trans (sent.d.trans hd'), hwf.trans (sent.fd.trans hfd'), hrecv, hconf⟩
    rw [State.reply_txq, htxq]
    exact sent.q
  · obtain ⟨n, st, t, w, e, queued, m⟩ := exec_transmit_queues hpr hc hq a1
    obtain ⟨-, ⟨htxq, hseq, hwd, hwf⟩, -⟩ := m.frame.sides
    obtain ⟨hrecv, hconf, -⟩ := (m.transmitFrame queued.frame).sides
    have hev := m.events
    have hrc := m.refcount
    refine ⟨n, w.reply st .none, e, hpay ▸ queued.least, (m.readRange _ _).trans (hpay ▸ queued.head),
      fun off hoff => (m.reads off).trans ((queued.above off hoff).trans (held_readData hl off)),
      (congrArg _ m.frameLength).trans queued.fl, m.payloadLength.trans (queued.pl.trans (held_payloadLength hl)),
      fun hroom => ?_, fun hfull => ?_, (m.transmitFrame queued.frame).2, m.otherBuffersSame queued.frame queued.other,
      hseq.trans queued.seq, hwd.trans (queued.d.trans hd), hwf.trans (queued.fd.trans hfd), hrecv, hconf⟩
    · obtain ⟨rfl, hevt, hq', hrt⟩ := queued.room hroom
      rw [hevt] at hev
      rw [hrt, hheld, Nat.add_right_comm] at hrc
      exact ⟨rfl, hev, m.queued.trans hq', Nat.succ.inj hrc⟩
    · obtain ⟨rfl, hevt, htq, hrt⟩ := queued.full hfull
      rw [hevt] at hev
      rw [hrt, hheld, Nat.add_right_comm] at hrc
      exact ⟨rfl, hev, htxq.trans htq, Nat.succ.inj hrc⟩

end Sys2Proof.Machine

/-! ## Channel table

`CONFIG` and `SETPRIO` change one entry of the channel table and answer `OK`; what they share is said once. -/

namespace Sys2Proof.Machine

/-- Reading an entry of the table after a change of one (R40). -/
theorem State.chanAt_modifyChan (s : State) (c k : Nat) (f : Chan → Chan) :
    (s.modifyChan c f).chanAt k = if c = k ∧ c < s.chan.length then f (s.chanAt k) else s.chanAt k := by
  simp only [State.chanAt, State.modifyChan, List.getD_eq_getElem?_getD, List.getElem?_modify]
  by_cases hk : c = k
  · subst hk
    by_cases hl : c < s.chan.length <;> simp [hl]
  · simp [hk]

/-- The answer is `OK` without events; entry `c` of the channel table has become `d`, and nothing else has changed. -/
structure ChangesChan (s t : State) (c : Nat) (d : Chan) : Prop where
  responds : Responds t .ok .none
  events : t.events = []
  only : t = { s with chan := t.chan, resp := t.resp, events := t.events }
  length : t.chan.length = s.chan.length
  chan : t.chanAt c = d
  other : ∀ k, k ≠ c → t.chanAt k = s.chanAt k

/-- The reply after a change of entry `c` alone. -/
theorem ChangesChan.of_modifyChan {s : State} {c : Nat} (f : Chan → Chan) (hc : c < s.chan.length) :
    ChangesChan s ((s.startOp.modifyChan c f).reply .ok .none) c (f (s.chanAt c)) where
  responds := rfl
  events := rfl
  only := rfl
  length := List.length_modify ..
  chan := (s.chanAt_modifyChan c c f).trans (if_pos ⟨rfl, hc⟩)
  other := fun k hk => (s.chanAt_modifyChan c k f).trans (if_neg fun ⟨hck, _⟩ => hk hck.symm)

section

variable {s t : State} {c : Nat} {d : Chan}

theorem ChangesChan.prio (m : ChangesChan s t c d) : (t.chanAt c).prio = d.prio := by rw [m.chan]

theorem ChangesChan.kind (m : ChangesChan s t c d) : (t.chanAt c).kind = d.kind := by rw [m.chan]

theorem ChangesChan.ctx (m : ChangesChan s t c d) : (t.chanAt c).ctx = d.ctx := by rw [m.chan]

end

/-! ### CONFIG (R220) -/

/-- The codes 1 and 2 name a receiver kind (R112, R220). -/
theorem Kind.exists_ofCode? {code : BitVec 2} (hk : code = 1 ∨ code = 2) :
    ∃ k, Kind.ofCode? code = some k ∧ k.code = code := by
  rcases hk with rfl | rfl
  · exact ⟨.buffer, rfl, rfl⟩
  · exact ⟨.bytes, rfl, rfl⟩

/-- The codes 0 and 3 name none (R220; D39). -/
theorem Kind.ofCode?_eq_none {code : BitVec 2} (hk : code = 0 ∨ code = 3) :
    Kind.ofCode? code = Option.none := by
  rcases hk with rfl | rfl <;> rfl

/-- A `CONFIG` of a channel of the table is decided by the kind that its code names (R220). -/
theorem exec_config_of_channelOk {channel : Byte} (hc : channelOk channel) (priority : BitVec 3) (code : BitVec 2)
    (ctx : Ctx) (s : State) :
    exec (.config channel priority code ctx) s =
      (Kind.ofCode? code).elim (refuse s) fun k =>
        .next ((s.startOp.modifyChan channel.toNat fun _ => { prio := priority, kind := k, ctx := ctx }).reply
          .ok .none) := by
  refine (if_pos hc).trans ?_
  cases Kind.ofCode? code <;> rfl

/-- Settles O47: `CONFIG` puts a whole new entry in place; a channel beyond the table fails the first check, and a
code that names no kind the second. -/
theorem configReplacesTheEntry : Obligations.ConfigReplacesTheEntry := by
  intro channel priority code ctx s hlen
  refine ⟨fun hc hk => ?_, fun hbad => ?_⟩
  · obtain ⟨k, hof, hcode⟩ := Kind.exists_ofCode? hk
    have e := exec_config_of_channelOk hc priority code ctx s
    rw [hof] at e
    have m := ChangesChan.of_modifyChan (s := s) (c := channel.toNat)
      (fun _ => { prio := priority, kind := k, ctx := ctx }) (hlen ▸ hc)
    exact ⟨_, e, m.responds, m.events, m.only, m.length.trans hlen, m.prio,
      (congrArg Kind.code m.kind).trans hcode, m.ctx, m.other⟩
  · refine refuses_of ?_
    by_cases hc : channelOk channel
    · have hk : code = 0 ∨ code = 3 := hbad.resolve_left (Nat.not_le.2 hc)
      rw [exec_config_of_channelOk hc, Kind.ofCode?_eq_none hk]
      rfl
    · exact if_neg hc

/-! ### SETPRIO and GETPRIO (R221, R222) -/

/-- A `SETPRIO` that passes its checks changes the entry's priority (R221). -/
theorem exec_setprio_of_ok {channel value : Byte} (hc : channelOk channel) (hv : priorityOk value) (s : State) :
    exec (.setprio channel value) s = .next
      ((s.startOp.modifyChan channel.toNat fun c => { c with prio := value.setWidth 3 }).reply .ok .none) :=
  if_pos ⟨hc, hv⟩

/-- A legal priority fits the three bits of its field (R40, R221). -/
theorem toNat_setWidth_of_priorityOk {value : Byte} (hv : priorityOk value) :
    (value.setWidth 3).toNat = value.toNat :=
  (BitVec.toNat_setWidth ..).trans (Nat.mod_eq_of_lt (Nat.lt_succ_of_le hv))

/-- Settles O48: `SETPRIO` puts the old entry back with another priority; its one check is of both operands. -/
theorem setprioChangesThePriorityOnly : Obligations.SetprioChangesThePriorityOnly := by
  intro channel value s hlen
  refine ⟨fun hc hv => ?_, fun hbad => refuses_of (if_neg ?_)⟩
  · have m := ChangesChan.of_modifyChan (s := s) (c := channel.toNat)
      (fun c => { c with prio := value.setWidth 3 }) (hlen ▸ hc)
    exact ⟨_, exec_setprio_of_ok hc hv s, m.responds, m.events, m.only, m.length.trans hlen,
      (congrArg BitVec.toNat m.prio).trans (toNat_setWidth_of_priorityOk hv), m.kind, m.ctx, m.other⟩
  · rintro ⟨hc, hv⟩
    exact hbad.elim (Nat.not_le.2 hc) (Nat.not_lt.2 hv)

/-- Settles O49: `GETPRIO` has the one check of the channel, and answers from the table as it stands. -/
theorem getprioReturnsThePriority : Obligations.GetprioReturnsThePriority := by
  intro channel s
  exact ⟨fun hc => if_pos hc, fun hc => refuses_of (if_neg (Nat.not_lt.2 hc))⟩

end Sys2Proof.Machine

/-! ## Session

`INIT` and `FREEPOOL` are the two operations that open and close a session (R251). -/

namespace Sys2Proof.Machine

/-! ### INIT (R250) -/

/-- The four legal operands name the granularity of that many bytes (R8, R250). -/
theorem Gran.exists_ofByte? {g : Byte} (hg : g = 4 ∨ g = 8 ∨ g = 16 ∨ g = 32) :
    ∃ gr, Gran.ofByte? g = some gr ∧ gr.bytes = g.toNat := by
  rcases hg with rfl | rfl | rfl | rfl
  · exact ⟨.g4, rfl, rfl⟩
  · exact ⟨.g8, rfl, rfl⟩
  · exact ⟨.g16, rfl, rfl⟩
  · exact ⟨.g32, rfl, rfl⟩

/-- Every other operand names none (R250). -/
theorem Gran.ofByte?_eq_none {g : Byte} (hg : g ≠ 4 ∧ g ≠ 8 ∧ g ≠ 16 ∧ g ≠ 32) : Gran.ofByte? g = Option.none := by
  obtain ⟨h4, h8, h16, h32⟩ := hg
  rw [Gran.ofByte?, if_neg h4, if_neg h8, if_neg h16, if_neg h32]

/-- Outside a session, `INIT` is decided by the granularity that its operand names (R250). -/
theorem exec_init_of_inactive {s : State} (ha : s.life ≠ .active) (g : Byte) :
    exec (.init g) s =
      (Gran.ofByte? g).elim (refuse s) fun gr => .next ((s.startOp.initSession gr).reply .ok .none) := by
  refine (if_neg ha).trans ?_
  cases Gran.ofByte? g <;> rfl

/-- Each handle of the new session's pool names a buffer with count and lengths 0 (R250). -/
theorem initSession_buf_zero {s : State} (gr : Gran) {h : Handle} (hl : h.toNat < s.params.poolBlocks) :
    ((s.initSession gr).buf h).refcount = 0 ∧ ((s.initSession gr).buf h).frameLength = 0 ∧
      ((s.initSession gr).buf h).payloadLength = 0 := by
  have hfresh : (s.initSession gr).buf h = Buf.fresh := List.getD_replicate _ hl
  rw [hfresh]
  exact ⟨rfl, rfl, rfl⟩

/-- Settles O13: a session or an operand that names no granularity fails a check; otherwise the registers are those
that `initSession` writes, its pool's by `initSession_buf_zero`. -/
theorem initBuildsSession : Obligations.InitBuildsSession := by
  intro g s
  refine ⟨fun hbad => refuses_of ?_, fun ha hg => ?_⟩
  · by_cases ha : s.life = .active
    · exact if_pos ha
    · rw [exec_init_of_inactive ha, Gran.ofByte?_eq_none (hbad.resolve_left ha)]
      rfl
  · obtain ⟨gr, hof, hbytes⟩ := Gran.exists_ofByte? hg
    have e := exec_init_of_inactive ha g
    rw [hof] at e
    exact ⟨_, e, rfl, rfl, rfl, hbytes, List.length_replicate, fun _ hl => initSession_buf_zero (s := s.startOp) gr hl,
      rfl, rfl, rfl, rfl, rfl, rfl, rfl, rfl, rfl, rfl, rfl, rfl, rfl, rfl, rfl⟩

/-! ### The lifecycle (R251) -/

/-- What `INIT` does to `life`: nothing, or it opens a session for a legal operand. -/
theorem exec_init_life {g : Byte} {s t : State} (e : exec (.init g) s = .next t) :
    t.life = s.life ∨ (g = 4 ∨ g = 8 ∨ g = 16 ∨ g = 32) ∧ s.life ≠ .active ∧ t.life = .active := by
  rcases execInit_next e with rfl | ⟨ha, gr, hof, rfl⟩
  · exact .inl rfl
  · have hg : g = 4 ∨ g = 8 ∨ g = 16 ∨ g = 32 := by
      by_contra hn
      simp only [not_or] at hn
      rw [Gran.ofByte?_eq_none hn] at hof
      cases hof
    exact .inr ⟨hg, ha, rfl⟩

/-- `FREEPOOL` in a session closes it, or finds a buffer with a reference and leaves it open (R145). -/
theorem exec_freepool_life {s : State} (hp : PoolInv s) (ha : s.life = .active) :
    ∃ t, exec .freepool s = .next t ∧
      (t.life = .closed ∧ (∀ h : Handle, h.toNat < s.params.poolBlocks → (s.buf h).refcount = 0) ∨
        t.life = .active ∧ ∃ h : Handle, h.toNat < s.params.poolBlocks ∧ (s.buf h).refcount ≠ 0) := by
  obtain ⟨-, hfreed, hreported⟩ := freepoolTearsDownOrReports s hp
  by_cases hz : ∀ h : Handle, h.toNat < s.params.poolBlocks → (s.buf h).refcount = 0
  · exact ⟨_, hfreed ha hz, .inl ⟨rfl, hz⟩⟩
  · push Not at hz
    obtain ⟨out, e, -⟩ := hreported ha hz
    exact ⟨_, e, .inr ⟨ha, hz⟩⟩

/-- Every operation but `INIT` and `FREEPOOL` keeps `life`. -/
theorem exec_keeps_life {i : Instr} {s t : State} (e : exec i s = .next t) (hinit : ∀ g, i ≠ .init g)
    (hfree : i ≠ .freepool) : t.life = s.life := by
  cases exec_effect e with
  | refused et => rw [et]; rfl
  | opened g gr ei et => exact absurd ei (hinit g)
  | closed ei et => exact absurd ei hfree
  | pooled u st r hi f et => rw [et]; exact f.transmitFrame.life
  | channel c f hi hw et => rw [et]; rfl
  | received data n u r hi hu et =>
    obtain ⟨-, -, -, hlife, -⟩ := received_sides hu
    rw [et]; exact hlife
  | transmitted u st r hi f et => rw [et]; exact f.life

/-- Settles O16: the two changes by the rules of `INIT` and `FREEPOOL`; the effects of all other operations keep
`life`. -/
theorem lifeChangesOnlyByInitAndFreepool : Obligations.LifeChangesOnlyByInitAndFreepool := by
  refine ⟨fun _ => rfl, fun s hp => ⟨fun g ha hg => ?_, fun ha => ?_, fun i t e => ?_⟩⟩
  · obtain ⟨t, e, -, -, hlife, -⟩ := (initBuildsSession g s).2 ha hg
    exact ⟨t, e, hlife⟩
  · obtain ⟨t, e, ⟨hlife, hz⟩ | ⟨hlife, h, hlt, hne⟩⟩ := exec_freepool_life hp ha
    · exact ⟨t, e, fun _ => hlife, fun ⟨h, hlt, hne⟩ => absurd (hz h hlt) hne⟩
    · exact ⟨t, e, fun hz => absurd (hz h hlt) hne, fun _ => hlife⟩
  · cases i with
    | init g => exact (exec_init_life e).imp_right fun ⟨hg, hopened⟩ => .inl ⟨⟨g, rfl, hg⟩, hopened⟩
    | freepool =>
      by_cases ha : s.life = .active
      · obtain ⟨u, eu, hu⟩ := exec_freepool_life hp ha
        cases e.symm.trans eu
        rcases hu with ⟨hlife, hz⟩ | ⟨hlife, -⟩
        · exact .inr (.inr ⟨rfl, ha, hlife, hz⟩)
        · exact .inl (hlife.trans ha.symm)
      · cases e.symm.trans ((freepoolTearsDownOrReports s hp).1 ha)
        exact .inl rfl
    | _ => exact .inl (exec_keeps_life e nofun nofun)

end Sys2Proof.Machine

/-! ## Between the operations -/

namespace Sys2Proof.Machine

/-- Nothing is fetched where nothing is issued. -/
theorem State.fetch_of_pending_nil {s : State} (hp : s.pending = []) : s.fetch = none := by
  simp only [State.fetch, hp]

/-- Settles O6: the fetch finds nothing, and the step that fetches nothing answers its own state. -/
theorem stepHoldsWithoutRequest : Obligations.StepHoldsWithoutRequest := by
  intro s hp
  simp only [step, State.fetch_of_pending_nil hp]

end Sys2Proof.Machine

/-! ## The wire patterns -/

namespace Sys2Proof.Machine

/-- Frame byte 1 by the bit places of its fields (R92). -/
theorem lenSeqByte_eq (x : BitVec 1) (service : BitVec 5) (seq : BitVec 2) :
    lenSeqByte x service seq = byteOf (x.toNat * 128 + service.toNat * 4 + seq.toNat) := by
  rw [← lenSeqByte_toNat, byteOf, BitVec.ofNat_toNat, BitVec.setWidth_eq]

/-- Frame byte 2 by the bit places of its fields (R92). -/
theorem chanPrioByte_eq (channel : BitVec 5) (priority : BitVec 3) :
    chanPrioByte channel priority = byteOf (channel.toNat * 8 + priority.toNat) := by
  rw [← chanPrioByte_toNat, byteOf, BitVec.ofNat_toNat, BitVec.setWidth_eq]

/-- Settles O38: a pattern and the `RXBYTES` of its bytes are the same arrival, once frame bytes 1 and 2 are written by
the bit places of their fields. -/
theorem wirePatternArrivesAsRxbytes : Obligations.WirePatternArrivesAsRxbytes := by
  intro x sl seq ch pr b s
  rw [← lenSeqByte_eq, ← chanPrioByte_eq]
  exact ⟨rfl, rfl, rfl, rfl, rfl, rfl⟩

end Sys2Proof.Machine

/-! ## Hardware reset

After it nothing is stored: there is no buffer, no ring byte and no queue slot, and no session that would ask for a
pool. -/

namespace Sys2Proof.Machine

section ResetState

variable {p : Params}

theorem resetWith_storageInv (hp : p.wf) : StorageInv (State.resetWith p) :=
  storageInv_iff.2 ⟨hp, List.forall_mem_nil _, ⟨Store.wf_nil, Store.below_nil _⟩, Store.wf_nil, Store.below_nil _⟩

/-- A legal build gives a reset value for each channel (D10), and reset makes an entry of each. -/
theorem resetWith_poolInv (hp : p.wf) : PoolInv (State.resetWith p) := by
  have ⟨_, _, _, _, _, _, _, _, hlen⟩ := hp
  exact poolInv_iff.2 ⟨hp, (List.length_map _).trans hlen, nofun, List.forall_mem_nil _⟩

theorem resetWith_queueInv (hp : p.wf) : QueueInv (State.resetWith p) := queueInv_of_empty hp rfl rfl

theorem resetWith_ringInv (p : Params) : RingInv (State.resetWith p) :=
  ringInv_iff.2 ⟨.inl rfl, .of_empty (by simp [State.avail, State.resetWith])⟩

/-- An empty queue owns nothing. -/
theorem resetWith_queueOwnsItsEntries (hp : p.wf) : QueueOwnsItsEntries (State.resetWith p) := by
  have hempty : (State.resetWith p).queued = [] := (resetWith_queueInv hp).queued_eq_nil.2 rfl
  refine queueOwnsItsEntries_iff.2 ⟨resetWith_poolInv hp, resetWith_queueInv hp, ?_⟩
  rw [hempty]
  exact List.forall_mem_nil _

end ResetState

/-- Settles O56: the state after reset meets each invariant by its own lemma. -/
theorem resetMeetsTheInvariants : Obligations.ResetMeetsTheInvariants := fun p hp =>
  ⟨resetWith_storageInv hp, resetWith_poolInv hp, resetWith_queueInv hp, resetWith_ringInv p,
    resetWith_queueOwnsItsEntries hp⟩

end Sys2Proof.Machine

/-! ## Rules over all operations -/

namespace Sys2Proof.Machine

/-- Settles O54: no operation outside the transmit operations meets a fault of the run, by the completion lemma of each
operation. -/
theorem onlyTransmitCanFault : Obligations.OnlyTransmitCanFault := fun _ _ hp hi =>
  exec_completes_of_not_transmit hp hi

/-- No operation issues or withdraws a request (R252; notes/assumptions/12.md). -/
theorem ExecEffect.pending {i : Instr} {s t : State} (x : ExecEffect i s t) : t.pending = s.pending := by
  cases x with
  | refused et => subst et; rfl
  | opened g gr ei et => subst et; rfl
  | closed ei et => subst et; rfl
  | pooled u st r hi f et =>
    subst et
    obtain ⟨-, -, -, -, -, -, hpending, -⟩ := f.sides
    exact hpending
  | channel c f hi hw et => subst et; rfl
  | received data n u r hi hu et =>
    subst et
    obtain ⟨-, -, -, -, -, -, hpending, -⟩ := received_sides hu
    exact hpending
  | transmitted u st r hi f et =>
    subst et
    obtain ⟨-, ⟨-, -, -, -, hpending, -⟩, -⟩ := f.sides
    exact hpending

/-- Settles O53: each of the seven effects keeps both fields. -/
theorem buildAndRequestsAreUntouched : Obligations.BuildAndRequestsAreUntouched := fun _ _ _ e =>
  ⟨(exec_effect e).params, (exec_effect e).pending⟩

/-! ### Statuses (R261) -/

/-- The response that `t` holds has a status listed for the operation. -/
def AnswersListed (i : Instr) (t : State) : Prop := ∃ r, t.resp = some r ∧ r.status ∈ allowedStatuses i

theorem AnswersListed.reply {i : Instr} {st : Status} (hst : st ∈ allowedStatuses i) (u : State) (r : Result) :
    AnswersListed i (u.reply st r) := ⟨_, u.reply_resp st r, hst⟩

/-- `Ok` is listed for every operation. -/
theorem AnswersListed.ok (i : Instr) (u : State) (r : Result) : AnswersListed i (u.reply .ok r) :=
  .reply (by cases i <;> exact List.mem_cons_self) u r

/-- `InvalidParameter` is listed for every operation, so a refusal answers a listed status (R264). -/
theorem AnswersListed.refused (i : Instr) (s : State) : AnswersListed i s.refused :=
  .reply (by cases i <;> simp [allowedStatuses]) s.startOp .none

/-- `EnqueueRef` answers `Ok` or reports a full queue (R203). -/
theorem enqueueRef_status {h : Handle} {s t : State} {st : Status} (e : enqueueRef h s = .ok (st, t)) :
    st ∈ [Status.ok, .resourceExhausted, .invalidParameter] := by
  obtain ⟨u, -, ⟨-, rfl, -⟩ | ⟨-, rfl, -⟩⟩ := enqueueRef_ok e <;> decide

/-- The status of an assembly is that of its enqueue; the drain that follows has no say in it (R200, R204). -/
theorem assembleBody_status {c pr : Byte} {h : Handle} {s t : State} {st : Status}
    (e : assembleBody c pr h s = .ok (st, t)) : st ∈ [Status.ok, .resourceExhausted, .invalidParameter] := by
  obtain ⟨u, r, henqueue, -⟩ := assembleBody_ok e
  exact enqueueRef_status henqueue

/-- An arrival is refused or answers `Ok` (R186). -/
theorem AnswersListed.rxArrive (i : Instr) {data : List Byte} {s t : State} (e : rxArrive data s = .next t) :
    AnswersListed i t := by
  rcases rxArrive_next e with rfl | ⟨-, u, -, rfl⟩
  exacts [.refused .., .ok ..]

/-- Every operation answers a listed status: a refusal, `Ok`, or for the five operations that have more to say a status
of their own row. -/
theorem AnswersListed.exec {i : Instr} {s t : State} (e : exec i s = .next t) : AnswersListed i t := by
  cases i with
  | init g =>
    rcases execInit_next e with rfl | ⟨-, gr, -, rfl⟩
    exacts [.refused .., .ok ..]
  | freepool =>
    rcases execFreepool_next e with rfl | ⟨-, -, rfl⟩ | ⟨-, -, rfl⟩
    exacts [.refused .., .ok .., .ok ..]
  | cscalc data =>
    rcases execCscalc_next e with rfl | rfl
    exacts [.refused .., .ok ..]
  | cscheck x data =>
    rcases execCscheck_next e with rfl | rfl
    · exact .refused ..
    · refine .reply ?_ ..
      split_ifs <;> simp [allowedStatuses]
  | alloc =>
    rcases execAlloc_next e with rfl | ⟨-, h, -, rfl⟩ | ⟨-, -, rfl⟩
    exacts [.refused .., .ok .., .reply (by decide) ..]
  | refinc h =>
    rcases execRefinc_next e with rfl | ⟨-, -, -, u, -, rfl⟩
    exacts [.refused .., .ok ..]
  | release h =>
    rcases execRelease_next e with rfl | ⟨-, -, u, -, rfl⟩
    exacts [.refused .., .ok ..]
  | bufwr off val h =>
    rcases execBufwr_next e with rfl | ⟨-, -, -, rfl⟩
    exacts [.refused .., .ok ..]
  | bufrd off h =>
    rcases execBufrd_next e with rfl | ⟨-, -, -, rfl⟩
    exacts [.refused .., .ok ..]
  | setlen len h =>
    rcases execSetlen_next e with rfl | ⟨-, -, -, rfl⟩
    exacts [.refused .., .ok ..]
  | bufinfo h =>
    rcases execBufinfo_next e with rfl | ⟨-, -, rfl⟩
    exacts [.refused .., .ok ..]
  | rxpush data =>
    rcases execRxpush_next e with rfl | ⟨-, rfl⟩
    exacts [.refused .., .ok ..]
  | rxscan =>
    rcases execRxscan_next e with rfl | ⟨-, u, -, rfl⟩
    exacts [.refused .., .ok ..]
  | rxbytes | frameHeader | frameSof | frameLenSeq | frameChanPrio | framePayload | frameChecksum =>
    exact .rxArrive _ e
  | assemble c pr h =>
    rcases execAssemble_next e with rfl | ⟨-, ⟨st, u⟩, hbody, rfl⟩
    exacts [.refused .., .reply (assembleBody_status hbody) ..]
  | drain =>
    rcases execDrain_next e with rfl | ⟨-, r, -, rfl⟩
    · exact .refused ..
    · refine .reply ?_ ..
      split_ifs <;> decide
  | transmit c h =>
    rcases execTransmit_next e with rfl | ⟨-, u, ⟨st, v⟩, w, x, -, hbody, -, -, rfl⟩
    exacts [.refused .., .reply (assembleBody_status hbody) ..]
  | config c pr k x =>
    rcases execConfig_next e with rfl | ⟨-, kind, -, rfl⟩
    exacts [.refused .., .ok ..]
  | setprio c v =>
    rcases execSetprio_next e with rfl | ⟨-, -, rfl⟩
    exacts [.refused .., .ok ..]
  | getprio c =>
    rcases execGetprio_next e with rfl | ⟨-, rfl⟩
    exacts [.refused .., .ok ..]

/-- Settles O51, by `AnswersListed.exec`. -/
theorem statusIsOneOfTheListed : Obligations.StatusIsOneOfTheListed := fun _ _ _ e => AnswersListed.exec e

end Sys2Proof.Machine
